-- ==== Sys2Proof/Word.lean ====
section
/-! DEFINITION. The word types of the engine (00_scope.md R9, R10: every quantity is unsigned). -/

namespace Sys2Proof

/-- A byte of a buffer or of a symbol slot (R10: "a byte is 8 bits"). -/
abbrev Byte := BitVec 8

/-- An engine register (10_state.md R25: every register is 32 bits wide). -/
abbrev RegWord := BitVec 32

/-- A command word (30_encoding.md R90: every command is one 128-bit word). -/
abbrev CmdWord := BitVec 128

/-- A field element as the decode matrix holds it (10_state.md R40: an element of GF(2^M) held in
16 bits, the upper 16 - M bits zero); bit i is the coefficient of x^i (40_field_arithmetic.md R120). -/
abbrev Elem := BitVec 16

end Sys2Proof
end

