-- ==== Sys2Proof/Syntax.lean ====
section
/-! DEFINITION. The twenty commands (30_encoding.md R94), their opcodes' names and their operand
formats (R92). Operands are the unsigned values of the word's fields (R93), as natural numbers; that
each fits its field is WellFormed.lean's check. -/

namespace Sys2Proof

/-- The six operand formats of 30_encoding.md R92. -/
inductive Format where
  | z
  | a
  | ab
  | ma
  | mab
  | mabc
deriving DecidableEq, Repr

/-- The twenty opcodes of 30_encoding.md R94, in the table's order. -/
inductive Opcode where
  | nop
  | reset
  | initEnc
  | put
  | encode
  | get
  | initDec
  | accept
  | getsrc
  | dget
  | dpiv
  | seenq
  | gfadd
  | gfmul
  | gfinv
  | vclr
  | vaddmul
  | vscale
  | vout
  | gget
deriving DecidableEq, Repr

/-- One constructor per row of the opcode table, with the operands of 30_encoding.md R93 in the
order of the assembler line of R98: mf first, then a, b, c. -/
inductive Instr where
  | nop
  | reset
  | initEnc (m k n symsz : Nat)
  | put (slot : Nat)
  | encode
  | get (esi : Nat)
  | initDec (m k n symsz : Nat)
  | accept (esi : Nat)
  | getsrc (j : Nat)
  | dget (row col : Nat)
  | dpiv (row : Nat)
  | seenq (esi : Nat)
  | gfadd (m x y : Nat)
  | gfmul (m x y : Nat)
  | gfinv (m x : Nat)
  | vclr
  | vaddmul (coef : Nat)
  | vscale (coef : Nat)
  | vout
  | gget (esi col : Nat)
deriving DecidableEq, Repr

/-- The opcode a command belongs to. -/
def Instr.opcode : Instr → Opcode
  | .nop => .nop
  | .reset => .reset
  | .initEnc _ _ _ _ => .initEnc
  | .put _ => .put
  | .encode => .encode
  | .get _ => .get
  | .initDec _ _ _ _ => .initDec
  | .accept _ => .accept
  | .getsrc _ => .getsrc
  | .dget _ _ => .dget
  | .dpiv _ => .dpiv
  | .seenq _ => .seenq
  | .gfadd _ _ _ => .gfadd
  | .gfmul _ _ _ => .gfmul
  | .gfinv _ _ => .gfinv
  | .vclr => .vclr
  | .vaddmul _ => .vaddmul
  | .vscale _ => .vscale
  | .vout => .vout
  | .gget _ _ => .gget

end Sys2Proof
end

