-- ==== Sys2Proof/WellFormed.lean ====
section
/-! DEFINITION. When a command can be written as a word: each operand fits the field that carries it
(30_encoding.md R91, R93: mf is an unsigned 5-bit value, a, b and c unsigned 32-bit values). A value
outside the RANGE a command accepts is not a matter of well-formedness (R93). -/

namespace Sys2Proof

/-- mf is a 5-bit value (R93). -/
def fitsMf (m : Nat) : Bool := decide (m < 2 ^ 5)

/-- a, b and c are 32-bit values (R93). -/
def fitsOperand (x : Nat) : Bool := decide (x < 2 ^ 32)

/-- Every operand of the command fits its field. -/
def Instr.wellFormed : Instr → Bool
  | .nop => true
  | .reset => true
  | .initEnc m k n symsz => fitsMf m && fitsOperand k && fitsOperand n && fitsOperand symsz
  | .put slot => fitsOperand slot
  | .encode => true
  | .get esi => fitsOperand esi
  | .initDec m k n symsz => fitsMf m && fitsOperand k && fitsOperand n && fitsOperand symsz
  | .accept esi => fitsOperand esi
  | .getsrc j => fitsOperand j
  | .dget row col => fitsOperand row && fitsOperand col
  | .dpiv row => fitsOperand row
  | .seenq esi => fitsOperand esi
  | .gfadd m x y => fitsMf m && fitsOperand x && fitsOperand y
  | .gfmul m x y => fitsMf m && fitsOperand x && fitsOperand y
  | .gfinv m x => fitsMf m && fitsOperand x
  | .vclr => true
  | .vaddmul coef => fitsOperand coef
  | .vscale coef => fitsOperand coef
  | .vout => true
  | .gget esi col => fitsOperand esi && fitsOperand col

end Sys2Proof
end

