-- ==== Sys2Proof/Decode.lean ====
section
/-! DEFINITION. Decoding and encoding of command words: the fields of 30_encoding.md R91, the formats
and masks of R92, the opcode map of R94, the decoding procedure of R95, the encoding of R101 and the
canonical serialisation of R102. -/

namespace Sys2Proof

/-- The opcode byte of R94. -/
def opcodeByte : Opcode → BitVec 8
  | .nop => 0x00
  | .reset => 0x01
  | .initEnc => 0x10
  | .put => 0x11
  | .encode => 0x12
  | .get => 0x13
  | .initDec => 0x20
  | .accept => 0x21
  | .getsrc => 0x22
  | .dget => 0x23
  | .dpiv => 0x24
  | .seenq => 0x25
  | .gfadd => 0x30
  | .gfmul => 0x31
  | .gfinv => 0x32
  | .vclr => 0x40
  | .vaddmul => 0x41
  | .vscale => 0x42
  | .vout => 0x43
  | .gget => 0x50

/-- The format column of R94. -/
def opcodeFormat : Opcode → Format
  | .nop => .z
  | .reset => .z
  | .initEnc => .mabc
  | .put => .a
  | .encode => .z
  | .get => .a
  | .initDec => .mabc
  | .accept => .a
  | .getsrc => .a
  | .dget => .ab
  | .dpiv => .a
  | .seenq => .a
  | .gfadd => .mab
  | .gfmul => .mab
  | .gfinv => .ma
  | .vclr => .z
  | .vaddmul => .a
  | .vscale => .a
  | .vout => .z
  | .gget => .ab

/-- The twenty opcodes of R94. -/
def allOpcodes : List Opcode :=
  [.nop, .reset, .initEnc, .put, .encode, .get, .initDec, .accept, .getsrc, .dget, .dpiv, .seenq,
    .gfadd, .gfmul, .gfinv, .vclr, .vaddmul, .vscale, .vout, .gget]

/-- R92: which formats use mf. -/
def usesMf : Format → Bool
  | .ma | .mab | .mabc => true
  | .z | .a | .ab => false

/-- R92: which formats use a. -/
def usesA : Format → Bool
  | .z => false
  | .a | .ab | .ma | .mab | .mabc => true

/-- R92: which formats use b. -/
def usesB : Format → Bool
  | .ab | .mab | .mabc => true
  | .z | .a | .ma => false

/-- R92: which formats use c. -/
def usesC : Format → Bool
  | .mabc => true
  | .z | .a | .ab | .ma | .mab => false

/-- The mask column of R92: the bits that are fixed for a command of the format. -/
def formatMask : Format → CmdWord
  | .z => 0xFFFFFFFFFFFFFFFFFFFFFFFFFFFFFFFF
  | .a => 0xFFFFFFFFFFFFFFFF00000000FFFFFFFF
  | .ab => 0xFFFFFFFF0000000000000000FFFFFFFF
  | .ma => 0xFFFFFFFFFFFFFFFF00000000FFFFE0FF
  | .mab => 0xFFFFFFFF0000000000000000FFFFE0FF
  | .mabc => 0x000000000000000000000000FFFFE0FF

/-- R92: `match = zext_128(op)`. -/
def opcodeMatch (o : Opcode) : CmdWord := (opcodeByte o).setWidth 128

/-- `op`, bits 7 to 0 (R91). -/
def opField (w : CmdWord) : BitVec 8 := w.extractLsb' 0 8

/-- `mf`, bits 12 to 8 (R91). -/
def mfField (w : CmdWord) : BitVec 5 := w.extractLsb' 8 5

/-- `rsv`, bits 31 to 13 (R91). -/
def rsvField (w : CmdWord) : BitVec 19 := w.extractLsb' 13 19

/-- `a`, bits 63 to 32 (R91). -/
def aField (w : CmdWord) : BitVec 32 := w.extractLsb' 32 32

/-- `b`, bits 95 to 64 (R91). -/
def bField (w : CmdWord) : BitVec 32 := w.extractLsb' 64 32

/-- `c`, bits 127 to 96 (R91). -/
def cField (w : CmdWord) : BitVec 32 := w.extractLsb' 96 32

/-- Why a word is not a command (R95, R96), one name per line of the decoding procedure. -/
inductive DecodeError where
  /-- The opcode byte is not one of the twenty of R94. -/
  | undefinedOpcode
  /-- A bit of `rsv` is set. -/
  | reservedNonzero
  /-- The format uses no mf and mf is not 0. -/
  | unusedMf
  /-- The format does not use a and a is not 0. -/
  | unusedA
  /-- The format does not use b and b is not 0. -/
  | unusedB
  /-- The format does not use c and c is not 0. -/
  | unusedC
deriving DecidableEq, Repr

/-- The opcode a byte stands for, if any (R94). -/
def opcodeOfByte (b : BitVec 8) : Option Opcode := allOpcodes.find? (fun o => opcodeByte o == b)

/-- The command of an opcode from the four operand values (the operand table of R93). -/
def assemble (o : Opcode) (m a b c : Nat) : Instr :=
  match o with
  | .nop => .nop
  | .reset => .reset
  | .initEnc => .initEnc m a b c
  | .put => .put a
  | .encode => .encode
  | .get => .get a
  | .initDec => .initDec m a b c
  | .accept => .accept a
  | .getsrc => .getsrc a
  | .dget => .dget a b
  | .dpiv => .dpiv a
  | .seenq => .seenq a
  | .gfadd => .gfadd m a b
  | .gfmul => .gfmul m a b
  | .gfinv => .gfinv m a
  | .vclr => .vclr
  | .vaddmul => .vaddmul a
  | .vscale => .vscale a
  | .vout => .vout
  | .gget => .gget a b

/-- The decoding procedure of R95. It reads no state. -/
def decode (w : CmdWord) : Except DecodeError Instr :=
  match opcodeOfByte (opField w) with
  | none => .error .undefinedOpcode
  | some o =>
    if rsvField w ≠ 0 then .error .reservedNonzero
    else if usesMf (opcodeFormat o) = false ∧ mfField w ≠ 0 then .error .unusedMf
    else if usesA (opcodeFormat o) = false ∧ aField w ≠ 0 then .error .unusedA
    else if usesB (opcodeFormat o) = false ∧ bField w ≠ 0 then .error .unusedB
    else if usesC (opcodeFormat o) = false ∧ cField w ≠ 0 then .error .unusedC
    else .ok (assemble o (mfField w).toNat (aField w).toNat (bField w).toNat (cField w).toNat)

/-- The four operand values mf, a, b, c of a command, unused fields 0 (R93, R101). -/
def operandsOf : Instr → Nat × Nat × Nat × Nat
  | .nop => (0, 0, 0, 0)
  | .reset => (0, 0, 0, 0)
  | .initEnc m k n symsz => (m, k, n, symsz)
  | .put slot => (0, slot, 0, 0)
  | .encode => (0, 0, 0, 0)
  | .get esi => (0, esi, 0, 0)
  | .initDec m k n symsz => (m, k, n, symsz)
  | .accept esi => (0, esi, 0, 0)
  | .getsrc j => (0, j, 0, 0)
  | .dget row col => (0, row, col, 0)
  | .dpiv row => (0, row, 0, 0)
  | .seenq esi => (0, esi, 0, 0)
  | .gfadd m x y => (m, x, y, 0)
  | .gfmul m x y => (m, x, y, 0)
  | .gfinv m x => (m, x, 0, 0)
  | .vclr => (0, 0, 0, 0)
  | .vaddmul coef => (0, coef, 0, 0)
  | .vscale coef => (0, coef, 0, 0)
  | .vout => (0, 0, 0, 0)
  | .gget esi col => (0, esi, col, 0)

/-- `w = op + (mf << 8) + (a << 32) + (b << 64) + (c << 96)` (R101). -/
def packWord (op m a b c : Nat) : CmdWord :=
  BitVec.ofNat 128 (op + m * 2 ^ 8 + a * 2 ^ 32 + b * 2 ^ 64 + c * 2 ^ 96)

/-- The command word of a command (R101). -/
def encode (i : Instr) : CmdWord :=
  packWord (opcodeByte i.opcode).toNat (operandsOf i).1 (operandsOf i).2.1 (operandsOf i).2.2.1
    (operandsOf i).2.2.2

/-- The canonical serialisation of R102: byte i is bits 8i+7 to 8i of the word. -/
def wordBytes (w : CmdWord) : List Byte := (List.range 16).map fun i => w.extractLsb' (8 * i) 8

/-- The word that a list of bytes serialises, byte 0 least significant (R102). -/
def wordOfBytes : List Byte → CmdWord
  | [] => 0
  | b :: bs => b.setWidth 128 ||| (wordOfBytes bs <<< 8)

/-- The instruction the decoder reads from the low `nbits` bits of `w`, the bits above them zero: a
command is one 128-bit word (R90), so the word itself is what the command port takes (R65). -/
def decodeTableWord (nbits w : Nat) : Option Instr :=
  match decode (BitVec.ofNat 128 (w % 2 ^ nbits)) with
  | .ok i => some i
  | .error _ => none

end Sys2Proof
end

