-- ==== Sys2Proof/Config.lean ====
section
/-! DEFINITION. The instance parameters of 00_scope.md R7. They are plain data that State holds and no
command changes (70_reset_and_hazards.md R322), so that a statement about every state is a statement
about every instance. PORT_MAP is read by no rule and is not modelled (R7; log 16). -/

namespace Sys2Proof

/-- The parameters an instance is built with (00_scope.md R7). -/
structure Params where
  /-- M_SET: the supported field exponents, a strictly rising list. -/
  mSet : List Nat
  /-- N_MAX: the largest total symbol count. -/
  nMax : Nat
  /-- SYMSZ_MAX: the largest symbolSize in bytes; also the size of IOBUF and VACC. -/
  symszMax : Nat
deriving DecidableEq, Repr

/-- The default instance (00_scope.md R7): M_SET = 1 to 16, N_MAX = 65536, SYMSZ_MAX = 65535. -/
def defaultParams : Params where
  mSet := [1, 2, 3, 4, 5, 6, 7, 8, 9, 10, 11, 12, 13, 14, 15, 16]
  nMax := 65536
  symszMax := 65535

/-- The bounds R7 puts on the parameters: M_SET a non-empty subset of 1 to 16 (as a strictly rising
list), N_MAX in [1, 65536], SYMSZ_MAX in [1, 65535]. -/
def paramsOk (p : Params) : Bool :=
  !p.mSet.isEmpty && p.mSet.all (fun i => decide (1 ≤ i) && decide (i ≤ 16)) &&
    decide (p.mSet.Pairwise (· < ·)) && decide (1 ≤ p.nMax) && decide (p.nMax ≤ 65536) &&
    decide (1 ≤ p.symszMax) && decide (p.symszMax ≤ 65535)

end Sys2Proof
end

