-- ==== Sys2Proof/Machine/State.lean ====
section
/-! DEFINITION. The state of one engine instance (10_state.md R21) as plain data, the host's
transactions and the engine's responses (20_memory.md R60 to R63), the reasons a step can stop, and
the reset state (10_state.md R46). -/

namespace Sys2Proof.Machine

/-- The six values of the STATE register (10_state.md R29). -/
inductive SessionState where
  /-- 0: no session. -/
  | idle
  /-- 1: encode session, source symbols being loaded. -/
  | encLoad
  /-- 2: encode session encoded. -/
  | encReady
  /-- 3: decode session accumulating. -/
  | decAcc
  /-- 4: decode session complete. -/
  | decDone
  /-- 5: an internal fault was detected; sticky until reset. -/
  | faulted
deriving DecidableEq, Repr

/-- The eleven outcomes of a command, the values of the STATUS register (60_exceptions.md R280). -/
inductive Status where
  | ok
  | incomplete
  | complete
  | error
  | invalidParameters
  | invalidSymbolIndex
  | notInitialized
  | alreadyInitialized
  | badState
  | invalidOperand
  | illegalCommand
deriving DecidableEq, Repr

/-- A map from indices to values held as the list of the entries that differ from a default value,
indices strictly rising (log 4). -/
abbrev Sparse (α : Type) := List (Nat × α)

/-- Bytes by offset; an unlisted offset reads 0, the reset value of every byte (10_state.md R46). -/
abbrev Memory := Sparse Byte

/-- One event of the host's sequence (20_memory.md R60 to R63; 70_reset_and_hazards.md R320). -/
inductive Transaction where
  /-- CMD(w): a command word on the command port (R63). -/
  | cmd (w : CmdWord)
  /-- REGRD(r): read of the register numbered r (R60). -/
  | regrd (r : BitVec 8)
  /-- BUFWR(o, v): write of byte v at offset o of IOBUF (R61). -/
  | bufwr (o : BitVec 32) (v : Byte)
  /-- BUFRD(o): read of the byte at offset o of IOBUF (R62). -/
  | bufrd (o : BitVec 32)
  /-- The hardware reset of 70_reset_and_hazards.md R320 (log 5). -/
  | hwReset
deriving DecidableEq, Repr

/-- What the host is answered (20_memory.md R60 to R63). -/
inductive Response where
  /-- A command's outcome, the code that STATUS then holds (R63). -/
  | outcome (o : Status)
  /-- `ok(v)` of REGRD. -/
  | regValue (v : RegWord)
  /-- `ok` of BUFWR. -/
  | written
  /-- `ok(v)` of BUFRD. -/
  | byteValue (v : Byte)
  /-- `buserr` (60_exceptions.md R289). -/
  | buserr
deriving DecidableEq, Repr

/-- The complete state of one engine instance (10_state.md R21), the instance's parameters, and the
model's own bookkeeping of the host's side (`pending`, `responses`). -/
structure State where
  /-- The instance parameters; CAP_M, CAP_NMAX and CAP_SYMSZ (R26 to R28) are read from them. -/
  inst : Params
  /-- STATE (R29). -/
  state : SessionState
  /-- STATUS (R30). -/
  status : Status
  /-- K (R31). -/
  k : RegWord
  /-- N (R31). -/
  n : RegWord
  /-- SYMSZ (R31). -/
  symsz : RegWord
  /-- M (R31). -/
  m : RegWord
  /-- RES (R32). -/
  res : RegWord
  /-- LOADED (R33). -/
  loaded : RegWord
  /-- RXCOUNT (R34). -/
  rxcount : RegWord
  /-- RANK (R35). -/
  rank : RegWord
  /-- IOBUF (R36). -/
  iobuf : Memory
  /-- VACC (R37). -/
  vacc : Memory
  /-- SYM (R38): slot by slot index, bytes by offset. -/
  sym : Sparse Memory
  /-- SRCSET (R39), strictly rising. -/
  srcset : List Nat
  /-- D (R40): row by row index, elements by column. -/
  d : Sparse (Sparse Elem)
  /-- PIV (R41): the rows whose flag is true, strictly rising. -/
  piv : List Nat
  /-- SEEN (R42), strictly rising. -/
  seen : List Nat
  /-- The model's own: the host transactions not yet performed, oldest first (log 1). -/
  pending : List Transaction
  /-- The model's own: the responses given so far, newest first (log 2). -/
  responses : List Response
deriving DecidableEq, Repr

/-- The machine never stops with a fault: the step function is total (70_reset_and_hazards.md R333) and
every failure the spec describes, the internal fault of 60_exceptions.md R285 included, is a next
state. So nobody raises a fault, there is no constructor, and that is safe (log 12). -/
inductive Fault : Type
deriving DecidableEq, Repr

/-- Why a step may have no meaning. No meaning of this model refuses (log 12). -/
inductive Refusal where
  /-- Raised only by an arm of exec whose instruction has no meaning yet, with its mnemonic; no arm does.
  Safe: it stops the machine where the hardware goes on. -/
  | notModelled (mnemonic : String)
deriving DecidableEq, Repr

/-- The reset state of an instance with parameters `p` (10_state.md R46), with nothing pending and no
response given. -/
def State.resetOf (p : Params) : State where
  inst := p
  state := .idle
  status := .ok
  k := 0
  n := 0
  symsz := 0
  m := 0
  res := 0
  loaded := 0
  rxcount := 0
  rank := 0
  iobuf := []
  vacc := []
  sym := []
  srcset := []
  d := []
  piv := []
  seen := []
  pending := []
  responses := []

/-- The machine right after reset (10_state.md R46; 70_reset_and_hazards.md R321), for an instance with
the default parameters of 00_scope.md R7 (log 3). -/
def State.reset : State := State.resetOf defaultParams

end Sys2Proof.Machine
end

