-- ==== Sys2Proof/Machine/Flags.lean ====
section
/-! DEFINITION. The engine has no condition codes (10_state.md R24); the two status-like registers are
STATE and STATUS. Their codes (10_state.md R29, 60_exceptions.md R280) and the classes of outcomes. -/

namespace Sys2Proof.Machine

/-- The code of a session state, zero-extended to 32 bits (10_state.md R29). -/
def stateCode : SessionState → RegWord
  | .idle => 0
  | .encLoad => 1
  | .encReady => 2
  | .decAcc => 3
  | .decDone => 4
  | .faulted => 5

/-- The code of an outcome, zero-extended to 32 bits (60_exceptions.md R280). -/
def statusCode : Status → RegWord
  | .ok => 0
  | .incomplete => 1
  | .complete => 2
  | .error => 3
  | .invalidParameters => 4
  | .invalidSymbolIndex => 5
  | .notInitialized => 6
  | .alreadyInitialized => 7
  | .badState => 8
  | .invalidOperand => 9
  | .illegalCommand => 10

/-- The outcomes of class "success" of R280. -/
def statusSuccess : Status → Bool
  | .ok | .incomplete | .complete => true
  | .error | .invalidParameters | .invalidSymbolIndex | .notInitialized | .alreadyInitialized
  | .badState | .invalidOperand | .illegalCommand => false

/-- The outcomes of class "caller error" of R280. -/
def statusCallerError : Status → Bool
  | .invalidParameters | .invalidSymbolIndex | .notInitialized | .alreadyInitialized
  | .badState | .invalidOperand | .illegalCommand => true
  | .ok | .incomplete | .complete | .error => false

end Sys2Proof.Machine
end

