-- ==== Sys2Proof/Machine/Field.lean ====
section
/-! DEFINITION. Arithmetic in GF(2^m) (40_field_arithmetic.md R120 to R126). -/

namespace Sys2Proof.Machine

/-- POLY[m], the reduction polynomial with its leading term (R121); 0 outside 1 to 16, where no field is
defined and no command reaches (log 7). -/
def poly : Nat → BitVec 32
  | 1 => 0x3
  | 2 => 0x7
  | 3 => 0xB
  | 4 => 0x13
  | 5 => 0x25
  | 6 => 0x43
  | 7 => 0x89
  | 8 => 0x11D
  | 9 => 0x211
  | 10 => 0x409
  | 11 => 0x805
  | 12 => 0x1053
  | 13 => 0x201B
  | 14 => 0x4443
  | 15 => 0x8003
  | 16 => 0x1100B
  | _ => 0

/-- gf_add: bitwise exclusive or, for every m (R122). -/
def gfAdd (x y : Elem) : Elem := x ^^^ y

/-- The first loop of gf_mul (R123): the exclusive or of `x << i` over the bits i below the count that
are set in y. -/
def carrylessProduct (x : BitVec 32) (y : Elem) : Nat → BitVec 32
  | 0 => 0
  | i + 1 => carrylessProduct x y i ^^^ (if y.getLsbD i then x <<< i else 0)

/-- The second loop of gf_mul (R123): for i from `m + c - 1` down to m, clear bit i of r with
`POLY[m] << (i - m)`. -/
def reducePoly (m : Nat) : Nat → BitVec 32 → BitVec 32
  | 0, r => r
  | c + 1, r => reducePoly m c (if r.getLsbD (m + c) then r ^^^ (poly m <<< c) else r)

/-- gf_mul (R123, for m-bit x and y; on a wider value the same computation, DESIGN CHOICE, log 19). -/
def gfMul (m : Nat) (x y : Elem) : Elem :=
  (reducePoly m (m - 1) (carrylessProduct (x.setWidth 32) y m) &&& BitVec.ofNat 32 (2 ^ m - 1)).setWidth 16

/-- gf_pow (R124): x multiplied by itself e times, 1 for e = 0. -/
def gfPow (m : Nat) (x : Elem) : Nat → Elem
  | 0 => 1
  | e + 1 => gfMul m (gfPow m x e) x

/-- The product of `acc` with the next `count` successive squares of t. -/
def squareChain (m : Nat) : Nat → Elem → Elem → Elem
  | 0, _, acc => acc
  | count + 1, t, acc => squareChain m count (gfMul m t t) (gfMul m acc (gfMul m t t))

/-- gf_inv (R125): `x^(2^m - 2)`, computed as the product of x^2, x^4, ..., x^(2^(m-1)) (log 6); not
defined at 0, where it answers none. -/
def gfInv (m : Nat) (x : Elem) : Option Elem :=
  if x = 0 then none else some (squareChain m (m - 1) x 1)

/-- ALPHA(m), the class of the polynomial x (R126). -/
def alpha (m : Nat) : Elem := if m = 1 then 1 else 2

end Sys2Proof.Machine
end

