-- ==== Sys2Proof/Machine/Vec.lean ====
section
/-! DEFINITION. Symbols as element vectors (41_vector_ops.md R150 to R155). -/

namespace Sys2Proof.Machine

/-- L, the number of elements in a symbol of S bytes (R150; rounded down where m does not divide 8S, DESIGN
CHOICE, log 20). -/
def elementCount (m size : Nat) : Nat := 8 * size / m

/-- The bytes of a symbol as one unsigned integer, byte 0 least significant (R151). -/
def bytesToNat : List Byte → Nat
  | [] => 0
  | b :: bs => b.toNat + 256 * bytesToNat bs

/-- unpack (R151): element j is bits m*j+m-1 down to m*j of the symbol's integer. Where m does not divide 8S
the bits left over are dropped (log 20). -/
def unpack (m : Nat) (s : List Byte) : List Elem :=
  (List.range (elementCount m s.length)).map fun j =>
    BitVec.ofNat 16 ((bytesToNat s >>> (m * j)) % 2 ^ m)

/-- The integer whose m-bit digits are the elements, element 0 least significant (R152). -/
def elemsToNat (m : Nat) : List Elem → Nat
  | [] => 0
  | e :: es => e.toNat + 2 ^ m * elemsToNat m es

/-- pack (R152): byte i is bits 8i+7 down to 8i of the integer. Where m does not divide 8S the bits left over
are 0, and an element wider than m bits is added into the next (log 20). -/
def pack (m : Nat) (e : List Elem) (size : Nat) : List Byte :=
  (List.range size).map fun i => BitVec.ofNat 8 ((elemsToNat m e >>> (8 * i)) % 256)

/-- vec_add (R153). -/
def vecAdd (u v : List Elem) : List Elem := List.zipWith gfAdd u v

/-- vec_mul (R154). -/
def vecMul (m : Nat) (c : Elem) (v : List Elem) : List Elem := v.map (gfMul m c)

/-- vec_addmul (R155). -/
def vecAddMul (m : Nat) (u : List Elem) (c : Elem) (v : List Elem) : List Elem :=
  vecAdd u (vecMul m c v)

/-- A list of `count` zero elements. -/
def zeroVec (count : Nat) : List Elem := List.replicate count 0

end Sys2Proof.Machine
end

