-- ==== Sys2Proof/Machine/Matrix.lean ====
section
/-! DEFINITION. Matrices over GF(2^m) and the generator matrix (42_matrix_ops.md R180 to R185). A matrix
is the list of its rows. -/

namespace Sys2Proof.Machine

/-- Element c of a row (R180). -/
def rowElem (row : List Elem) (c : Nat) : Elem := row.getD c 0

/-- The evaluation points: 0, 1, ALPHA, ALPHA^2, ... (R181, for r below 2^m; from there on the powers go on
repeating, DESIGN CHOICE, log 18). -/
def point (m : Nat) : Nat → Elem
  | 0 => 0
  | r + 1 => gfPow m (alpha m) r

/-- Row r of a Vandermonde matrix with `cols` columns (R182; for r from 2^m up, log 18). -/
def vdmRow (m cols r : Nat) : List Elem := (List.range cols).map fun c => gfPow m (point m r) c

/-- vdm(m, R, C) (R182; for R above 2^m, log 18). -/
def vdm (m rows cols : Nat) : List (List Elem) := (List.range rows).map (vdmRow m cols)

/-- One row of a matrix product: the sum over t of row[t] times row t of `b`, a matrix of `cols`
columns (R183). -/
def rowMul (m cols : Nat) (row : List Elem) (b : List (List Elem)) : List Elem :=
  (row.zip b).foldl (fun acc tb => vecAddMul m acc tb.1 tb.2) (zeroVec cols)

/-- mat_mul (R183), for a right factor of `cols` columns. -/
def matMul (m cols : Nat) (a b : List (List Elem)) : List (List Elem) :=
  a.map fun row => rowMul m cols row b

/-- Row r of the identity matrix of size k (R180). -/
def identityRow (k r : Nat) : List Elem := (List.range k).map fun c => if r = c then 1 else 0

/-- The identity matrix of size k (R180). -/
def identityMatrix (k : Nat) : List (List Elem) := (List.range k).map (identityRow k)

/-- One row of the pair (W, U) that Gauss-Jordan elimination works on (R184). -/
abbrev AugRow := List Elem × List Elem

/-- Row r of the pair (W, U). -/
def augRow (rows : List AugRow) (r : Nat) : AugRow := rows.getD r ([], [])

/-- Both halves of a row times v. -/
def augScale (m : Nat) (v : Elem) (row : AugRow) : AugRow := (vecMul m v row.1, vecMul m v row.2)

/-- Both halves of a row plus f times another row. -/
def augAddMul (m : Nat) (row : AugRow) (f : Elem) (piv : AugRow) : AugRow :=
  (vecAddMul m row.1 f piv.1, vecAddMul m row.2 f piv.2)

/-- The least row index at or below the diagonal with a non-zero element in column c (R184). -/
def pivotIndex (rows : List AugRow) (c : Nat) : Option Nat :=
  (List.range rows.length).find? fun r => decide (c ≤ r) && !decide (rowElem (augRow rows r).1 c = 0)

/-- Exchange two rows (R184). -/
def swapRows (rows : List AugRow) (i j : Nat) : List AugRow :=
  (rows.set i (augRow rows j)).set j (augRow rows i)

/-- Clear column c from every row but row c, which becomes `piv` (R184). -/
def clearColumn (m c : Nat) (piv : AugRow) (rows : List AugRow) : List AugRow :=
  rows.mapIdx fun r row =>
    if r = c then piv
    else if rowElem row.1 c = 0 then row
    else augAddMul m row (rowElem row.1 c) piv

/-- One turn of the outer loop of mat_inv (R184): none where there is no pivot, or where the inverse of
0 would be taken (R125), which the choice of the pivot excludes. -/
def gaussJordanColumn (m : Nat) (rows : List AugRow) (c : Nat) : Option (List AugRow) :=
  match pivotIndex rows c with
  | none => none
  | some p =>
    match gfInv m (rowElem (augRow (swapRows rows c p) c).1 c) with
    | none => none
    | some v =>
      some (clearColumn m c (augScale m v (augRow (swapRows rows c p) c)) (swapRows rows c p))

/-- The turns of mat_inv's outer loop for a list of columns (R184). -/
def gaussJordan (m : Nat) : List Nat → List AugRow → Option (List AugRow)
  | [], rows => some rows
  | c :: cs, rows =>
    match gaussJordanColumn m rows c with
    | none => none
    | some rows' => gaussJordan m cs rows'

/-- mat_inv (R184): none where the matrix is singular. -/
def matInv (m : Nat) (a : List (List Elem)) : Option (List (List Elem)) :=
  (gaussJordan m (List.range a.length) (a.zip (identityMatrix a.length))).map fun rows =>
    rows.map Prod.snd

/-- gen(m, k, n) (R185): none is the internal fault, mat_inv reporting a singular matrix. R185 gives it for
`1 ≤ k ≤ n ≤ 2^m`; the same computation for any other k and n is DESIGN CHOICE, log 18. -/
def gen (m k n : Nat) : Option (List (List Elem)) :=
  match matInv m (vdm m k k) with
  | none => none
  | some ti => some (matMul m k (vdm m n k) ti)

/-- Row e of gen(m, k, n), which depends on m, k and e only (R185; log 8; outside R185's bounds, log 18). -/
def genRow (m k e : Nat) : Option (List Elem) :=
  match matInv m (vdm m k k) with
  | none => none
  | some ti => some (rowMul m k (vdmRow m k e) ti)

end Sys2Proof.Machine
end

