-- ==== Sys2Proof/Machine/Operands.lean ====
section
/-! DEFINITION. The operand checks (43_session_encode.md R212; 60_exceptions.md R281) and the values
taken from operands and registers. -/

namespace Sys2Proof.Machine

/-- Whether m is in M_SET (00_scope.md R7). -/
def supportsM (p : Params) (m : Nat) : Bool := p.mSet.contains m

/-- Whether an operand is a field element of GF(2^m): below 2^m (30_encoding.md R93). -/
def isElement (m x : Nat) : Bool := decide (x < 2 ^ m)

/-- The field element an operand in range stands for. -/
def elemOf (x : Nat) : Elem := BitVec.ofNat 16 x

/-- valid_params(mf, k, n, s), its eight conditions in the order of the table of R212. -/
def validParams (p : Params) (mf k n s : Nat) : Bool :=
  supportsM p mf && decide (1 ≤ k) && decide (k ≤ n) && decide (1 ≤ s) && decide (n ≤ 2 ^ mf) &&
    decide (8 * s % mf = 0) && decide (n ≤ p.nMax) && decide (s ≤ p.symszMax)

/-- The operand checks of GFADD and GFMUL (40_field_arithmetic.md R128, R129). -/
def gfOperandsOk (p : Params) (mf x y : Nat) : Bool :=
  supportsM p mf && isElement mf x && isElement mf y

/-- The operand checks of GFINV (40_field_arithmetic.md R130). -/
def gfInvOperandOk (p : Params) (mf x : Nat) : Bool :=
  supportsM p mf && isElement mf x && !decide (x = 0)

/-- K as a number. -/
def kOf (s : State) : Nat := s.k.toNat

/-- N as a number. -/
def nOf (s : State) : Nat := s.n.toNat

/-- S = REG[SYMSZ] as a number. -/
def symszOf (s : State) : Nat := s.symsz.toNat

/-- m = REG[M] as a number. -/
def mOf (s : State) : Nat := s.m.toNat

/-- A field element as a register value: zero-extended to 32 bits (10_state.md R32). -/
def resOfElem (e : Elem) : RegWord := e.setWidth 32

/-- A flag as a register value: 1 or 0 (10_state.md R32). -/
def resOfFlag (b : Bool) : RegWord := if b then 1 else 0

end Sys2Proof.Machine
end

