-- ==== Sys2Proof/Machine/Sparse.lean ====
section
/-! DEFINITION. The named operations over sparse stores: reading and writing one entry and a run of
entries (MemRead and MemWrite of 00_scope.md R10), the canonical form that every operation keeps, and
the sets SRCSET, PIV and SEEN as strictly rising lists. -/

namespace Sys2Proof.Machine

/-- The value at index `i`; `dflt` where nothing is listed. -/
def sparseGet {α : Type} (dflt : α) : Sparse α → Nat → α
  | [], _ => dflt
  | (j, w) :: t, i => if i = j then w else sparseGet dflt t i

/-- Write `v` at index `i`; writing the default removes the entry. -/
def sparseSet {α : Type} [DecidableEq α] (dflt : α) : Sparse α → Nat → α → Sparse α
  | [], i, v => if v = dflt then [] else [(i, v)]
  | (j, w) :: t, i, v =>
    if i < j then (if v = dflt then (j, w) :: t else (i, v) :: (j, w) :: t)
    else if i = j then (if v = dflt then t else (i, v) :: t)
    else (j, w) :: sparseSet dflt t i v

/-- The `count` values from index `a` up (MemRead of R10). -/
def sparseRead {α : Type} (dflt : α) (s : Sparse α) (a count : Nat) : List α :=
  (List.range' a count).map (sparseGet dflt s)

/-- Write the values of a list at the indices from `a` up (MemWrite of R10). -/
def sparseWrite {α : Type} [DecidableEq α] (dflt : α) : Sparse α → Nat → List α → Sparse α
  | s, _, [] => s
  | s, a, v :: vs => sparseWrite dflt (sparseSet dflt s a v) (a + 1) vs

/-- The canonical form: indices strictly rising, no entry at the default value. -/
def sparseWf {α : Type} [DecidableEq α] (dflt : α) (s : Sparse α) : Bool :=
  decide (s.Pairwise fun x y => x.1 < y.1) && s.all fun x => !decide (x.2 = dflt)

/-- The byte at an offset; a byte nothing has written reads 0 (10_state.md R46). -/
def Memory.read (mem : Memory) (o : Nat) : Byte := sparseGet 0 mem o

/-- Write one byte. -/
def Memory.write (mem : Memory) (o : Nat) (v : Byte) : Memory := sparseSet 0 mem o v

/-- The first `count` bytes from offset `o` (MemRead of R10). -/
def Memory.readBytes (mem : Memory) (o count : Nat) : List Byte := sparseRead 0 mem o count

/-- Write a list of bytes from offset `o` up (MemWrite of R10). -/
def Memory.writeBytes (mem : Memory) (o : Nat) (bs : List Byte) : Memory := sparseWrite 0 mem o bs

/-- The canonical form of a byte memory. -/
def Memory.wf (mem : Memory) : Bool := sparseWf 0 mem

/-- Slot `i` of the symbol store (10_state.md R38); a slot nothing has written is all zero. -/
def slotOf (sym : Sparse Memory) (i : Nat) : Memory := sparseGet [] sym i

/-- The first `count` bytes of slot `i`: `MemRead(SYM[i], 0, count)`. -/
def slotBytes (sym : Sparse Memory) (i count : Nat) : List Byte := (slotOf sym i).readBytes 0 count

/-- `MemWrite(SYM[i], 0, ..)` of a list of bytes. -/
def writeSlot (sym : Sparse Memory) (i : Nat) (bs : List Byte) : Sparse Memory :=
  sparseSet [] sym i ((slotOf sym i).writeBytes 0 bs)

/-- The canonical form of the symbol store: of the slots, and of the bytes of each. -/
def symWf (sym : Sparse Memory) : Bool :=
  sparseWf [] sym && sym.all fun x => Memory.wf x.2

/-- `D[r][c]` (10_state.md R40). -/
def matrixGet (d : Sparse (Sparse Elem)) (r c : Nat) : Elem := sparseGet 0 (sparseGet [] d r) c

/-- The first `count` elements of row `r` of D. -/
def matrixRow (d : Sparse (Sparse Elem)) (r count : Nat) : List Elem :=
  sparseRead 0 (sparseGet [] d r) 0 count

/-- `D[r] <- row`. -/
def writeMatrixRow (d : Sparse (Sparse Elem)) (r : Nat) (row : List Elem) : Sparse (Sparse Elem) :=
  sparseSet [] d r (sparseWrite 0 (sparseGet [] d r) 0 row)

/-- The canonical form of D: of the rows, and of the elements of each. -/
def matrixWf (d : Sparse (Sparse Elem)) : Bool :=
  sparseWf [] d && d.all fun x => sparseWf (0 : Elem) x.2

/-- Add an index to a set held as a strictly rising list. -/
def indexInsert : List Nat → Nat → List Nat
  | [], i => [i]
  | j :: t, i => if i < j then i :: j :: t else if i = j then j :: t else j :: indexInsert t i

/-- The canonical form of a set of indices: strictly rising. -/
def indexSetWf (l : List Nat) : Bool := decide (l.Pairwise (· < ·))

end Sys2Proof.Machine
end

