-- ==== Sys2Proof/Machine/Ops.lean ====
section
/-! DEFINITION. The shared operations of the commands: ending a command (`raise`, `finish` of
00_scope.md R10), the internal fault and the reset that leaves it (60_exceptions.md R285, R287), the
checks by STATE (R282, R283), the moves between IOBUF, VACC and SYM (20_memory.md R77), and the ports'
own operations (20_memory.md R60 to R62). -/

namespace Sys2Proof.Machine

/-! ### Updates of the state -/

/-- Write STATUS. -/
def State.setStatus (s : State) (o : Status) : State := { s with status := o }

/-- Write STATE. -/
def State.setState (s : State) (st : SessionState) : State := { s with state := st }

/-- Write RES. -/
def State.setRes (s : State) (v : RegWord) : State := { s with res := v }

/-- Write IOBUF. -/
def State.setIobuf (s : State) (mem : Memory) : State := { s with iobuf := mem }

/-- Write VACC. -/
def State.setVacc (s : State) (mem : Memory) : State := { s with vacc := mem }

/-- Write SYM. -/
def State.setSym (s : State) (sym : Sparse Memory) : State := { s with sym := sym }

/-- Write SRCSET, and LOADED with its size (10_state.md R33). -/
def State.setSrcset (s : State) (l : List Nat) : State :=
  { s with srcset := l, loaded := BitVec.ofNat 32 l.length }

/-- Write SEEN, and RXCOUNT with its size (10_state.md R34). -/
def State.setSeen (s : State) (l : List Nat) : State :=
  { s with seen := l, rxcount := BitVec.ofNat 32 l.length }

/-- Write D, PIV and RANK. -/
def State.setElim (s : State) (d : Sparse (Sparse Elem)) (piv : List Nat) (rank : RegWord) : State :=
  { s with d := d, piv := piv, rank := rank }

/-- Latch the session parameters (10_state.md R31). -/
def State.setSession (s : State) (m k n symsz : Nat) : State :=
  { s with
    m := BitVec.ofNat 32 m
    k := BitVec.ofNat 32 k
    n := BitVec.ofNat 32 n
    symsz := BitVec.ofNat 32 symsz }

/-- The host's sequence of transactions becomes `l` (log 1). -/
def State.setPending (s : State) (l : List Transaction) : State := { s with pending := l }

/-- A response is given to the host (log 2). -/
def State.respond (s : State) (r : Response) : State := { s with responses := r :: s.responses }

/-! ### Ending a command -/

/-- `finish X`: the command ends with outcome X after the writes already made (00_scope.md R10). -/
def finish (o : Status) (s : State) : Host.Outcome State Fault Refusal := .next (s.setStatus o)

/-- `raise X`: the command ends at once with outcome X and nothing but STATUS changes (00_scope.md R10;
60_exceptions.md R284). This is what the engine has in the place of taking an exception (R299). -/
def raise (o : Status) (s : State) : Host.Outcome State Fault Refusal := .next (s.setStatus o)

/-- The internal fault: STATE becomes FAULTED, STATUS ERROR, and what the command has written so far
stays written (60_exceptions.md R285). -/
def internalFault (s : State) : Host.Outcome State Fault Refusal :=
  .next ((s.setState .faulted).setStatus .error)

/-- The reset state of 10_state.md R46 for the same instance, the host's sequence going on: what the
RESET command and a hardware reset leave (70_reset_and_hazards.md R321, R322). It is the only way out of
FAULTED (60_exceptions.md R287). -/
def toReset (s : State) : State :=
  { State.resetOf s.inst with pending := s.pending, responses := s.responses }

/-! ### The checks by STATE -/

/-- The check of a command that needs no session: ERROR in FAULTED (60_exceptions.md R282). -/
def faultCheck (s : State) : Option Status :=
  match s.state with
  | .faulted => some .error
  | .idle | .encLoad | .encReady | .decAcc | .decDone => none

/-- The check of INIT_ENC and INIT_DEC: accepted in IDLE only (60_exceptions.md R282). -/
def idleCheck (s : State) : Option Status :=
  match s.state with
  | .faulted => some .error
  | .idle => none
  | .encLoad | .encReady | .decAcc | .decDone => some .alreadyInitialized

/-- The check of a session command permitted in the session states `allowed`: FAULTED first, then IDLE,
then BAD_STATE (60_exceptions.md R282, R283). -/
def sessionCheck (allowed : List SessionState) (s : State) : Option Status :=
  match s.state with
  | .faulted => some .error
  | .idle => some .notInitialized
  | st => if st ∈ allowed then none else some .badState

/-- Go on with `body` where no check failed; else end with the failed check's outcome. -/
def guarded (check : Option Status) (s : State) (body : Host.Outcome State Fault Refusal) :
    Host.Outcome State Fault Refusal :=
  match check with
  | some o => raise o s
  | none => body

/-! ### Moves between the buffers and the symbol store -/

/-- The first SYMSZ bytes of IOBUF. -/
def iobufSymbol (s : State) : List Byte := s.iobuf.readBytes 0 (symszOf s)

/-- The first SYMSZ bytes of VACC. -/
def vaccSymbol (s : State) : List Byte := s.vacc.readBytes 0 (symszOf s)

/-- The first SYMSZ bytes of symbol slot i. -/
def slotSymbol (s : State) (i : Nat) : List Byte := slotBytes s.sym i (symszOf s)

/-- Copy IOBUF's symbol into slot i. -/
def storeSlot (i : Nat) (s : State) : State := s.setSym (writeSlot s.sym i (iobufSymbol s))

/-- Copy the symbol of slot i into IOBUF. -/
def outputSlot (i : Nat) (s : State) : State := s.setIobuf (s.iobuf.writeBytes 0 (slotSymbol s i))

/-- Write a symbol into VACC. -/
def storeVacc (bs : List Byte) (s : State) : State := s.setVacc (s.vacc.writeBytes 0 bs)

/-! ### The registers as the host reads them -/

/-- CAP_M: bit i is 1 exactly when i is in M_SET (10_state.md R26). -/
def capM (p : Params) : RegWord := p.mSet.foldl (fun w i => w ||| (1 <<< i)) 0

/-- The value of register r, none where the number is undefined (10_state.md R25). -/
def regValue (s : State) (r : BitVec 8) : Option RegWord :=
  match r.toNat with
  | 0 => some (capM s.inst)
  | 1 => some (BitVec.ofNat 32 s.inst.nMax)
  | 2 => some (BitVec.ofNat 32 s.inst.symszMax)
  | 3 => some (stateCode s.state)
  | 4 => some (statusCode s.status)
  | 5 => some s.k
  | 6 => some s.n
  | 7 => some s.symsz
  | 8 => some s.m
  | 9 => some s.res
  | 10 => some s.loaded
  | 11 => some s.rxcount
  | 12 => some s.rank
  | _ => none

/-! ### The register and buffer ports -/

/-- REGRD (20_memory.md R60). -/
def doRegrd (r : BitVec 8) (s : State) : State :=
  match regValue s r with
  | some v => s.respond (.regValue v)
  | none => s.respond .buserr

/-- BUFWR (20_memory.md R61). -/
def doBufwr (o : BitVec 32) (v : Byte) (s : State) : State :=
  if o.toNat < s.inst.symszMax then (s.setIobuf (s.iobuf.write o.toNat v)).respond .written
  else s.respond .buserr

/-- BUFRD (20_memory.md R62). -/
def doBufrd (o : BitVec 32) (s : State) : State :=
  if o.toNat < s.inst.symszMax then s.respond (.byteValue (s.iobuf.read o.toNat))
  else s.respond .buserr

end Sys2Proof.Machine
end

