-- ==== Sys2Proof/Machine/Control.lean ====
section
/-! DEFINITION. The control commands (43_session_encode.md R210, R211). -/

namespace Sys2Proof.Machine

/-- NOP (R210). -/
def execNop (s : State) : Host.Outcome State Fault Refusal := guarded (faultCheck s) s (finish .ok s)

/-- RESET (R211): the only command executed in FAULTED. -/
def execReset (s : State) : Host.Outcome State Fault Refusal := finish .ok (toReset s)

end Sys2Proof.Machine
end

