-- ==== Sys2Proof/Machine/DecSession.lean ====
section
/-! DEFINITION. The commands of the decode session (44_session_decode.md R240, R242, R243, R249 to R252). -/

namespace Sys2Proof.Machine

/-- INIT_DEC (R240). -/
def execInitDec (m k n symsz : Nat) (s : State) : Host.Outcome State Fault Refusal :=
  guarded (idleCheck s) s <|
    if validParams s.inst m k n symsz then
      finish .ok
        (((((s.setSession m k n symsz).setSym []).setElim [] [] 0).setSeen []).setState .decAcc)
    else raise .invalidParameters s

/-- One equation: the coefficient row and the data, as element lists (R241). -/
abbrev Equation := List Elem × List Elem

/-- Stored row p of the elimination with its data: row p of D and slot p of SYM (R243). -/
def storedEquation (s : State) (p : Nat) : Equation :=
  (matrixRow s.d p (kOf s), unpack (mOf s) (slotSymbol s p))

/-- An equation plus f times another. -/
def eqnAddMul (m : Nat) (e : Equation) (f : Elem) (g : Equation) : Equation :=
  (vecAddMul m e.1 f g.1, vecAddMul m e.2 f g.2)

/-- One turn of step a of R243: reduce by stored row p. -/
def reduceBy (s : State) (e : Equation) (p : Nat) : Equation :=
  if p ∈ s.piv ∧ rowElem e.1 p ≠ 0 then eqnAddMul (mOf s) e (rowElem e.1 p) (storedEquation s p) else e

/-- Step a of R243: reduce by the stored rows p in 0..K. -/
def reduceEquation (s : State) (e : Equation) : Equation :=
  (List.range (kOf s)).foldl (reduceBy s) e

/-- Step b of R243: the least column with a non-zero element. -/
def leadingColumn (row : List Elem) : Option Nat :=
  (List.range row.length).find? fun c => !decide (rowElem row c = 0)

/-- Write an equation as stored row p: row p of D and slot p of SYM (steps d and e of R243). -/
def storeEquation (p : Nat) (e : Equation) (s : State) : State :=
  (s.setElim (writeMatrixRow s.d p e.1) s.piv s.rank).setSym
    (writeSlot s.sym p (pack (mOf s) e.2 (symszOf s)))

/-- One turn of step d of R243: clear column q from stored row p with the new equation. -/
def clearStored (q : Nat) (e : Equation) (s : State) (p : Nat) : State :=
  if p ≠ q ∧ p ∈ s.piv ∧ matrixGet s.d p q ≠ 0 then
    storeEquation p (eqnAddMul (mOf s) (storedEquation s p) (matrixGet s.d p q) e) s
  else s

/-- Steps d and e of R243: clear column q from the stored rows, store the equation as row q, count it. -/
def insertEquation (q : Nat) (e : Equation) (s : State) : State :=
  let s := storeEquation q e ((List.range (kOf s)).foldl (clearStored q e) s)
  s.setElim s.d (indexInsert s.piv q) (s.rank + 1)

/-- dec_insert (R243); none is the internal fault of step c, the inverse of 0. -/
def decInsert (e : Equation) (s : State) : Option State :=
  let r := reduceEquation s e
  match leadingColumn r.1 with
  | none => some s
  | some q =>
    match gfInv (mOf s) (rowElem r.1 q) with
    | none => none
    | some v => some (insertEquation q (vecMul (mOf s) v r.1, vecMul (mOf s) v r.2) s)

/-- Step 5 of ACCEPT (R242): complete exactly when RANK = K. -/
def acceptOutcome (s : State) : Host.Outcome State Fault Refusal :=
  if s.rank = s.k then finish .complete (s.setState .decDone) else finish .incomplete s

/-- Steps 3 to 5 of ACCEPT (R242). What step 3 wrote stays written at an internal fault
(60_exceptions.md R285). -/
def acceptNew (esi : Nat) (s : State) : Host.Outcome State Fault Refusal :=
  let s := s.setSeen (indexInsert s.seen esi)
  match genRow (mOf s) (kOf s) esi with
  | none => internalFault s
  | some row =>
    match decInsert (row, unpack (mOf s) (iobufSymbol s)) s with
    | none => internalFault s
    | some s' => acceptOutcome s'

/-- ACCEPT (R242). -/
def execAccept (esi : Nat) (s : State) : Host.Outcome State Fault Refusal :=
  guarded (sessionCheck [.decAcc, .decDone] s) s <|
    if esi < nOf s then
      if s.state = .decDone then finish .complete s
      else if esi ∈ s.seen then finish .incomplete s
      else acceptNew esi s
    else raise .invalidSymbolIndex s

/-- GETSRC (R249). -/
def execGetsrc (j : Nat) (s : State) : Host.Outcome State Fault Refusal :=
  guarded (sessionCheck [.decDone] s) s <|
    if j < kOf s then finish .ok (outputSlot j s) else raise .invalidSymbolIndex s

/-- DGET (R250). -/
def execDget (row col : Nat) (s : State) : Host.Outcome State Fault Refusal :=
  guarded (sessionCheck [.decAcc, .decDone] s) s <|
    if row < kOf s ∧ col < kOf s then finish .ok (s.setRes (resOfElem (matrixGet s.d row col)))
    else raise .invalidOperand s

/-- DPIV (R251). -/
def execDpiv (row : Nat) (s : State) : Host.Outcome State Fault Refusal :=
  guarded (sessionCheck [.decAcc, .decDone] s) s <|
    if row < kOf s then finish .ok (s.setRes (resOfFlag (s.piv.contains row)))
    else raise .invalidOperand s

/-- SEENQ (R252). -/
def execSeenq (esi : Nat) (s : State) : Host.Outcome State Fault Refusal :=
  guarded (sessionCheck [.decAcc, .decDone] s) s <|
    if esi < nOf s then finish .ok (s.setRes (resOfFlag (s.seen.contains esi)))
    else raise .invalidSymbolIndex s

end Sys2Proof.Machine
end

