-- ==== Sys2Proof/Machine/EncSession.lean ====
section
/-! DEFINITION. The commands of the encode session (43_session_encode.md R213 to R216). -/

namespace Sys2Proof.Machine

/-- INIT_ENC (R213). -/
def execInitEnc (m k n symsz : Nat) (s : State) : Host.Outcome State Fault Refusal :=
  guarded (idleCheck s) s <|
    if validParams s.inst m k n symsz then
      finish .ok ((((s.setSession m k n symsz).setSym []).setSrcset []).setState .encLoad)
    else raise .invalidParameters s

/-- PUT (R214). -/
def execPut (slot : Nat) (s : State) : Host.Outcome State Fault Refusal :=
  guarded (sessionCheck [.encLoad] s) s <|
    if slot < kOf s then
      finish .ok ((storeSlot slot s).setSrcset (indexInsert s.srcset slot))
    else raise .invalidSymbolIndex s

/-- The inner loop of ENCODE (R215): the sum over the source slots j of `grow[j]` times symbol j. -/
def combineSlots (m k size : Nat) (grow : List Elem) (sym : Sparse Memory) : List Elem :=
  (List.range k).foldl
    (fun acc j => vecAddMul m acc (rowElem grow j) (unpack m (slotBytes sym j size)))
    (zeroVec (elementCount m size))

/-- The outer loop of ENCODE (R215) over a list of repair slots. -/
def encodeSlots (m k size : Nat) (g : List (List Elem)) : List Nat → Sparse Memory → Sparse Memory
  | [], sym => sym
  | i :: is, sym =>
    encodeSlots m k size g is
      (writeSlot sym i (pack m (combineSlots m k size (g.getD i []) sym) size))

/-- ENCODE (R215). -/
def execEncode (s : State) : Host.Outcome State Fault Refusal :=
  guarded (sessionCheck [.encLoad, .encReady] s) s <|
    if s.state = .encReady then finish .ok s
    else if s.loaded = s.k then
      match gen (mOf s) (kOf s) (nOf s) with
      | none => internalFault s
      | some g =>
        finish .ok
          ((s.setSym (encodeSlots (mOf s) (kOf s) (symszOf s) g
            (List.range' (kOf s) (nOf s - kOf s)) s.sym)).setState .encReady)
    else raise .badState s

/-- GET (R216). -/
def execGet (esi : Nat) (s : State) : Host.Outcome State Fault Refusal :=
  guarded (sessionCheck [.encReady] s) s <|
    if esi < nOf s then finish .ok (outputSlot esi s) else raise .invalidSymbolIndex s

end Sys2Proof.Machine
end

