-- ==== Sys2Proof/Machine/Generator.lean ====
section
/-! DEFINITION. The generator query (42_matrix_ops.md R189). -/

namespace Sys2Proof.Machine

/-- GGET (R189): the row check before the column check (60_exceptions.md R283). -/
def execGget (esi col : Nat) (s : State) : Host.Outcome State Fault Refusal :=
  guarded (sessionCheck [.encLoad, .encReady, .decAcc, .decDone] s) s <|
    if esi < nOf s then
      if col < kOf s then
        match genRow (mOf s) (kOf s) esi with
        | none => internalFault s
        | some row => finish .ok (s.setRes (resOfElem (rowElem row col)))
      else raise .invalidOperand s
    else raise .invalidSymbolIndex s

end Sys2Proof.Machine
end

