-- ==== Sys2Proof/Machine/Scalar.lean ====
section
/-! DEFINITION. The scalar field commands (40_field_arithmetic.md R128 to R130). -/

namespace Sys2Proof.Machine

/-- GFADD (R128). -/
def execGfadd (m x y : Nat) (s : State) : Host.Outcome State Fault Refusal :=
  guarded (faultCheck s) s <|
    if gfOperandsOk s.inst m x y then finish .ok (s.setRes (resOfElem (gfAdd (elemOf x) (elemOf y))))
    else raise .invalidOperand s

/-- GFMUL (R129). -/
def execGfmul (m x y : Nat) (s : State) : Host.Outcome State Fault Refusal :=
  guarded (faultCheck s) s <|
    if gfOperandsOk s.inst m x y then
      finish .ok (s.setRes (resOfElem (gfMul m (elemOf x) (elemOf y))))
    else raise .invalidOperand s

/-- GFINV (R130): the inverse of 0 is a caller error, not an internal fault. -/
def execGfinv (m x : Nat) (s : State) : Host.Outcome State Fault Refusal :=
  guarded (faultCheck s) s <|
    if gfInvOperandOk s.inst m x then
      match gfInv m (elemOf x) with
      | some v => finish .ok (s.setRes (resOfElem v))
      | none => raise .invalidOperand s
    else raise .invalidOperand s

end Sys2Proof.Machine
end

