-- ==== Sys2Proof/Machine/VectorOps.lean ====
section
/-! DEFINITION. The symbol-vector commands (41_vector_ops.md R156 to R159). -/

namespace Sys2Proof.Machine

/-- The four session states (60_exceptions.md R282). -/
def anySession : List SessionState := [.encLoad, .encReady, .decAcc, .decDone]

/-- VCLR (R156). -/
def execVclr (s : State) : Host.Outcome State Fault Refusal :=
  guarded (sessionCheck anySession s) s <|
    finish .ok (storeVacc (List.replicate (symszOf s) 0) s)

/-- VADDMUL (R157). -/
def execVaddmul (coef : Nat) (s : State) : Host.Outcome State Fault Refusal :=
  guarded (sessionCheck anySession s) s <|
    if isElement (mOf s) coef then
      finish .ok (storeVacc (pack (mOf s) (vecAddMul (mOf s) (unpack (mOf s) (vaccSymbol s))
        (elemOf coef) (unpack (mOf s) (iobufSymbol s))) (symszOf s)) s)
    else raise .invalidOperand s

/-- VSCALE (R158). -/
def execVscale (coef : Nat) (s : State) : Host.Outcome State Fault Refusal :=
  guarded (sessionCheck anySession s) s <|
    if isElement (mOf s) coef then
      finish .ok (storeVacc (pack (mOf s) (vecMul (mOf s) (elemOf coef)
        (unpack (mOf s) (vaccSymbol s))) (symszOf s)) s)
    else raise .invalidOperand s

/-- VOUT (R159). -/
def execVout (s : State) : Host.Outcome State Fault Refusal :=
  guarded (sessionCheck anySession s) s <|
    finish .ok (s.setIobuf (s.iobuf.writeBytes 0 (vaccSymbol s)))

end Sys2Proof.Machine
end

