-- ==== Sys2Proof/Machine/Dispatch.lean ====
section
/-! DEFINITION. One arm per command, each one call of its meaning. -/

namespace Sys2Proof.Machine

def exec (i : Instr) (s : State) : Host.Outcome State Fault Refusal :=
  match i with
  | .nop => Sys2Proof.Machine.execNop s
  | .reset => Sys2Proof.Machine.execReset s
  | .initEnc m k n symsz => Sys2Proof.Machine.execInitEnc m k n symsz s
  | .put slot => Sys2Proof.Machine.execPut slot s
  | .encode => Sys2Proof.Machine.execEncode s
  | .get esi => Sys2Proof.Machine.execGet esi s
  | .initDec m k n symsz => Sys2Proof.Machine.execInitDec m k n symsz s
  | .accept esi => Sys2Proof.Machine.execAccept esi s
  | .getsrc j => Sys2Proof.Machine.execGetsrc j s
  | .dget row col => Sys2Proof.Machine.execDget row col s
  | .dpiv row => Sys2Proof.Machine.execDpiv row s
  | .seenq esi => Sys2Proof.Machine.execSeenq esi s
  | .gfadd m x y => Sys2Proof.Machine.execGfadd m x y s
  | .gfmul m x y => Sys2Proof.Machine.execGfmul m x y s
  | .gfinv m x => Sys2Proof.Machine.execGfinv m x s
  | .vclr => Sys2Proof.Machine.execVclr s
  | .vaddmul coef => Sys2Proof.Machine.execVaddmul coef s
  | .vscale coef => Sys2Proof.Machine.execVscale coef s
  | .vout => Sys2Proof.Machine.execVout s
  | .gget esi col => Sys2Proof.Machine.execGget esi col s

end Sys2Proof.Machine
end

