-- ==== Sys2Proof/Machine/Transact.lean ====
section
/-! DEFINITION. What the engine does with one host transaction (20_memory.md R60 to R63;
70_reset_and_hazards.md R320), and how a transaction is taken from the host's sequence. -/

namespace Sys2Proof.Machine

/-- Execute a command word: decode it, run the command, or refuse the word with ILLEGAL_COMMAND in every
STATE, FAULTED included (20_memory.md R63; 30_encoding.md R96; 60_exceptions.md R283). -/
def runCommand (w : CmdWord) (s : State) : Host.Outcome State Fault Refusal :=
  match decode w with
  | .ok i => exec i s
  | .error _ => raise .illegalCommand s

/-- The CMD transaction's response is the outcome that STATUS then holds (20_memory.md R63). -/
def answerCommand : Host.Outcome State Fault Refusal → Host.Outcome State Fault Refusal
  | .next s => .next (s.respond (.outcome s.status))
  | .fault r => .fault r
  | .refused r => .refused r

/-- Perform one transaction and give its response; a hardware reset has none (70_reset_and_hazards.md R321). -/
def transact (t : Transaction) (s : State) : Host.Outcome State Fault Refusal :=
  match t with
  | .cmd w => answerCommand (runCommand w s)
  | .regrd r => .next (doRegrd r s)
  | .bufwr o v => .next (doBufwr o v s)
  | .bufrd o => .next (doBufrd o s)
  | .hwReset => .next (toReset s)

/-- Take the oldest pending transaction and perform it; with none pending the engine is quiescent and
holds its state (60_exceptions.md R295; log 1). -/
def performNext (s : State) : Host.Outcome State Fault Refusal :=
  match s.pending with
  | [] => .next s
  | t :: ts => transact t (s.setPending ts)

/-- Put a transaction in front of the host's sequence. -/
def pushTransaction (t : Transaction) (s : State) : State := s.setPending (t :: s.pending)

end Sys2Proof.Machine
end

