-- ==== Sys2Proof/Machine/Step.lean ====
section
/-! DEFINITION. One step of the machine: one host transaction (10_state.md R20; 20_memory.md R71). -/

namespace Sys2Proof.Machine

/-- One step: the next transaction of the host's sequence, performed whole. -/
def step (s : State) : Host.Outcome State Fault Refusal := performNext s

/-- The state with the command word whose low `nbits` bits are those of `w` presented on the command port
as the next transaction, so that the very next step runs it (log 1). -/
def State.withFetchWord (s : State) (nbits w : Nat) : State :=
  pushTransaction (.cmd (BitVec.ofNat 128 (w % 2 ^ nbits))) s

end Sys2Proof.Machine
end

