-- ==== Sys2Proof/Safety.lean ====
section
/-! DEFINITION. What the claims speak of: the legality table of 60_exceptions.md R282 and the operand
causes of R281 written out from the spec's tables, the transitions of STATE (10_state.md R29), the
invariant of 10_state.md R31 and R45, the reduced row echelon form and the equations of
44_session_decode.md R244, and field elements as polynomials (40_field_arithmetic.md R120). -/

namespace Sys2Proof.Machine

/-! ### Outcomes that the state or the operands alone decide -/

/-- The legality table of 60_exceptions.md R282, row by row: the outcome with which a command ends in a
session state, nothing but STATUS changing; none where the table says that it goes on to its operand
checks. `full` says whether LOADED = K. ACCEPT in DEC_DONE goes on, since its range check comes first. -/
def legality (full : Bool) : Instr → SessionState → Option Status
  | .reset, _ => none
  | .nop, .faulted => some .error
  | .nop, _ => none
  | .initEnc _ _ _ _, .idle => none
  | .initEnc _ _ _ _, .faulted => some .error
  | .initEnc _ _ _ _, _ => some .alreadyInitialized
  | .initDec _ _ _ _, .idle => none
  | .initDec _ _ _ _, .faulted => some .error
  | .initDec _ _ _ _, _ => some .alreadyInitialized
  | .put _, .idle => some .notInitialized
  | .put _, .encLoad => none
  | .put _, .faulted => some .error
  | .put _, _ => some .badState
  | .encode, .idle => some .notInitialized
  | .encode, .encLoad => if full then none else some .badState
  | .encode, .encReady => some .ok
  | .encode, .faulted => some .error
  | .encode, _ => some .badState
  | .get _, .idle => some .notInitialized
  | .get _, .encReady => none
  | .get _, .faulted => some .error
  | .get _, _ => some .badState
  | .accept _, .idle => some .notInitialized
  | .accept _, .encLoad => some .badState
  | .accept _, .encReady => some .badState
  | .accept _, .faulted => some .error
  | .accept _, _ => none
  | .getsrc _, .idle => some .notInitialized
  | .getsrc _, .decDone => none
  | .getsrc _, .faulted => some .error
  | .getsrc _, _ => some .badState
  | .dget _ _, .idle => some .notInitialized
  | .dget _ _, .encLoad => some .badState
  | .dget _ _, .encReady => some .badState
  | .dget _ _, .faulted => some .error
  | .dget _ _, _ => none
  | .dpiv _, .idle => some .notInitialized
  | .dpiv _, .encLoad => some .badState
  | .dpiv _, .encReady => some .badState
  | .dpiv _, .faulted => some .error
  | .dpiv _, _ => none
  | .seenq _, .idle => some .notInitialized
  | .seenq _, .encLoad => some .badState
  | .seenq _, .encReady => some .badState
  | .seenq _, .faulted => some .error
  | .seenq _, _ => none
  | .gget _ _, .idle => some .notInitialized
  | .gget _ _, .faulted => some .error
  | .gget _ _, _ => none
  | .vclr, .idle => some .notInitialized
  | .vclr, .faulted => some .error
  | .vclr, _ => none
  | .vaddmul _, .idle => some .notInitialized
  | .vaddmul _, .faulted => some .error
  | .vaddmul _, _ => none
  | .vscale _, .idle => some .notInitialized
  | .vscale _, .faulted => some .error
  | .vscale _, _ => none
  | .vout, .idle => some .notInitialized
  | .vout, .faulted => some .error
  | .vout, _ => none
  | .gfadd _ _ _, .faulted => some .error
  | .gfadd _ _ _, _ => none
  | .gfmul _ _ _, .faulted => some .error
  | .gfmul _ _ _, _ => none
  | .gfinv _ _, .faulted => some .error
  | .gfinv _ _, _ => none

/-- The conditions of valid_params (43_session_encode.md R212). -/
abbrev ParamsAccepted (p : Params) (mf k n s : Nat) : Prop :=
  mf ∈ p.mSet ∧ 1 ≤ k ∧ k ≤ n ∧ 1 ≤ s ∧ n ≤ 2 ^ mf ∧ 8 * s % mf = 0 ∧ n ≤ p.nMax ∧ s ≤ p.symszMax

/-- The operand causes of 60_exceptions.md R281, in the order of R283: the outcome with which a command
that its state permits ends because of its operands; none where it executes. -/
def operandFailure (s : State) : Instr → Option Status
  | .initEnc m k n symsz => if ParamsAccepted s.inst m k n symsz then none else some .invalidParameters
  | .initDec m k n symsz => if ParamsAccepted s.inst m k n symsz then none else some .invalidParameters
  | .put slot => if slot ≥ s.k.toNat then some .invalidSymbolIndex else none
  | .get esi => if esi ≥ s.n.toNat then some .invalidSymbolIndex else none
  | .accept esi => if esi ≥ s.n.toNat then some .invalidSymbolIndex else none
  | .getsrc j => if j ≥ s.k.toNat then some .invalidSymbolIndex else none
  | .seenq esi => if esi ≥ s.n.toNat then some .invalidSymbolIndex else none
  | .gget esi col =>
    if esi ≥ s.n.toNat then some .invalidSymbolIndex
    else if col ≥ s.k.toNat then some .invalidOperand
    else none
  | .gfadd m x y => if m ∉ s.inst.mSet ∨ x ≥ 2 ^ m ∨ y ≥ 2 ^ m then some .invalidOperand else none
  | .gfmul m x y => if m ∉ s.inst.mSet ∨ x ≥ 2 ^ m ∨ y ≥ 2 ^ m then some .invalidOperand else none
  | .gfinv m x => if m ∉ s.inst.mSet ∨ x ≥ 2 ^ m ∨ x = 0 then some .invalidOperand else none
  | .vaddmul coef => if coef ≥ 2 ^ s.m.toNat then some .invalidOperand else none
  | .vscale coef => if coef ≥ 2 ^ s.m.toNat then some .invalidOperand else none
  | .dget row col => if row ≥ s.k.toNat ∨ col ≥ s.k.toNat then some .invalidOperand else none
  | .dpiv row => if row ≥ s.k.toNat then some .invalidOperand else none
  | .nop => none
  | .reset => none
  | .encode => none
  | .vclr => none
  | .vout => none

/-- The transitions of STATE that a command can make (10_state.md R29), staying included; RESET leads to
IDLE from every state. -/
def stateTransition : Instr → SessionState → SessionState → Bool
  | .reset, _, t => t == .idle
  | .initEnc _ _ _ _, .idle, t => t == .idle || t == .encLoad
  | .initDec _ _ _ _, .idle, t => t == .idle || t == .decAcc
  | .encode, .encLoad, t => t == .encLoad || t == .encReady || t == .faulted
  | .accept _, .decAcc, t => t == .decAcc || t == .decDone || t == .faulted
  | .gget _ _, s, t =>
    t == s || (t == .faulted && (s == .encLoad || s == .encReady || s == .decAcc || s == .decDone))
  | _, s, t => t == s

/-! ### The invariant of a run -/

/-- Every store is in canonical form. -/
abbrev Canonical (s : State) : Prop :=
  s.iobuf.wf = true ∧ s.vacc.wf = true ∧ symWf s.sym = true ∧ indexSetWf s.srcset = true ∧
    matrixWf s.d = true ∧ indexSetWf s.piv = true ∧ indexSetWf s.seen = true

/-- Every store stays inside the instance's and the session's bounds (10_state.md R36 to R42). -/
abbrev InBounds (s : State) : Prop :=
  (∀ x ∈ s.iobuf, x.1 < s.inst.symszMax) ∧ (∀ x ∈ s.vacc, x.1 < symszOf s) ∧
    (∀ x ∈ s.sym, x.1 < nOf s ∧ ∀ y ∈ x.2, y.1 < symszOf s) ∧ (∀ i ∈ s.srcset, i < kOf s) ∧
    (∀ x ∈ s.d, x.1 < kOf s ∧ ∀ y ∈ x.2, y.1 < kOf s ∧ y.2.toNat < 2 ^ mOf s) ∧
    (∀ i ∈ s.piv, i < kOf s) ∧ (∀ i ∈ s.seen, i < nOf s)

/-- What R31 and the table of R45 say of each session state, so far as it does not rest on the algebra of
the elimination. -/
abbrev SessionShape (s : State) : Prop :=
  (s.state = .idle → s.k = 0 ∧ s.n = 0 ∧ s.symsz = 0 ∧ s.m = 0 ∧ s.rank = 0) ∧
    (s.state ≠ .idle → ParamsAccepted s.inst (mOf s) (kOf s) (nOf s) (symszOf s)) ∧
    (s.state = .encLoad ∨ s.state = .encReady → s.seen = [] ∧ s.piv = [] ∧ s.d = [] ∧ s.rank = 0) ∧
    (s.state = .encLoad → ∀ x ∈ s.sym, x.1 ∈ s.srcset) ∧
    (s.state = .encReady → s.srcset.length = kOf s) ∧
    (s.state = .decAcc ∨ s.state = .decDone → s.srcset = [] ∧ ∀ x ∈ s.sym, x.1 < kOf s)

/-- The invariant that every step keeps: the parameters are an instance's, the stores are canonical and
inside their bounds, LOADED and RXCOUNT are the sizes of their sets (10_state.md R33, R34), and the
session has the shape of its state (10_state.md R31, R45). -/
abbrev RunInv (s : State) : Prop :=
  paramsOk s.inst = true ∧ Canonical s ∧ InBounds s ∧ s.loaded = BitVec.ofNat 32 s.srcset.length ∧
    s.rxcount = BitVec.ofNat 32 s.seen.length ∧ SessionShape s

/-- The stored rows are in reduced row echelon form, indexed by pivot column, and everything outside them
is zero (44_session_decode.md R244, items 1 and 2). -/
abbrev Echelon (s : State) : Prop :=
  (∀ x ∈ s.d, x.1 ∈ s.piv) ∧ (∀ x ∈ s.sym, x.1 ∈ s.piv) ∧
    ∀ p ∈ s.piv, matrixGet s.d p p = 1 ∧ (∀ q ∈ s.piv, q ≠ p → matrixGet s.d p q = 0) ∧
      ∀ c < p, matrixGet s.d p c = 0

/-- The invariant of a decode session: the echelon form, RANK the number of stored rows, at most as many
of them as ESIs seen, and K of them exactly in DEC_DONE (10_state.md R35; 44_session_decode.md R244). -/
abbrev DecodeInv (s : State) : Prop :=
  s.state = .decAcc ∨ s.state = .decDone →
    Echelon s ∧ s.rank = BitVec.ofNat 32 s.piv.length ∧ s.piv.length ≤ s.seen.length ∧
      (s.state = .decAcc → s.piv.length < kOf s) ∧ (s.state = .decDone → s.piv.length = kOf s)

/-- The reset state, element by element, as 10_state.md R46 lists it. -/
abbrev IsResetState (s : State) : Prop :=
  (s.state = .idle ∧ s.status = .ok ∧ s.k = 0 ∧ s.n = 0 ∧ s.symsz = 0 ∧ s.m = 0 ∧ s.res = 0 ∧
    s.loaded = 0 ∧ s.rxcount = 0 ∧ s.rank = 0) ∧
    (∀ o, s.iobuf.read o = 0) ∧ (∀ o, s.vacc.read o = 0) ∧ (∀ i o, (slotOf s.sym i).read o = 0) ∧
    (∀ r c, matrixGet s.d r c = 0) ∧ s.piv = [] ∧ s.seen = [] ∧ s.srcset = []

/-! ### Linear algebra -/

/-- The sum over j below k of `row j` times `x j` (44_session_decode.md R241). -/
def dot (m k : Nat) (row x : Nat → Elem) : Elem :=
  (List.range k).foldl (fun acc j => gfAdd acc (gfMul m (row j) (x j))) 0

/-- The product over the t below k other than j of `f t` (42_matrix_ops.md R187). -/
def productExcept (m k j : Nat) (f : Nat → Elem) : Elem :=
  ((List.range k).filter fun t => t != j).foldl (fun acc t => gfMul m acc (f t)) 1

/-- An m-bit value. -/
abbrev IsElem (m : Nat) (x : Elem) : Prop := x.toNat < 2 ^ m

/-- A matrix of the given shape over m-bit values (42_matrix_ops.md R180). -/
abbrev IsMatrix (m rows cols : Nat) (a : List (List Elem)) : Prop :=
  a.length = rows ∧ ∀ row ∈ a, row.length = cols ∧ ∀ e ∈ row, IsElem m e

/-- Every stored equation holds of the source symbols `x j`, lane by lane (44_session_decode.md R244,
item 4). -/
def EquationsHold (s : State) (x : Nat → Nat → Elem) : Prop :=
  ∀ p ∈ s.piv, ∀ t < elementCount (mOf s) (symszOf s),
    (unpack (mOf s) (slotSymbol s p)).getD t 0 =
      dot (mOf s) (kOf s) (fun j => matrixGet s.d p j) (fun j => x j t)

/-- The symbol in IOBUF, presented under an ESI, is the symbol of that ESI in the encoding of the source
symbols `x j` (44_session_decode.md R241). -/
def SymbolMatches (s : State) (esi : Nat) (x : Nat → Nat → Elem) : Prop :=
  ∀ row, genRow (mOf s) (kOf s) esi = some row →
    ∀ t < elementCount (mOf s) (symszOf s),
      (unpack (mOf s) (iobufSymbol s)).getD t 0 =
        dot (mOf s) (kOf s) (rowElem row) (fun j => x j t)

/-- Element j of the combination, with coefficients `c`, of the generator rows of a list of ESIs. -/
def combination (m k : Nat) (es : List Nat) (c : Nat → Elem) (j : Nat) : Elem :=
  es.foldl (fun acc e => gfAdd acc (gfMul m (c e) (rowElem ((genRow m k e).getD []) j))) 0

/-- In a decode session every symbol seen has raised the rank, and every stored row is a combination of
the generator rows of the ESIs seen (44_session_decode.md R244, item 3, and R253). -/
def SpanInv (s : State) : Prop :=
  s.state = .decAcc ∨ s.state = .decDone →
    s.piv.length = s.seen.length ∧
      ∀ p ∈ s.piv, ∃ c : Nat → Elem, (∀ e, IsElem (mOf s) (c e)) ∧
        ∀ j < kOf s, matrixGet s.d p j = combination (mOf s) (kOf s) s.seen c j

/-- A new equation (row and data) reduced by the stored rows of `s`, as step a of 44_session_decode.md R243
does: `row` is the generator row of the ESI, the data is the symbol in IOBUF. -/
def reducedSymbol (s : State) (row : List Elem) : Equation :=
  reduceEquation s (row, unpack (mOf s) (iobufSymbol s))

/-- The elimination state `t` is that of `s` with the reduced equation `r`, times `v`, stored at index q, and
column q cleared from the other stored rows (44_session_decode.md R243, steps c to e), said element by
element: each other stored row p, with its data, gains D[p][q] times the new one, and every other row and
slot is as before. -/
def RowInserted (s t : State) (q : Nat) (v : Elem) (r : Equation) : Prop :=
  (∀ p c, matrixGet t.d p c =
    if p = q ∧ c < kOf s then gfMul (mOf s) v (rowElem r.1 c)
    else if p ∈ s.piv ∧ p < kOf s ∧ c < kOf s then
      gfAdd (matrixGet s.d p c) (gfMul (mOf s) (matrixGet s.d p q) (gfMul (mOf s) v (rowElem r.1 c)))
    else matrixGet s.d p c) ∧
  ∀ p, ∀ l < elementCount (mOf s) (symszOf s), (unpack (mOf s) (slotSymbol t p)).getD l 0 =
    if p = q then gfMul (mOf s) v (r.2.getD l 0)
    else if p ∈ s.piv ∧ p < kOf s then
      gfAdd ((unpack (mOf s) (slotSymbol s p)).getD l 0)
        (gfMul (mOf s) (matrixGet s.d p q) (gfMul (mOf s) v (r.2.getD l 0)))
    else (unpack (mOf s) (slotSymbol s p)).getD l 0

/-- The polynomial over GF(2) that a value stands for: bit i is the coefficient of x^i
(40_field_arithmetic.md R120). -/
def Represents (v : Nat) (p : Polynomial (ZMod 2)) : Prop :=
  ∀ i, p.coeff i = if v.testBit i then 1 else 0

/-- The table POLY[m] of 40_field_arithmetic.md R121, for m from 1 to 16. -/
def polynomialTable : List Nat :=
  [0x3, 0x7, 0xB, 0x13, 0x25, 0x43, 0x89, 0x11D, 0x211, 0x409, 0x805, 0x1053, 0x201B, 0x4443, 0x8003,
    0x1100B]

end Sys2Proof.Machine
end

