-- ==== Sys2Proof/Certificates/Slice0/Obligations.lean ====
section
/-! DEFINITION. The statements for the provers, each from the rules of spec/ that its docstring names. -/

open Sys2Proof Sys2Proof.Machine

/-! ### Encoding -/

/-- 30_encoding.md R95, R101: the word of a well-formed command decodes to that command. -/
def Obligations.DecodeOfEncodedCommand : Prop :=
  ∀ i : Instr, i.wellFormed = true → decode (encode i) = .ok i

/-- 30_encoding.md R95: a word that decodes to a command is that command's word, and its operands fit
their fields; so two different words never decode to the same command. -/
def Obligations.EncodeOfDecodedWord : Prop :=
  ∀ (w : CmdWord) (i : Instr), decode w = .ok i → i.wellFormed = true ∧ encode i = w

/-- 30_encoding.md R92: a word is the command with an opcode exactly when its bits under the format's mask
are the opcode's match value; the six masks and the match value are the table's. (The opcode byte and the
format of each opcode are fixed by ExampleWordsDecode.) -/
def Obligations.CommandExactlyWhenMaskMatches : Prop :=
  (∀ (w : CmdWord) (o : Opcode), (∃ i, decode w = .ok i ∧ i.opcode = o) ↔
      w &&& formatMask (opcodeFormat o) = opcodeMatch o) ∧
    (∀ o, opcodeMatch o = (opcodeByte o).setWidth 128) ∧
    formatMask .z = 0xFFFFFFFF_FFFFFFFF_FFFFFFFF_FFFFFFFF ∧
    formatMask .a = 0xFFFFFFFF_FFFFFFFF_00000000_FFFFFFFF ∧
    formatMask .ab = 0xFFFFFFFF_00000000_00000000_FFFFFFFF ∧
    formatMask .ma = 0xFFFFFFFF_FFFFFFFF_00000000_FFFFE0FF ∧
    formatMask .mab = 0xFFFFFFFF_00000000_00000000_FFFFE0FF ∧
    formatMask .mabc = 0x00000000_00000000_00000000_FFFFE0FF

/-- 30_encoding.md R97: the all-zero word is NOP; the all-ones word is illegal, its opcode undefined. -/
def Obligations.ZeroWordNopOnesWordIllegal : Prop :=
  decode 0 = .ok .nop ∧ decode (BitVec.allOnes 128) = .error .undefinedOpcode

/-- 30_encoding.md R94 with R93 and R101: the opcode byte and the format of each of the twenty opcodes, and
for each command a word of the spec (95_test_vectors.md section 2.8) that decodes to it, its operands in
the fields of R93; and the word RESET with a non-zero mf, which is no command. -/
def Obligations.ExampleWordsDecode : Prop :=
  (∀ o : Opcode, (o, opcodeByte o, opcodeFormat o) ∈
    [(.nop, 0x00, .z), (.reset, 0x01, .z), (.initEnc, 0x10, .mabc), (.put, 0x11, .a), (.encode, 0x12, .z),
      (.get, 0x13, .a), (.initDec, 0x20, .mabc), (.accept, 0x21, .a), (.getsrc, 0x22, .a),
      (.dget, 0x23, .ab), (.dpiv, 0x24, .a), (.seenq, 0x25, .a), (.gfadd, 0x30, .mab),
      (.gfmul, 0x31, .mab), (.gfinv, 0x32, .ma), (.vclr, 0x40, .z), (.vaddmul, 0x41, .a),
      (.vscale, 0x42, .a), (.vout, 0x43, .z), (.gget, 0x50, .ab)]) ∧
  decode 0x00000000_00000000_00000000_00000000 = .ok .nop ∧
  decode 0x00000000_00000000_00000000_00000001 = .ok .reset ∧
  decode 0x00000004_00000004_00000002_00000810 = .ok (.initEnc 8 2 4 4) ∧
  decode 0x00000010_0000007E_0000003F_00000810 = .ok (.initEnc 8 63 126 16) ∧
  decode 0x00000000_00000000_00000001_00000011 = .ok (.put 1) ∧
  decode 0x00000000_00000000_00000000_00000012 = .ok .encode ∧
  decode 0x00000000_00000000_00000003_00000013 = .ok (.get 3) ∧
  decode 0x00000002_00000006_00000003_00000420 = .ok (.initDec 4 3 6 2) ∧
  decode 0x00000000_00000000_00000003_00000021 = .ok (.accept 3) ∧
  decode 0x00000000_00000000_00000001_00000022 = .ok (.getsrc 1) ∧
  decode 0x00000000_00000001_00000000_00000023 = .ok (.dget 0 1) ∧
  decode 0x00000000_00000000_00000001_00000024 = .ok (.dpiv 1) ∧
  decode 0x00000000_00000000_00000002_00000025 = .ok (.seenq 2) ∧
  decode 0x00000000_000000CA_00000053_00000830 = .ok (.gfadd 8 0x53 0xCA) ∧
  decode 0x00000000_000000CA_00000053_00000831 = .ok (.gfmul 8 0x53 0xCA) ∧
  decode 0x00000000_00000000_00001234_00001032 = .ok (.gfinv 16 0x1234) ∧
  decode 0x00000000_00000000_00000000_00000040 = .ok .vclr ∧
  decode 0x00000000_00000000_00000003_00000041 = .ok (.vaddmul 3) ∧
  decode 0x00000000_00000000_0000008E_00000042 = .ok (.vscale 0x8E) ∧
  decode 0x00000000_00000000_00000000_00000043 = .ok .vout ∧
  decode 0x00000000_00000002_00000004_00000050 = .ok (.gget 4 2) ∧
  decode 0x00000000_00000000_00000000_00000101 = .error .unusedMf

/-! ### Steps and transactions -/

/-- 20_memory.md R63: when the next transaction is a command word that decodes to i, the step is exec of i
at the state without that transaction, followed by the response, which is the outcome in STATUS. The
model's step and its two bookkeeping fields are log entries 1 and 2. -/
def Obligations.StepRunsDecodedCommand : Prop :=
  ∀ (s : State) (w : CmdWord) (ts : List Transaction) (i : Instr),
    s.pending = .cmd w :: ts → decode w = .ok i →
      ∃ t, exec i (s.setPending ts) = .next t ∧ step s = .next (t.respond (.outcome t.status))

/-- 30_encoding.md R96: a word that matches no opcode under its format's mask ends with ILLEGAL_COMMAND in
every state, and no other state changes. -/
def Obligations.IllegalWordChangesOnlyStatus : Prop :=
  ∀ (s : State) (w : CmdWord) (ts : List Transaction),
    s.pending = .cmd w :: ts → (∀ o, w &&& formatMask (opcodeFormat o) ≠ opcodeMatch o) →
      step s = .next (((s.setPending ts).setStatus .illegalCommand).respond (.outcome .illegalCommand))

/-- 60_exceptions.md R295 (between transactions the engine holds its state); that a step with nothing
pending is a next state is the model's choice, log entry 1. -/
def Obligations.QuiescentStepChangesNothing : Prop :=
  ∀ s : State, s.pending = [] → step s = .next s

/-- 70_reset_and_hazards.md R333: the step function is total, for every command and every transaction; that
a step with nothing pending is a next state too is the model's choice, log entry 1. -/
def Obligations.StepAlwaysAnswersNext : Prop :=
  (∀ (i : Instr) (s : State), ∃ t, exec i s = .next t) ∧ ∀ s : State, ∃ t, step s = .next t

/-- 70_reset_and_hazards.md R322: no command, RESET included, changes the instance parameters; and (log
entries 1 and 2) no command reads or writes the host's side. -/
def Obligations.CommandsKeepInstanceAndHostSide : Prop :=
  ∀ (i : Instr) (s t : State), exec i s = .next t →
    t.inst = s.inst ∧ t.pending = s.pending ∧ t.responses = s.responses

/-- 20_memory.md R60 with the numbering of 10_state.md R25: a register read answers the register's value for
numbers up to 12 and buserr above, and changes no state; and no transaction but a command or a reset writes
a register. Where the transaction and the response are held is log entries 1 and 2. -/
def Obligations.RegisterReadAnswersAndChangesNothing : Prop :=
  (∀ (s : State) (r : BitVec 8) (ts : List Transaction), s.pending = .regrd r :: ts →
    ∃ resp, step s = .next ((s.setPending ts).respond resp) ∧
      (r.toNat ≤ 12 → resp = .regValue
        ([capM s.inst, BitVec.ofNat 32 s.inst.nMax, BitVec.ofNat 32 s.inst.symszMax, stateCode s.state,
          statusCode s.status, s.k, s.n, s.symsz, s.m, s.res, s.loaded, s.rxcount, s.rank].getD
            r.toNat 0)) ∧
      (13 ≤ r.toNat → resp = .buserr)) ∧
  ∀ (s t : State) (x : Transaction) (ts : List Transaction), s.pending = x :: ts →
    (∀ w, x ≠ .cmd w) → x ≠ .hwReset → step s = .next t → ∀ r, regValue t r = regValue s r

/-- 10_state.md R26, R27, R28: the three CAP registers of every instance, constant, and their values with
the default parameters. -/
def Obligations.CapabilityRegistersShowParameters : Prop :=
  (∀ s : State, paramsOk s.inst = true →
    (∃ v, regValue s 0 = some v ∧ (∀ i, 1 ≤ i → i ≤ 16 → v.getLsbD i = decide (i ∈ s.inst.mSet)) ∧
      v.getLsbD 0 = false ∧ ∀ i, 17 ≤ i → v.getLsbD i = false) ∧
    (∃ v, regValue s 1 = some v ∧ v.toNat = s.inst.nMax) ∧
    (∃ v, regValue s 2 = some v ∧ v.toNat = s.inst.symszMax) ∧
    ∀ t, step s = .next t →
      regValue t 0 = regValue s 0 ∧ regValue t 1 = regValue s 1 ∧ regValue t 2 = regValue s 2) ∧
  regValue State.reset 0 = some 0x0001FFFE ∧ regValue State.reset 1 = some 0x00010000 ∧
    regValue State.reset 2 = some 0x0000FFFF

/-- 20_memory.md R61: a buffer write below SYMSZ_MAX writes that byte of IOBUF and nothing else, in every
STATE; at or beyond SYMSZ_MAX it is answered buserr and nothing is written. Where the transaction and
the response are held is log entries 1 and 2, the form of IOBUF log entry 4. -/
def Obligations.BufferWriteChangesOneByte : Prop :=
  ∀ (s : State) (o : BitVec 32) (v : Byte) (ts : List Transaction),
    s.pending = .bufwr o v :: ts → s.iobuf.wf = true →
      (o.toNat < s.inst.symszMax → ∃ mem : Memory, mem.wf = true ∧
        step s = .next (((s.setPending ts).setIobuf mem).respond .written) ∧
        ∀ a, mem.read a = if a = o.toNat then v else s.iobuf.read a) ∧
      (s.inst.symszMax ≤ o.toNat → step s = .next ((s.setPending ts).respond .buserr))

/-- 20_memory.md R62: a buffer read answers the byte, or buserr at or beyond SYMSZ_MAX, in every STATE, and
changes no state. Where the transaction and the response are held is log entries 1 and 2. -/
def Obligations.BufferReadAnswersAndChangesNothing : Prop :=
  ∀ (s : State) (o : BitVec 32) (ts : List Transaction), s.pending = .bufrd o :: ts →
    (o.toNat < s.inst.symszMax →
      step s = .next ((s.setPending ts).respond (.byteValue (s.iobuf.read o.toNat)))) ∧
    (s.inst.symszMax ≤ o.toNat → step s = .next ((s.setPending ts).respond .buserr))

/-- 10_state.md R46: after a hardware reset, and after a RESET command in any state, every element of state
has its reset value and the CAP registers keep their constants; State.reset is such a state. That a reset
keeps the host's lists, and that a hardware reset is an entry of the host's sequence and is not answered, is
the model's choice, log entries 1, 2 and 5. -/
def Obligations.ResetGivesResetState : Prop :=
  (∀ s : State, ∃ t, exec .reset s = .next t ∧ IsResetState t ∧
    (∀ r : BitVec 8, r.toNat ≤ 2 → regValue t r = regValue s r) ∧
    t.inst = s.inst ∧ t.pending = s.pending ∧ t.responses = s.responses) ∧
  (∀ (s : State) (ts : List Transaction), s.pending = .hwReset :: ts → ∃ t, step s = .next t ∧
    IsResetState t ∧ (∀ r : BitVec 8, r.toNat ≤ 2 → regValue t r = regValue s r) ∧
    t.inst = s.inst ∧ t.pending = ts ∧ t.responses = s.responses) ∧
  IsResetState State.reset

/-! ### Outcomes -/

/-- 60_exceptions.md R282: where the legality table gives a code for a command in the current STATE, the
command ends with that outcome and only STATUS changes. -/
def Obligations.LegalityTableDecidesOutcome : Prop :=
  ∀ (i : Instr) (s : State) (o : Status), legality (decide (s.loaded = s.k)) i s.state = some o →
    exec i s = .next (s.setStatus o)

/-- 60_exceptions.md R281 and R283: a command that its STATE permits and whose operands fail a check ends
with that check's outcome and only STATUS changes. -/
def Obligations.OperandCheckDecidesOutcome : Prop :=
  ∀ (i : Instr) (s : State) (o : Status), legality (decide (s.loaded = s.k)) i s.state = none →
    operandFailure s i = some o → exec i s = .next (s.setStatus o)

/-- 60_exceptions.md R284: a command word that ends with a caller error, or with ERROR because the engine
is FAULTED, changes only STATUS; so do the successful no-ops. -/
def Obligations.FailingCommandChangesOnlyStatus : Prop :=
  (∀ (w : CmdWord) (s t : State), runCommand w s = .next t →
    statusCallerError t.status = true ∨ (s.state = .faulted ∧ t.status = .error) →
      t = s.setStatus t.status) ∧
  (∀ (s : State) (esi : Nat), s.state = .decAcc → esi < nOf s → esi ∈ s.seen →
    exec (.accept esi) s = .next (s.setStatus .incomplete)) ∧
  (∀ (s : State) (esi : Nat), s.state = .decDone → esi < nOf s →
    exec (.accept esi) s = .next (s.setStatus .complete)) ∧
  ∀ s : State, s.state = .encReady → exec .encode s = .next (s.setStatus .ok)

/-- 10_state.md R29: no command makes a transition of STATE that the rule does not list. -/
def Obligations.OnlyListedStateTransitions : Prop :=
  ∀ (i : Instr) (s t : State), exec i s = .next t → stateTransition i s.state t.state = true

/-- 60_exceptions.md R285: the internal fault is entered only by ENCODE, GGET and ACCEPT, only where the
generator's Vandermonde matrix is singular, with STATUS ERROR, and keeps all else but what ACCEPT wrote to
SEEN and RXCOUNT. No run meets the fault (FaultedNeverEntered); the states that do hold a K above 2^M or an M
without a field, where the generator is the model's choice, log entries 7 and 18. -/
def Obligations.InternalFaultKeepsTheRest : Prop :=
  ∀ (i : Instr) (s t : State), exec i s = .next t → t.state = .faulted → s.state ≠ .faulted →
    gen (mOf s) (kOf s) (nOf s) = none ∧
    (((i = .encode ∧ s.state = .encLoad) ∨ ∃ a b, i = .gget a b) ∧
        t = (s.setState .faulted).setStatus .error ∨
      ∃ e, i = .accept e ∧ s.state = .decAcc ∧ (∀ a, a ∈ t.seen ↔ a = e ∨ a ∈ s.seen) ∧
        t.rxcount = BitVec.ofNat 32 t.seen.length ∧
        t = { s with seen := t.seen, rxcount := t.rxcount, state := .faulted, status := .error })

/-- 10_state.md R25: each register is written only by the commands its row of the table lists (STATE also
by the internal fault, which GGET can meet). -/
def Obligations.RegistersWrittenOnlyByListedCommands : Prop :=
  ∀ (i : Instr) (s t : State), exec i s = .next t →
    (t.state ≠ s.state → i.opcode ∈ [Opcode.initEnc, .initDec, .encode, .accept, .reset, .gget]) ∧
    (t.k ≠ s.k ∨ t.n ≠ s.n ∨ t.symsz ≠ s.symsz ∨ t.m ≠ s.m →
      i.opcode ∈ [Opcode.initEnc, .initDec, .reset]) ∧
    (t.res ≠ s.res → i.opcode ∈ [Opcode.gfadd, .gfmul, .gfinv, .gget, .dget, .dpiv, .seenq, .reset]) ∧
    (t.loaded ≠ s.loaded → i.opcode ∈ [Opcode.initEnc, .put, .reset]) ∧
    (t.rxcount ≠ s.rxcount → i.opcode ∈ [Opcode.initDec, .accept, .reset]) ∧
    (t.rank ≠ s.rank → i.opcode ∈ [Opcode.initDec, .accept, .reset])

/-- 10_state.md R36, R37: IOBUF is written only by GET, GETSRC, VOUT and RESET, VACC only by VCLR, VADDMUL,
VSCALE and RESET, and none but RESET touches a byte at or beyond SYMSZ. -/
def Obligations.BuffersWrittenOnlyByListedCommands : Prop :=
  ∀ (i : Instr) (s t : State), exec i s = .next t → i ≠ .reset → s.iobuf.wf = true → s.vacc.wf = true →
    (i.opcode ∉ [Opcode.get, .getsrc, .vout] → t.iobuf = s.iobuf) ∧
    (i.opcode ∉ [Opcode.vclr, .vaddmul, .vscale] → t.vacc = s.vacc) ∧
    ∀ o, symszOf s ≤ o → t.iobuf.read o = s.iobuf.read o ∧ t.vacc.read o = s.vacc.read o

/-! ### Control and the encode session -/

/-- 43_session_encode.md R210: NOP completes in every state but FAULTED and writes STATUS only. -/
def Obligations.NopCompletes : Prop :=
  ∀ s : State, s.state ≠ .faulted → exec .nop s = .next (s.setStatus .ok)

/-- 43_session_encode.md R213: INIT_ENC in IDLE with valid parameters latches them, clears SYM and SRCSET,
and opens the encode session; IOBUF, VACC, RES and all else keep their values. -/
def Obligations.InitEncOpensSession : Prop :=
  ∀ (s : State) (m k n z : Nat), s.state = .idle → paramsOk s.inst = true →
    ParamsAccepted s.inst m k n z →
      ∃ t, exec (.initEnc m k n z) s = .next t ∧
        t.m.toNat = m ∧ t.k.toNat = k ∧ t.n.toNat = n ∧ t.symsz.toNat = z ∧
        (∀ i o, (slotOf t.sym i).read o = 0) ∧
        t = { s with m := t.m, k := t.k, n := t.n, symsz := t.symsz, sym := t.sym, srcset := [],
                     loaded := 0, state := .encLoad, status := .ok }

/-- 43_session_encode.md R214: PUT in ENC_LOAD copies the symbol in IOBUF into its slot, leaves every other
byte of the symbol store, adds the slot to SRCSET and sets LOADED to SRCSET's size. -/
def Obligations.PutStoresSymbol : Prop :=
  ∀ (s : State) (slot : Nat), s.state = .encLoad → slot < kOf s → symWf s.sym = true →
    indexSetWf s.srcset = true →
      ∃ t, exec (.put slot) s = .next t ∧
        (∀ i o, (slotOf t.sym i).read o =
          if i = slot ∧ o < symszOf s then s.iobuf.read o else (slotOf s.sym i).read o) ∧
        (∀ j, j ∈ t.srcset ↔ j = slot ∨ j ∈ s.srcset) ∧
        t.srcset.length = s.srcset.length + (if slot ∈ s.srcset then 0 else 1) ∧
        t.loaded = BitVec.ofNat 32 t.srcset.length ∧
        t = { s with sym := t.sym, srcset := t.srcset, loaded := t.loaded, status := .ok }

/-- 43_session_encode.md R215 and R217: ENCODE with every source slot loaded makes each repair symbol, lane
by lane, the generator row's combination of the source symbols, and leaves every other byte. -/
def Obligations.EncodeComputesRepairSymbols : Prop :=
  ∀ (s : State) (g : List (List Elem)), s.state = .encLoad → s.loaded = s.k → paramsOk s.inst = true →
    ParamsAccepted s.inst (mOf s) (kOf s) (nOf s) (symszOf s) → symWf s.sym = true →
    gen (mOf s) (kOf s) (nOf s) = some g →
      ∃ t, exec .encode s = .next t ∧
        t = { s with sym := t.sym, state := .encReady, status := .ok } ∧
        (∀ i o, i < kOf s ∨ nOf s ≤ i ∨ symszOf s ≤ o →
          (slotOf t.sym i).read o = (slotOf s.sym i).read o) ∧
        ∀ i, kOf s ≤ i → i < nOf s → ∀ l < elementCount (mOf s) (symszOf s),
          (unpack (mOf s) (slotSymbol t i)).getD l 0 =
            dot (mOf s) (kOf s) (rowElem (g.getD i []))
              (fun j => (unpack (mOf s) (slotSymbol s j)).getD l 0)

/-- 43_session_encode.md R216 and 44_session_decode.md R249: GET in ENC_READY and GETSRC in DEC_DONE copy
the slot's symbol into IOBUF, leave IOBUF's bytes at or beyond SYMSZ, and change nothing else. -/
def Obligations.GetAndGetsrcCopySymbol : Prop :=
  (∀ (s : State) (esi : Nat), s.state = .encReady → esi < nOf s → s.iobuf.wf = true →
    ∃ t, exec (.get esi) s = .next t ∧
      (∀ o, t.iobuf.read o = if o < symszOf s then (slotOf s.sym esi).read o else s.iobuf.read o) ∧
      t = { s with iobuf := t.iobuf, status := .ok }) ∧
  ∀ (s : State) (j : Nat), s.state = .decDone → j < kOf s → s.iobuf.wf = true →
    ∃ t, exec (.getsrc j) s = .next t ∧
      (∀ o, t.iobuf.read o = if o < symszOf s then (slotOf s.sym j).read o else s.iobuf.read o) ∧
      t = { s with iobuf := t.iobuf, status := .ok }

/-! ### The decode session -/

/-- 44_session_decode.md R240: INIT_DEC in IDLE with valid parameters latches them, clears SYM, D, PIV and
SEEN, and opens the decode session; all else keeps its value. -/
def Obligations.InitDecOpensSession : Prop :=
  ∀ (s : State) (m k n z : Nat), s.state = .idle → paramsOk s.inst = true →
    ParamsAccepted s.inst m k n z →
      ∃ t, exec (.initDec m k n z) s = .next t ∧
        t.m.toNat = m ∧ t.k.toNat = k ∧ t.n.toNat = n ∧ t.symsz.toNat = z ∧
        (∀ i o, (slotOf t.sym i).read o = 0) ∧ (∀ r c, matrixGet t.d r c = 0) ∧
        t = { s with m := t.m, k := t.k, n := t.n, symsz := t.symsz, sym := t.sym, d := t.d, piv := [],
                     rank := 0, seen := [], rxcount := 0, state := .decAcc, status := .ok }

/-- 44_session_decode.md R242, R243: ACCEPT of a new in-range ESI in DEC_ACC counts it in SEEN and RXCOUNT.
Where the reduced row is zero, D, PIV, SYM and RANK stay. Where its leading column is q, row q of D and slot q
get the reduced row and data times the inverse of element q, PIV gets q and no other index, RANK rises by one,
column q is cleared from the other stored rows, and no other row or slot changes. It completes exactly when
RANK reaches K, touches only the first SYMSZ bytes of slots below K, and changes nothing else. Each clause
with the premise RunInv, or RunInv and DecodeInv, holds in every state of a run; what the reduction gives in
other states can rest on log entries 7, 18, 19 and 20. -/
def Obligations.AcceptNewSymbol : Prop :=
  ∀ (s : State) (esi : Nat) (row : List Elem), s.state = .decAcc → esi < nOf s → esi ∉ s.seen →
    indexSetWf s.seen = true → symWf s.sym = true →
    genRow (mOf s) (kOf s) esi = some row →
      ∃ t, exec (.accept esi) s = .next t ∧
        (∀ e, e ∈ t.seen ↔ e = esi ∨ e ∈ s.seen) ∧ t.seen.length = s.seen.length + 1 ∧
        t.rxcount = BitVec.ofNat 32 t.seen.length ∧
        (leadingColumn (reducedSymbol s row).1 = none →
          t.d = s.d ∧ t.piv = s.piv ∧ t.sym = s.sym ∧ t.rank = s.rank) ∧
        (∀ q, leadingColumn (reducedSymbol s row).1 = some q →
          q < kOf s ∧ t.rank = s.rank + 1 ∧ (∀ p, p ∈ t.piv ↔ p = q ∨ p ∈ s.piv) ∧
          (∀ i o, i ≠ q → i ∉ s.piv → (slotOf t.sym i).read o = (slotOf s.sym i).read o) ∧
          ∃ v, gfInv (mOf s) (rowElem (reducedSymbol s row).1 q) = some v ∧
            (RunInv s → RowInserted s t q v (reducedSymbol s row)) ∧
            (RunInv s → DecodeInv s → q ∉ s.piv)) ∧
        (∀ i o, kOf s ≤ i ∨ symszOf s ≤ o → (slotOf t.sym i).read o = (slotOf s.sym i).read o) ∧
        (if t.rank = s.k then t.state = .decDone ∧ t.status = .complete
          else t.state = .decAcc ∧ t.status = .incomplete) ∧
        t = { s with seen := t.seen, rxcount := t.rxcount, d := t.d, piv := t.piv, sym := t.sym,
                     rank := t.rank, state := t.state, status := t.status }

/-- 44_session_decode.md R250, R251, R252: DGET, DPIV and SEENQ in a decode session put the element or the
flag into RES and change nothing but RES and STATUS. -/
def Obligations.DecodeQueriesReadState : Prop :=
  ∀ s : State, s.state = .decAcc ∨ s.state = .decDone →
    (∀ row col, row < kOf s → col < kOf s → exec (.dget row col) s =
      .next { s with res := (matrixGet s.d row col).setWidth 32, status := .ok }) ∧
    (∀ row, row < kOf s → exec (.dpiv row) s =
      .next { s with res := if row ∈ s.piv then 1 else 0, status := .ok }) ∧
    ∀ esi, esi < nOf s → exec (.seenq esi) s =
      .next { s with res := if esi ∈ s.seen then 1 else 0, status := .ok }

/-- 44_session_decode.md R248: in DEC_DONE no command but RESET changes the session's data, parameters or
counters, nor STATE but for the internal fault of GGET; ACCEPT of an in-range ESI answers COMPLETE. -/
def Obligations.DecodeDoneIsTerminal : Prop :=
  ∀ (i : Instr) (s t : State), s.state = .decDone → i ≠ .reset → exec i s = .next t →
    (t.d = s.d ∧ t.piv = s.piv ∧ t.sym = s.sym ∧ t.seen = s.seen ∧ t.rxcount = s.rxcount ∧
      t.rank = s.rank ∧ t.k = s.k ∧ t.n = s.n ∧ t.symsz = s.symsz ∧ t.m = s.m) ∧
    (t.state = .decDone ∨
      (t.state = .faulted ∧ i.opcode = .gget ∧ gen (mOf s) (kOf s) (nOf s) = none)) ∧
    ∀ esi, i = .accept esi → esi < nOf s → t.status = .complete

/-! ### The scalar and vector commands -/

/-- 40_field_arithmetic.md R128: GFADD with operands in range puts their exclusive or into RES, in every
state but FAULTED, and changes nothing but RES and STATUS. -/
def Obligations.GfaddComputesSum : Prop :=
  ∀ (s : State) (m x y : Nat), s.state ≠ .faulted → paramsOk s.inst = true → m ∈ s.inst.mSet →
    x < 2 ^ m → y < 2 ^ m →
      exec (.gfadd m x y) s = .next { s with res := BitVec.ofNat 32 (x ^^^ y), status := .ok }

/-- 40_field_arithmetic.md R120, R121, R123, R129: GFMUL puts into RES the m-bit value that stands for the
product of the operands' polynomials modulo P_m, and changes nothing but RES and STATUS. -/
def Obligations.GfmulComputesPolynomialProduct : Prop :=
  ∀ (s : State) (m x y : Nat), s.state ≠ .faulted → paramsOk s.inst = true → m ∈ s.inst.mSet →
    x < 2 ^ m → y < 2 ^ m →
      ∃ r < 2 ^ m,
        exec (.gfmul m x y) s = .next { s with res := BitVec.ofNat 32 r, status := .ok } ∧
        ∃ px py pr pm q : Polynomial (ZMod 2), Represents x px ∧ Represents y py ∧ Represents r pr ∧
          Represents (polynomialTable.getD (m - 1) 0) pm ∧ px * py = pr + q * pm

/-- 40_field_arithmetic.md R125, R130: GFINV of a non-zero element puts into RES the unique element whose
product with it is 1, and changes nothing but RES and STATUS. -/
def Obligations.GfinvComputesInverse : Prop :=
  ∀ (s : State) (m x : Nat), s.state ≠ .faulted → paramsOk s.inst = true → m ∈ s.inst.mSet →
    x < 2 ^ m → x ≠ 0 →
      ∃ r : Elem, IsElem m r ∧
        exec (.gfinv m x) s = .next { s with res := r.setWidth 32, status := .ok } ∧
        gfMul m (BitVec.ofNat 16 x) r = 1 ∧
        ∀ y : Elem, IsElem m y → gfMul m (BitVec.ofNat 16 x) y = 1 → y = r

/-- 41_vector_ops.md R156: VCLR in a session clears the first SYMSZ bytes of VACC and nothing else. -/
def Obligations.VclrClearsAccumulator : Prop :=
  ∀ s : State, s.state ≠ .idle → s.state ≠ .faulted → s.vacc.wf = true →
    ∃ t, exec .vclr s = .next t ∧
      (∀ o, t.vacc.read o = if o < symszOf s then 0 else s.vacc.read o) ∧
      t = { s with vacc := t.vacc, status := .ok }

/-- 41_vector_ops.md R157: VADDMUL in a session adds, lane by lane, the coefficient times IOBUF's symbol to
VACC's, leaves VACC's bytes at or beyond SYMSZ, and changes nothing else. -/
def Obligations.VaddmulAccumulatesLanes : Prop :=
  ∀ (s : State) (coef : Nat), s.state ≠ .idle → s.state ≠ .faulted → coef < 2 ^ mOf s →
    1 ≤ mOf s → mOf s ≤ 16 → 8 * symszOf s % mOf s = 0 → s.vacc.wf = true →
      ∃ t, exec (.vaddmul coef) s = .next t ∧
        t = { s with vacc := t.vacc, status := .ok } ∧
        (∀ o, symszOf s ≤ o → t.vacc.read o = s.vacc.read o) ∧
        ∀ l < elementCount (mOf s) (symszOf s),
          (unpack (mOf s) (vaccSymbol t)).getD l 0 =
            gfAdd ((unpack (mOf s) (vaccSymbol s)).getD l 0)
              (gfMul (mOf s) (BitVec.ofNat 16 coef) ((unpack (mOf s) (iobufSymbol s)).getD l 0))

/-- 41_vector_ops.md R157: the same VADDMUL issued twice restores VACC, and with it the whole state but
STATUS. -/
def Obligations.VaddmulTwiceRestores : Prop :=
  ∀ (s : State) (coef : Nat), s.state ≠ .idle → s.state ≠ .faulted → coef < 2 ^ mOf s →
    1 ≤ mOf s → mOf s ≤ 16 → 8 * symszOf s % mOf s = 0 → s.vacc.wf = true →
      ∃ t, exec (.vaddmul coef) s = .next t ∧ exec (.vaddmul coef) t = .next (s.setStatus .ok)

/-- 41_vector_ops.md R158: VSCALE in a session multiplies VACC's symbol, lane by lane, by the coefficient,
leaves VACC's bytes at or beyond SYMSZ, and changes nothing else. -/
def Obligations.VscaleMultipliesLanes : Prop :=
  ∀ (s : State) (coef : Nat), s.state ≠ .idle → s.state ≠ .faulted → coef < 2 ^ mOf s →
    1 ≤ mOf s → mOf s ≤ 16 → 8 * symszOf s % mOf s = 0 → s.vacc.wf = true →
      ∃ t, exec (.vscale coef) s = .next t ∧
        t = { s with vacc := t.vacc, status := .ok } ∧
        (∀ o, symszOf s ≤ o → t.vacc.read o = s.vacc.read o) ∧
        ∀ l < elementCount (mOf s) (symszOf s),
          (unpack (mOf s) (vaccSymbol t)).getD l 0 =
            gfMul (mOf s) (BitVec.ofNat 16 coef) ((unpack (mOf s) (vaccSymbol s)).getD l 0)

/-- 41_vector_ops.md R159: VOUT in a session copies VACC's symbol into IOBUF, leaves IOBUF's bytes at or
beyond SYMSZ, and changes nothing else. -/
def Obligations.VoutCopiesAccumulator : Prop :=
  ∀ s : State, s.state ≠ .idle → s.state ≠ .faulted → s.iobuf.wf = true →
    ∃ t, exec .vout s = .next t ∧
      (∀ o, t.iobuf.read o = if o < symszOf s then s.vacc.read o else s.iobuf.read o) ∧
      t = { s with iobuf := t.iobuf, status := .ok }

/-- 42_matrix_ops.md R189: GGET in a session puts entry (esi, col) of gen(M, K, N) into RES and changes
nothing but RES and STATUS. -/
def Obligations.GgetReadsGeneratorEntry : Prop :=
  ∀ (s : State) (esi col : Nat) (g : List (List Elem)), s.state ≠ .idle → s.state ≠ .faulted →
    esi < nOf s → col < kOf s → gen (mOf s) (kOf s) (nOf s) = some g →
      exec (.gget esi col) s =
        .next { s with res := (rowElem (g.getD esi []) col).setWidth 32, status := .ok }

/-! ### The field -/

/-- 40_field_arithmetic.md R127, laws 1 to 4, for the m-bit values of every m from 1 to 16. -/
def Obligations.FieldLaws : Prop :=
  ∀ (m : Nat) (x y z : Elem), 1 ≤ m → m ≤ 16 → IsElem m x → IsElem m y → IsElem m z →
    IsElem m (gfAdd x y) ∧ gfAdd x x = 0 ∧ gfAdd x y = gfAdd y x ∧
      gfAdd (gfAdd x y) z = gfAdd x (gfAdd y z) ∧ IsElem m (gfMul m x y) ∧ gfMul m x y = gfMul m y x ∧
      gfMul m (gfMul m x y) z = gfMul m x (gfMul m y z) ∧
      gfMul m x (gfAdd y z) = gfAdd (gfMul m x y) (gfMul m x z) ∧
      gfMul m 0 x = 0 ∧ gfMul m 1 x = x

/-- 40_field_arithmetic.md R125 and R127, laws 5 and 6: no zero divisors, and the inverse of a non-zero
element, which is its power 2^m - 2. At 0, where R125 assigns no value, gfInv answers none (log entry 6). -/
def Obligations.FieldInverses : Prop :=
  ∀ (m : Nat) (x y : Elem), 1 ≤ m → m ≤ 16 → IsElem m x → IsElem m y →
    (gfMul m x y = 0 ↔ x = 0 ∨ y = 0) ∧ gfInv m 1 = some 1 ∧ gfInv m 0 = none ∧
      (x ≠ 0 → gfPow m x (2 ^ m - 1) = 1 ∧ ∃ v, gfInv m x = some v ∧ IsElem m v ∧
        v = gfPow m x (2 ^ m - 2) ∧ gfMul m x v = 1 ∧ gfInv m v = some x)

/-- 42_matrix_ops.md R181 (resting on 40_field_arithmetic.md R126): the 2^m evaluation points are pairwise
distinct. -/
def Obligations.EvaluationPointsDistinct : Prop :=
  ∀ m r r' : Nat, 1 ≤ m → m ≤ 16 → r < r' → r' < 2 ^ m → point m r ≠ point m r'

/-! ### Symbols as vectors -/

/-- 41_vector_ops.md R151: unpack gives L = 8S/m elements, and bit t of element j is bit (m*j + t) mod 8 of
byte (m*j + t) / 8; bits at or above m are 0. -/
def Obligations.UnpackTakesBitsInOrder : Prop :=
  ∀ (m : Nat) (s : List Byte), 1 ≤ m → m ≤ 16 → 8 * s.length % m = 0 →
    (unpack m s).length = 8 * s.length / m ∧
      ∀ j < 8 * s.length / m, ∀ t < 16,
        ((unpack m s).getD j 0).getLsbD t =
          if t < m then (s.getD ((m * j + t) / 8) 0).getLsbD ((m * j + t) % 8) else false

/-- 41_vector_ops.md R152: pack and unpack are inverse bijections. -/
def Obligations.PackAndUnpackInverse : Prop :=
  ∀ (m size : Nat), 1 ≤ m → m ≤ 16 → 8 * size % m = 0 →
    (∀ s : List Byte, s.length = size → pack m (unpack m s) size = s) ∧
      ∀ e : List Elem, e.length = 8 * size / m → (∀ x ∈ e, IsElem m x) → unpack m (pack m e size) = e

/-- 41_vector_ops.md R153: vec_add adds lane by lane, and on packed symbols it is the bytewise exclusive or,
for every m. -/
def Obligations.VecAddIsBytewiseXor : Prop :=
  (∀ (u v : List Elem), u.length = v.length → (vecAdd u v).length = u.length ∧
    ∀ j < u.length, (vecAdd u v).getD j 0 = gfAdd (u.getD j 0) (v.getD j 0)) ∧
  ∀ (m : Nat) (a b : List Byte), 1 ≤ m → m ≤ 16 → a.length = b.length → 8 * a.length % m = 0 →
    pack m (vecAdd (unpack m a) (unpack m b)) a.length = List.zipWith (· ^^^ ·) a b

/-- 41_vector_ops.md R160: vec_mul is linear in the vector and in the coefficient, and a product of
coefficients is two multiplications. -/
def Obligations.VectorMultiplyLinear : Prop :=
  ∀ (m : Nat) (c e : Elem) (u v : List Elem), 1 ≤ m → m ≤ 16 → IsElem m c → IsElem m e →
    u.length = v.length → (∀ x ∈ u, IsElem m x) → (∀ x ∈ v, IsElem m x) →
      vecMul m c (vecAdd u v) = vecAdd (vecMul m c u) (vecMul m c v) ∧
      vecMul m (gfAdd c e) v = vecAdd (vecMul m c v) (vecMul m e v) ∧
      vecMul m c (vecMul m e v) = vecMul m (gfMul m c e) v

/-! ### Matrices and the generator -/

/-- 42_matrix_ops.md R184: mat_inv gives the two-sided inverse of a k by k matrix, or singular where no
inverse exists. -/
def Obligations.MatInvInvertsOrSingular : Prop :=
  ∀ (m k : Nat) (a : List (List Elem)), 1 ≤ m → m ≤ 16 → IsMatrix m k k a →
    (∀ u, matInv m a = some u → IsMatrix m k k u ∧ matMul m k a u = identityMatrix k ∧
      matMul m k u a = identityMatrix k) ∧
    (matInv m a = none → ∀ u, IsMatrix m k k u → matMul m k a u ≠ identityMatrix k)

/-- 42_matrix_ops.md R186, property 1: the generator exists for every admissible (m, k, n): the Vandermonde
matrix is never singular. -/
def Obligations.GeneratorNeverSingular : Prop :=
  ∀ m k n : Nat, 1 ≤ m → m ≤ 16 → 1 ≤ k → k ≤ n → n ≤ 2 ^ m →
    ∃ g, gen m k n = some g ∧ IsMatrix m n k g

/-- 42_matrix_ops.md R186, property 2: the first k rows of the generator are the identity. -/
def Obligations.GeneratorSystematic : Prop :=
  ∀ (m k n : Nat) (g : List (List Elem)), 1 ≤ m → m ≤ 16 → 1 ≤ k → k ≤ n → n ≤ 2 ^ m →
    gen m k n = some g → ∀ e < k, g.getD e [] = identityRow k e

/-- 42_matrix_ops.md R187: the generator's entries are the values of the Lagrange basis polynomials at the
evaluation points, with the denominators multiplied out. -/
def Obligations.GeneratorIsLagrange : Prop :=
  ∀ (m k n : Nat) (g : List (List Elem)), 1 ≤ m → m ≤ 16 → 1 ≤ k → k ≤ n → n ≤ 2 ^ m →
    gen m k n = some g → ∀ e < n, ∀ j < k,
      gfMul m (rowElem (g.getD e []) j)
          (productExcept m k j fun t => gfAdd (point m j) (point m t)) =
        productExcept m k j fun t => gfAdd (point m e) (point m t)

/-- 42_matrix_ops.md R186, property 3: every k distinct rows of the generator are independent, so the matrix
of them has an inverse. -/
def Obligations.AnyRowsOfGeneratorIndependent : Prop :=
  ∀ (m k n : Nat) (g : List (List Elem)) (es : List Nat), 1 ≤ m → m ≤ 16 → 1 ≤ k → k ≤ n → n ≤ 2 ^ m →
    gen m k n = some g → es.length = k → es.Nodup → (∀ e ∈ es, e < n) →
      ∃ u, matInv m (es.map fun e => g.getD e []) = some u

/-! ### Invariants -/

/-- 10_state.md R46 with R45 and 44_session_decode.md R244: the reset state of every instance satisfies the
invariants. -/
def Obligations.InvariantsHoldAtReset : Prop :=
  (∀ p : Params, paramsOk p = true →
    RunInv (State.resetOf p) ∧ DecodeInv (State.resetOf p) ∧ SpanInv (State.resetOf p)) ∧
    RunInv State.reset ∧ DecodeInv State.reset ∧ SpanInv State.reset

/-- 10_state.md R31, R33, R34, R45: every step keeps the invariant: instance parameters, canonical stores
inside their bounds, LOADED and RXCOUNT the sizes of their sets, and the shape of each session state. -/
def Obligations.StepKeepsInvariant : Prop :=
  ∀ s t : State, RunInv s → step s = .next t → RunInv t

/-- 44_session_decode.md R244 (items 1 and 2), 10_state.md R35: every step keeps the stored rows in reduced
row echelon form, RANK their number, and RANK = K exactly in DEC_DONE. -/
def Obligations.StepKeepsEchelonForm : Prop :=
  ∀ s t : State, RunInv s → DecodeInv s → step s = .next t → DecodeInv t

/-- 44_session_decode.md R253 (with R244, item 3): every step keeps it that each symbol seen has raised the
rank; so the K-th distinct ESI completes and no earlier one, whichever they are and in whatever order. -/
def Obligations.EveryNewSymbolRaisesRank : Prop :=
  ∀ s t : State, RunInv s → DecodeInv s → SpanInv s → step s = .next t → SpanInv t

/-- 60_exceptions.md R285: FAULTED is unreachable: no step from a state of the invariant enters it. -/
def Obligations.FaultedNeverEntered : Prop :=
  ∀ s t : State, RunInv s → s.state ≠ .faulted → step s = .next t → t.state ≠ .faulted

/-- 44_session_decode.md R244, item 4: an ACCEPT of a correct symbol keeps every stored row, with its data,
a valid equation of the source symbols. -/
def Obligations.AcceptKeepsEquations : Prop :=
  ∀ (s t : State) (esi : Nat) (x : Nat → Nat → Elem), RunInv s → DecodeInv s →
    (∀ j l, IsElem (mOf s) (x j l)) → EquationsHold s x → SymbolMatches s esi x →
    exec (.accept esi) s = .next t → EquationsHold t x

/-- 44_session_decode.md R245: in DEC_DONE the matrix D is the identity, and where the stored equations hold
of the source symbols, slot j is source symbol j and GETSRC j puts it into IOBUF. -/
def Obligations.CompletionSolvesSources : Prop :=
  ∀ (s : State) (x : Nat → Nat → Elem), RunInv s → DecodeInv s → s.state = .decDone →
    (∀ j l, IsElem (mOf s) (x j l)) → EquationsHold s x → ∀ j < kOf s,
      (∀ c < kOf s, matrixGet s.d j c = if c = j then 1 else 0) ∧
      (∀ l < elementCount (mOf s) (symszOf s), (unpack (mOf s) (slotSymbol s j)).getD l 0 = x j l) ∧
      ∃ t, exec (.getsrc j) s = .next t ∧
        ∀ l < elementCount (mOf s) (symszOf s), (unpack (mOf s) (iobufSymbol t)).getD l 0 = x j l

/-- 44_session_decode.md R247: accepting two symbols in either order leaves the same D, PIV, RANK and STATE,
where neither order completes at its first symbol (so in particular where neither completes) the same SEEN
and RXCOUNT, and with correct symbols the same SYM. -/
def Obligations.AcceptOrderDoesNotMatter : Prop :=
  ∀ (s a b ab ba : State) (e e' : Nat) (io io' : Memory), RunInv s → DecodeInv s → s.state = .decAcc →
    e < nOf s → e' < nOf s →
    exec (.accept e) (s.setIobuf io) = .next a → exec (.accept e') (a.setIobuf io') = .next ab →
    exec (.accept e') (s.setIobuf io') = .next b → exec (.accept e) (b.setIobuf io) = .next ba →
      (ab.d = ba.d ∧ ab.piv = ba.piv ∧ ab.rank = ba.rank ∧ ab.state = ba.state) ∧
      (a.state ≠ .decDone → b.state ≠ .decDone → ab.seen = ba.seen ∧ ab.rxcount = ba.rxcount) ∧
      ∀ x : Nat → Nat → Elem, (∀ j l, IsElem (mOf s) (x j l)) → EquationsHold s x →
        SymbolMatches (s.setIobuf io) e x → SymbolMatches (s.setIobuf io') e' x → ab.sym = ba.sym
end

