-- ==== Sys2Proof/Laws/Decode.lean ====
section
/-! SUPPORT. Laws of the decoder and the encoder: the opcode map is a bijection onto the table's bytes,
and the fields of a packed word are the values packed. -/

namespace Sys2Proof

theorem opcodeOfByte_opcodeByte (o : Opcode) : opcodeOfByte (opcodeByte o) = some o := by
  cases o <;> decide

theorem opcodeByte_injective {o p : Opcode} (h : opcodeByte o = opcodeByte p) : o = p := by
  have h1 := opcodeOfByte_opcodeByte o
  rw [h, opcodeOfByte_opcodeByte] at h1
  exact (Option.some.inj h1).symm

theorem mem_allOpcodes (o : Opcode) : o ∈ allOpcodes := by cases o <;> decide

/-- The byte table is searched exactly: a byte stands for an opcode when it is its byte. -/
theorem opcodeOfByte_eq_some {b : BitVec 8} {o : Opcode} : opcodeOfByte b = some o ↔ opcodeByte o = b := by
  constructor
  · intro h
    simpa using List.find?_some h
  · rintro rfl
    exact opcodeOfByte_opcodeByte o

/-- The value of a packed word whose operands fit their fields. -/
theorem toNat_packWord {op m a b c : Nat} (hop : op < 2 ^ 8) (hm : m < 2 ^ 5) (ha : a < 2 ^ 32)
    (hb : b < 2 ^ 32) (hc : c < 2 ^ 32) :
    (packWord op m a b c).toNat = op + m * 2 ^ 8 + a * 2 ^ 32 + b * 2 ^ 64 + c * 2 ^ 96 := by
  have hlt : op + m * 2 ^ 8 + a * 2 ^ 32 + b * 2 ^ 64 + c * 2 ^ 96 < 2 ^ 128 := by omega
  exact (BitVec.toNat_ofNat _ _).trans (Nat.mod_eq_of_lt hlt)

/-- The fields of a word whose value is that of a packed word. -/
theorem fields_of_toNat {w : CmdWord} {op m a b c : Nat} (hop : op < 2 ^ 8) (hm : m < 2 ^ 5)
    (ha : a < 2 ^ 32) (hb : b < 2 ^ 32) (hc : c < 2 ^ 32)
    (h : w.toNat = op + m * 2 ^ 8 + a * 2 ^ 32 + b * 2 ^ 64 + c * 2 ^ 96) :
    opField w = BitVec.ofNat 8 op ∧ rsvField w = 0 ∧ (mfField w).toNat = m ∧ (aField w).toNat = a ∧
      (bField w).toNat = b ∧ (cField w).toNat = c := by
  refine ⟨?_, ?_, ?_, ?_, ?_, ?_⟩
  · apply BitVec.eq_of_toNat_eq
    simp only [opField, BitVec.extractLsb'_toNat, BitVec.toNat_ofNat, h, Nat.shiftRight_eq_div_pow]
    omega
  · apply BitVec.eq_of_toNat_eq
    simp only [rsvField, BitVec.extractLsb'_toNat, h, Nat.shiftRight_eq_div_pow,
      BitVec.ofNat_eq_ofNat, BitVec.toNat_ofNat]
    omega
  all_goals
    simp only [mfField, aField, bField, cField, BitVec.extractLsb'_toNat, h,
      Nat.shiftRight_eq_div_pow]
    omega

/-- The fields of a packed word whose operands fit. -/
theorem fields_packWord {op m a b c : Nat} (hop : op < 2 ^ 8) (hm : m < 2 ^ 5) (ha : a < 2 ^ 32)
    (hb : b < 2 ^ 32) (hc : c < 2 ^ 32) :
    opField (packWord op m a b c) = BitVec.ofNat 8 op ∧ rsvField (packWord op m a b c) = 0 ∧
      (mfField (packWord op m a b c)).toNat = m ∧ (aField (packWord op m a b c)).toNat = a ∧
      (bField (packWord op m a b c)).toNat = b ∧ (cField (packWord op m a b c)).toNat = c :=
  fields_of_toNat hop hm ha hb hc (toNat_packWord hop hm ha hb hc)

/-- Packing the fields of a word whose reserved field is 0 gives the word back. -/
theorem packWord_fields (w : CmdWord) (h : rsvField w = 0) :
    packWord (opField w).toNat (mfField w).toNat (aField w).toNat (bField w).toNat (cField w).toNat = w := by
  have hr : w.toNat >>> 13 % 2 ^ 19 = 0 := by
    have := congrArg BitVec.toNat h
    simpa [rsvField, BitVec.extractLsb'_toNat] using this
  have hw := w.isLt
  apply BitVec.eq_of_toNat_eq
  simp only [packWord, BitVec.toNat_ofNat, opField, mfField, aField, bField, cField,
    BitVec.extractLsb'_toNat, Nat.shiftRight_eq_div_pow] at hr ⊢
  omega

/-- What the decoder answers: a command only where the opcode is defined, rsv is 0 and every field the
format does not use is 0, and then the command of the word's fields. -/
theorem decode_eq_ok {w : CmdWord} {i : Instr} :
    decode w = .ok i ↔ ∃ o, opcodeByte o = opField w ∧ rsvField w = 0 ∧
      (usesMf (opcodeFormat o) = false → mfField w = 0) ∧
      (usesA (opcodeFormat o) = false → aField w = 0) ∧
      (usesB (opcodeFormat o) = false → bField w = 0) ∧
      (usesC (opcodeFormat o) = false → cField w = 0) ∧
      i = assemble o (mfField w).toNat (aField w).toNat (bField w).toNat (cField w).toNat := by
  unfold decode
  cases ho : opcodeOfByte (opField w) with
  | none =>
    simp only [reduceCtorEq, false_iff, not_exists, not_and]
    intro o h
    rw [opcodeOfByte_eq_some.2 h] at ho
    cases ho
  | some o =>
    have hop := opcodeOfByte_eq_some.1 ho
    constructor
    · intro h
      refine ⟨o, hop, ?_⟩
      dsimp only at h
      split_ifs at h with h1 h2 h3 h4 h5
      refine ⟨not_not.1 h1, ?_, ?_, ?_, ?_, ?_⟩
      · exact fun hu => not_not.1 fun hn => h2 ⟨hu, hn⟩
      · exact fun hu => not_not.1 fun hn => h3 ⟨hu, hn⟩
      · exact fun hu => not_not.1 fun hn => h4 ⟨hu, hn⟩
      · exact fun hu => not_not.1 fun hn => h5 ⟨hu, hn⟩
      · exact (Except.ok.inj h).symm
    · rintro ⟨p, hp, hr, h2, h3, h4, h5, rfl⟩
      obtain rfl : p = o := opcodeByte_injective (hp.trans hop.symm)
      have e2 : ¬(usesMf (opcodeFormat p) = false ∧ mfField w ≠ 0) := fun h => h.2 (h2 h.1)
      have e3 : ¬(usesA (opcodeFormat p) = false ∧ aField w ≠ 0) := fun h => h.2 (h3 h.1)
      have e4 : ¬(usesB (opcodeFormat p) = false ∧ bField w ≠ 0) := fun h => h.2 (h4 h.1)
      have e5 : ¬(usesC (opcodeFormat p) = false ∧ cField w ≠ 0) := fun h => h.2 (h5 h.1)
      simp only [if_neg (not_not.2 hr), if_neg e2, if_neg e3, if_neg e4, if_neg e5]

end Sys2Proof
end

