-- ==== Sys2Proof/Laws/Field.lean ====
section
/-! SUPPORT. Small laws of the field functions, the element vectors and the matrices: every result is an
m-bit value, every list has the length the spec gives it, and a row of gen is genRow. -/

namespace Sys2Proof.Machine

@[simp] theorem gfAdd_zero (x : Elem) : gfAdd x 0 = x := by simp [gfAdd]

@[simp] theorem zero_gfAdd (x : Elem) : gfAdd 0 x = x := by simp [gfAdd]

@[simp] theorem gfAdd_self (x : Elem) : gfAdd x x = 0 := by simp [gfAdd]

theorem gfAdd_comm (x y : Elem) : gfAdd x y = gfAdd y x := BitVec.xor_comm x y

theorem gfAdd_assoc (x y z : Elem) : gfAdd (gfAdd x y) z = gfAdd x (gfAdd y z) :=
  BitVec.xor_assoc x y z

/-- The sum of two m-bit values is an m-bit value. -/
theorem gfAdd_lt {m : Nat} {x y : Elem} (hx : x.toNat < 2 ^ m) (hy : y.toNat < 2 ^ m) :
    (gfAdd x y).toNat < 2 ^ m := by
  rw [gfAdd, BitVec.toNat_xor]
  exact Nat.xor_lt_two_pow hx hy

/-- A product is an m-bit value, whatever the operands. -/
theorem gfMul_lt {m : Nat} (hm : m ≤ 16) (x y : Elem) : (gfMul m x y).toNat < 2 ^ m := by
  have h16 : 2 ^ m ≤ 2 ^ 16 := Nat.pow_le_pow_right (by decide) hm
  have hpos : 0 < 2 ^ m := Nat.two_pow_pos m
  have hle : ∀ r : BitVec 32, (r &&& BitVec.ofNat 32 (2 ^ m - 1)).toNat ≤ 2 ^ m - 1 := fun r => by
    rw [BitVec.toNat_and, BitVec.toNat_ofNat, Nat.mod_eq_of_lt (by omega)]
    exact Nat.and_le_right
  have h := hle (reducePoly m (m - 1) (carrylessProduct (x.setWidth 32) y m))
  rw [gfMul, BitVec.toNat_setWidth]
  exact (Nat.mod_le _ _).trans_lt (by omega)

/-- A power is an m-bit value. -/
theorem gfPow_lt {m : Nat} (h1 : 1 ≤ m) (hm : m ≤ 16) (x : Elem) (e : Nat) :
    (gfPow m x e).toNat < 2 ^ m := by
  cases e with
  | zero =>
    have : 2 ^ 1 ≤ 2 ^ m := Nat.pow_le_pow_right (by decide) h1
    simp only [gfPow]
    show 1 < 2 ^ m
    omega
  | succ e => exact gfMul_lt hm _ _

theorem squareChain_lt {m : Nat} (hm : m ≤ 16) (count : Nat) (t acc : Elem)
    (h : acc.toNat < 2 ^ m) : (squareChain m count t acc).toNat < 2 ^ m := by
  induction count generalizing t acc with
  | zero => exact h
  | succ c ih => exact ih _ _ (gfMul_lt hm _ _)

/-- gf_inv is defined exactly at the non-zero elements. -/
theorem gfInv_eq_none {m : Nat} {x : Elem} : gfInv m x = none ↔ x = 0 := by
  simp [gfInv]

/-- An inverse is an m-bit value. -/
theorem gfInv_lt {m : Nat} (h1 : 1 ≤ m) (hm : m ≤ 16) {x y : Elem} (h : gfInv m x = some y) :
    y.toNat < 2 ^ m := by
  simp only [gfInv] at h
  split at h
  · cases h
  · obtain rfl := Option.some.inj h
    refine squareChain_lt hm _ _ _ ?_
    have : 2 ^ 1 ≤ 2 ^ m := Nat.pow_le_pow_right (by decide) h1
    show 1 < 2 ^ m
    omega

/-- An evaluation point is an m-bit value. -/
theorem point_lt {m : Nat} (h1 : 1 ≤ m) (hm : m ≤ 16) (r : Nat) : (point m r).toNat < 2 ^ m := by
  cases r with
  | zero => exact Nat.two_pow_pos m
  | succ r => exact gfPow_lt h1 hm _ r

/-! ### Element vectors -/

@[simp] theorem length_unpack (m : Nat) (s : List Byte) :
    (unpack m s).length = elementCount m s.length := by
  simp [unpack]

@[simp] theorem length_pack (m : Nat) (e : List Elem) (size : Nat) : (pack m e size).length = size := by
  simp [pack]

/-- Element j of a symbol is digit j of its integer to base 2^m. -/
theorem getD_unpack {m : Nat} (hm : m ≤ 16) (s : List Byte) (j : Nat) (hj : j < elementCount m s.length) :
    ((unpack m s).getD j 0).toNat = (bytesToNat s >>> (m * j)) % 2 ^ m := by
  have h16 : 2 ^ m ≤ 2 ^ 16 := Nat.pow_le_pow_right (by decide) hm
  have hlt : (bytesToNat s >>> (m * j)) % 2 ^ m < 2 ^ m := Nat.mod_lt _ (Nat.two_pow_pos m)
  simp only [unpack, List.getD_eq_getElem?_getD, List.getElem?_map, List.getElem?_range hj,
    Option.map_some, Option.getD_some, BitVec.toNat_ofNat]
  exact Nat.mod_eq_of_lt (by omega)

/-- Byte i of a packed symbol is byte i of the elements' integer. -/
theorem getD_pack (m : Nat) (e : List Elem) (size i : Nat) (hi : i < size) :
    (pack m e size).getD i 0 = BitVec.ofNat 8 ((elemsToNat m e >>> (8 * i)) % 256) := by
  simp [pack, List.getD_eq_getElem?_getD, hi]

@[simp] theorem length_vecMul (m : Nat) (c : Elem) (v : List Elem) : (vecMul m c v).length = v.length := by
  simp [vecMul]

@[simp] theorem length_vecAdd (u v : List Elem) : (vecAdd u v).length = min u.length v.length := by
  simp [vecAdd]

@[simp] theorem length_vecAddMul (m : Nat) (u : List Elem) (c : Elem) (v : List Elem) :
    (vecAddMul m u c v).length = min u.length v.length := by
  simp [vecAddMul]

@[simp] theorem length_zeroVec (count : Nat) : (zeroVec count).length = count := by simp [zeroVec]

/-- Lane j of vec_mul. -/
theorem getD_vecMul (m : Nat) (c : Elem) (v : List Elem) (j : Nat) (hj : j < v.length) :
    (vecMul m c v).getD j 0 = gfMul m c (v.getD j 0) := by
  simp [vecMul, List.getD_eq_getElem?_getD, hj]

/-- Lane j of vec_add. -/
theorem getD_vecAdd (u v : List Elem) (j : Nat) (hu : j < u.length) (hv : j < v.length) :
    (vecAdd u v).getD j 0 = gfAdd (u.getD j 0) (v.getD j 0) := by
  simp [vecAdd, List.getD_eq_getElem?_getD, hu, hv]

/-- Lane j of vec_addmul. -/
theorem getD_vecAddMul (m : Nat) (u : List Elem) (c : Elem) (v : List Elem) (j : Nat)
    (hu : j < u.length) (hv : j < v.length) :
    (vecAddMul m u c v).getD j 0 = gfAdd (u.getD j 0) (gfMul m c (v.getD j 0)) := by
  rw [vecAddMul, getD_vecAdd _ _ _ hu (by simpa using hv), getD_vecMul _ _ _ _ hv]

/-! ### Matrices -/

@[simp] theorem length_vdmRow (m cols r : Nat) : (vdmRow m cols r).length = cols := by simp [vdmRow]

@[simp] theorem length_vdm (m rows cols : Nat) : (vdm m rows cols).length = rows := by simp [vdm]

@[simp] theorem length_identityRow (k r : Nat) : (identityRow k r).length = k := by simp [identityRow]

@[simp] theorem length_identityMatrix (k : Nat) : (identityMatrix k).length = k := by
  simp [identityMatrix]

/-- The pivot that is found is the least row at or below the diagonal with a non-zero element. -/
theorem pivotIndex_some {rows : List AugRow} {c p : Nat} (h : pivotIndex rows c = some p) :
    c ≤ p ∧ p < rows.length ∧ rowElem (augRow rows p).1 c ≠ 0 := by
  have h1 := List.find?_some h
  have h2 := List.mem_of_find?_eq_some h
  simp only [Bool.and_eq_true, decide_eq_true_eq, Bool.not_eq_true', decide_eq_false_iff_not] at h1
  exact ⟨h1.1, List.mem_range.1 h2, h1.2⟩

/-- Where no pivot is found, the column is zero at and below the diagonal. -/
theorem pivotIndex_none {rows : List AugRow} {c : Nat} (h : pivotIndex rows c = none) (r : Nat)
    (hc : c ≤ r) (hr : r < rows.length) : rowElem (augRow rows r).1 c = 0 := by
  have h1 := List.find?_eq_none.1 h r (List.mem_range.2 hr)
  by_contra h2
  exact h1 (by rw [decide_eq_true hc, decide_eq_false h2]; rfl)

/-- Row e of gen is genRow (R185): it depends on m, k and e only. -/
theorem gen_row {m k n : Nat} {g : List (List Elem)} (h : gen m k n = some g) {e : Nat} (he : e < n) :
    genRow m k e = some (g.getD e []) := by
  cases hti : matInv m (vdm m k k) with
  | none => simp [gen, hti] at h
  | some ti =>
    simp only [gen, hti, Option.some.injEq] at h
    subst h
    simp only [genRow, hti, Option.some.injEq]
    simp [matMul, vdm, List.getD_eq_getElem?_getD, he]

/-- gen and genRow fail together, where mat_inv finds the Vandermonde matrix singular. -/
theorem gen_eq_none_iff (m k n e : Nat) : gen m k n = none ↔ genRow m k e = none := by
  cases hti : matInv m (vdm m k k) <;> simp [gen, genRow, hti]

theorem gen_length {m k n : Nat} {g : List (List Elem)} (h : gen m k n = some g) : g.length = n := by
  cases hti : matInv m (vdm m k k) with
  | none => simp [gen, hti] at h
  | some ti =>
    simp only [gen, hti, Option.some.injEq] at h
    subst h
    simp [matMul]

end Sys2Proof.Machine
end

