-- ==== Sys2Proof/Laws/Sparse.lean ====
section
/-! SUPPORT. The laws of sparse stores, byte memories and index sets: read after write, the frame of a
write, that every operation keeps the canonical form, and that stores in canonical form which read the
same are equal. -/

namespace Sys2Proof.Machine

section Generic

variable {α : Type} [DecidableEq α] {dflt : α}

theorem sparseWf_nil : sparseWf dflt ([] : Sparse α) = true := rfl

theorem sparseWf_cons {j : Nat} {w : α} {t : Sparse α} :
    sparseWf dflt ((j, w) :: t) = true ↔
      (∀ x ∈ t, j < x.1) ∧ w ≠ dflt ∧ sparseWf dflt t = true := by
  simp only [sparseWf, Bool.and_eq_true, decide_eq_true_eq, List.pairwise_cons, List.all_cons,
    Bool.not_eq_true', decide_eq_false_iff_not]
  tauto

omit [DecidableEq α] in
/-- Below the first index everything reads as the default. -/
theorem sparseGet_below {t : Sparse α} {i : Nat} (h : ∀ x ∈ t, i < x.1) : sparseGet dflt t i = dflt := by
  induction t with
  | nil => rfl
  | cons x t ih =>
    obtain ⟨j, w⟩ := x
    have hj : i < j := h (j, w) List.mem_cons_self
    simp only [sparseGet, if_neg (Nat.ne_of_lt hj)]
    exact ih fun y hy => h y (List.mem_cons_of_mem _ hy)

/-- The indices listed after a write are the old ones and perhaps the written one. -/
theorem mem_sparseSet {t : Sparse α} {i : Nat} {v : α} {x : Nat × α} (h : x ∈ sparseSet dflt t i v) :
    x ∈ t ∨ (x = (i, v) ∧ v ≠ dflt) := by
  induction t with
  | nil =>
    simp only [sparseSet] at h
    split at h <;> simp_all
  | cons y t ih =>
    obtain ⟨j, w⟩ := y
    simp only [sparseSet] at h
    split at h
    · split at h
      · exact .inl h
      · rcases List.mem_cons.1 h with h | h
        · exact .inr ⟨h, ‹_›⟩
        · exact .inl h
    · split at h
      · split at h
        · exact .inl (List.mem_cons_of_mem _ h)
        · rcases List.mem_cons.1 h with h | h
          · exact .inr ⟨h, ‹_›⟩
          · exact .inl (List.mem_cons_of_mem _ h)
      · rcases List.mem_cons.1 h with h | h
        · exact .inl (h ▸ List.mem_cons_self)
        · exact (ih h).imp (List.mem_cons_of_mem _) id

/-- A write keeps the canonical form. -/
theorem sparseSet_wf {t : Sparse α} (i : Nat) (v : α) (h : sparseWf dflt t = true) :
    sparseWf dflt (sparseSet dflt t i v) = true := by
  induction t with
  | nil =>
    simp only [sparseSet]
    split
    · rfl
    · exact sparseWf_cons.2 ⟨by simp, ‹_›, rfl⟩
  | cons y t ih =>
    obtain ⟨j, w⟩ := y
    obtain ⟨hlt, hw, ht⟩ := sparseWf_cons.1 h
    simp only [sparseSet]
    split
    · rename_i hij
      split
      · exact h
      · refine sparseWf_cons.2 ⟨fun x hx => ?_, ‹_›, h⟩
        rcases List.mem_cons.1 hx with rfl | hx
        · exact hij
        · exact hij.trans (hlt x hx)
    · split
      · rename_i hij
        split
        · exact ht
        · exact sparseWf_cons.2 ⟨hij ▸ hlt, ‹_›, ht⟩
      · refine sparseWf_cons.2 ⟨fun x hx => ?_, hw, ih ht⟩
        rcases mem_sparseSet hx with hx | ⟨rfl, _⟩
        · exact hlt x hx
        · show j < i
          omega

/-- Reading one index after writing another or the same. -/
theorem sparseGet_set {t : Sparse α} (h : sparseWf dflt t = true) (i a : Nat) (v : α) :
    sparseGet dflt (sparseSet dflt t i v) a = if a = i then v else sparseGet dflt t a := by
  induction t with
  | nil =>
    simp only [sparseSet]
    split <;> simp_all [sparseGet]
  | cons y t ih =>
    obtain ⟨j, w⟩ := y
    obtain ⟨hlt, hw, ht⟩ := sparseWf_cons.1 h
    simp only [sparseSet]
    split
    · rename_i hij
      split
      · rename_i hv
        by_cases ha : a = i
        · subst ha
          rw [if_pos rfl, hv]
          refine sparseGet_below fun x hx => ?_
          rcases List.mem_cons.1 hx with rfl | hx
          · exact hij
          · exact hij.trans (hlt x hx)
        · rw [if_neg ha]
      · by_cases ha : a = i <;> simp [sparseGet, ha]
    · split
      · rename_i hij
        subst hij
        split
        · rename_i hv
          by_cases ha : a = i
          · subst ha
            rw [if_pos rfl, hv]
            exact sparseGet_below hlt
          · simp [sparseGet, ha]
        · by_cases ha : a = i <;> simp [sparseGet, ha]
      · simp only [sparseGet, ih ht]
        by_cases ha : a = j
        · have : a ≠ i := by omega
          simp [ha, show j ≠ i by omega]
        · simp [ha]

/-- A run of writes keeps the canonical form. -/
theorem sparseWrite_wf {t : Sparse α} (a : Nat) (vs : List α) (h : sparseWf dflt t = true) :
    sparseWf dflt (sparseWrite dflt t a vs) = true := by
  induction vs generalizing t a with
  | nil => exact h
  | cons v vs ih => exact ih (a + 1) (sparseSet_wf a v h)

/-- Reading after a run of writes: the list's value inside the run, the old value outside it. -/
theorem sparseGet_write {t : Sparse α} (h : sparseWf dflt t = true) (a : Nat) (vs : List α) (i : Nat) :
    sparseGet dflt (sparseWrite dflt t a vs) i =
      if a ≤ i ∧ i < a + vs.length then vs.getD (i - a) dflt else sparseGet dflt t i := by
  induction vs generalizing t a with
  | nil => simp [sparseWrite]
  | cons v vs ih =>
    simp only [sparseWrite, ih (sparseSet_wf a v h) (a + 1), sparseGet_set h, List.length_cons]
    by_cases h1 : a + 1 ≤ i ∧ i < a + 1 + vs.length
    · have h2 : a ≤ i ∧ i < a + (vs.length + 1) := by omega
      have h3 : i - a = (i - (a + 1)) + 1 := by omega
      rw [if_pos h1, if_pos h2, h3, List.getD_cons_succ]
    · rw [if_neg h1]
      by_cases h2 : i = a
      · subst h2
        simp
      · rw [if_neg h2, if_neg (by omega)]

omit [DecidableEq α] in
/-- Reading a run gives as many values as asked for. -/
@[simp] theorem length_sparseRead (t : Sparse α) (a count : Nat) :
    (sparseRead dflt t a count).length = count := by
  simp [sparseRead]

omit [DecidableEq α] in
/-- The values of a run. -/
theorem getD_sparseRead (t : Sparse α) (a count i : Nat) :
    (sparseRead dflt t a count).getD i dflt = if i < count then sparseGet dflt t (a + i) else dflt := by
  by_cases h : i < count
  · simp [sparseRead, List.getD, h]
  · simp [sparseRead, List.getD, h]

/-- Stores in canonical form that read the same are equal. -/
theorem sparse_ext {t u : Sparse α} (ht : sparseWf dflt t = true) (hu : sparseWf dflt u = true)
    (h : ∀ i, sparseGet dflt t i = sparseGet dflt u i) : t = u := by
  induction t generalizing u with
  | nil =>
    cases u with
    | nil => rfl
    | cons y u =>
      obtain ⟨j, w⟩ := y
      have := h j
      simp only [sparseGet, if_true] at this
      exact absurd this.symm (sparseWf_cons.1 hu).2.1
  | cons x t ih =>
    obtain ⟨i, v⟩ := x
    obtain ⟨hlt, hv, ht'⟩ := sparseWf_cons.1 ht
    cases u with
    | nil =>
      have := h i
      simp only [sparseGet, if_true] at this
      exact absurd this hv
    | cons y u =>
      obtain ⟨j, w⟩ := y
      obtain ⟨hlu, hw, hu'⟩ := sparseWf_cons.1 hu
      have hij : i = j := by
        rcases Nat.lt_trichotomy i j with hlt' | rfl | hlt'
        · have := h i
          rw [sparseGet_below (t := (j, w) :: u)] at this
          · simp only [sparseGet, if_true] at this
            exact absurd this hv
          · intro x hx
            rcases List.mem_cons.1 hx with rfl | hx
            · exact hlt'
            · exact hlt'.trans (hlu x hx)
        · rfl
        · have := h j
          rw [sparseGet_below (t := (i, v) :: t)] at this
          · simp only [sparseGet, if_true] at this
            exact absurd this.symm hw
          · intro x hx
            rcases List.mem_cons.1 hx with rfl | hx
            · exact hlt'
            · exact hlt'.trans (hlt x hx)
      subst hij
      have hvw : v = w := by simpa [sparseGet] using h i
      subst hvw
      refine congrArg _ (ih ht' hu' fun a => ?_)
      by_cases ha : a = i
      · subst ha
        rw [sparseGet_below hlt, sparseGet_below hlu]
      · simpa [sparseGet, ha] using h a

end Generic

/-- A byte write keeps the memory's canonical form. -/
theorem Memory.write_wf {mem : Memory} (h : mem.wf = true) (o : Nat) (v : Byte) :
    (mem.write o v).wf = true :=
  sparseSet_wf o v h

/-- A write of a list of bytes keeps the memory's canonical form. -/
theorem Memory.writeBytes_wf {mem : Memory} (h : mem.wf = true) (o : Nat) (bs : List Byte) :
    (mem.writeBytes o bs).wf = true :=
  sparseWrite_wf o bs h

/-- Reading a byte after writing one. -/
theorem Memory.read_write {mem : Memory} (h : mem.wf = true) (o a : Nat) (v : Byte) :
    (mem.write o v).read a = if a = o then v else mem.read a :=
  sparseGet_set h o a v

/-- Reading a byte after writing a list of bytes. -/
theorem Memory.read_writeBytes {mem : Memory} (h : mem.wf = true) (o : Nat) (bs : List Byte) (a : Nat) :
    (mem.writeBytes o bs).read a =
      if o ≤ a ∧ a < o + bs.length then bs.getD (a - o) 0 else mem.read a :=
  sparseGet_write h o bs a

@[simp] theorem Memory.length_readBytes (mem : Memory) (o count : Nat) :
    (mem.readBytes o count).length = count :=
  length_sparseRead mem o count

theorem Memory.getD_readBytes (mem : Memory) (o count i : Nat) :
    (mem.readBytes o count).getD i 0 = if i < count then mem.read (o + i) else 0 :=
  getD_sparseRead mem o count i

/-- Memories in canonical form that read the same are equal. -/
theorem Memory.ext_read {a b : Memory} (ha : a.wf = true) (hb : b.wf = true)
    (h : ∀ o, a.read o = b.read o) : a = b :=
  sparse_ext ha hb h

/-- A member of a store in canonical form whose values all satisfy a property satisfies it. -/
theorem sparseGet_all {α : Type} {dflt : α} {p : α → Bool} {t : Sparse α} (hd : p dflt = true)
    (h : (t.all fun x => p x.2) = true) (i : Nat) : p (sparseGet dflt t i) = true := by
  induction t with
  | nil => exact hd
  | cons x t ih =>
    obtain ⟨j, w⟩ := x
    simp only [List.all_cons, Bool.and_eq_true] at h
    simp only [sparseGet]
    split
    · exact h.1
    · exact ih h.2

/-- Writing a value that satisfies a property keeps it true of every listed value. -/
theorem sparseSet_all {α : Type} [DecidableEq α] {dflt : α} {p : α → Bool} {t : Sparse α} (i : Nat)
    {v : α} (hv : p v = true) (h : (t.all fun x => p x.2) = true) :
    ((sparseSet dflt t i v).all fun x => p x.2) = true := by
  rw [List.all_eq_true] at h ⊢
  intro x hx
  rcases mem_sparseSet hx with hx | ⟨rfl, _⟩
  · exact h x hx
  · exact hv

theorem symWf_iff {sym : Sparse Memory} :
    symWf sym = true ↔ sparseWf [] sym = true ∧ (sym.all fun x => Memory.wf x.2) = true := by
  simp [symWf]

/-- A slot of a symbol store in canonical form is in canonical form. -/
theorem slotOf_wf {sym : Sparse Memory} (h : symWf sym = true) (i : Nat) : (slotOf sym i).wf = true :=
  sparseGet_all (p := Memory.wf) rfl (symWf_iff.1 h).2 i

/-- Writing a slot keeps the symbol store's canonical form. -/
theorem writeSlot_wf {sym : Sparse Memory} (h : symWf sym = true) (i : Nat) (bs : List Byte) :
    symWf (writeSlot sym i bs) = true :=
  symWf_iff.2 ⟨sparseSet_wf i _ (symWf_iff.1 h).1,
    sparseSet_all (p := Memory.wf) i (Memory.writeBytes_wf (slotOf_wf h i) 0 bs) (symWf_iff.1 h).2⟩

/-- The slots after writing one. -/
theorem slotOf_writeSlot {sym : Sparse Memory} (h : symWf sym = true) (i a : Nat) (bs : List Byte) :
    slotOf (writeSlot sym i bs) a = if a = i then (slotOf sym i).writeBytes 0 bs else slotOf sym a :=
  sparseGet_set (symWf_iff.1 h).1 i a _

/-- The bytes of the symbol store after writing a slot. -/
theorem read_writeSlot {sym : Sparse Memory} (h : symWf sym = true) (i a o : Nat) (bs : List Byte) :
    (slotOf (writeSlot sym i bs) a).read o =
      if a = i ∧ o < bs.length then bs.getD o 0 else (slotOf sym a).read o := by
  rw [slotOf_writeSlot h]
  by_cases ha : a = i
  · subst ha
    simp [Memory.read_writeBytes (slotOf_wf h a)]
  · simp [ha]

theorem matrixWf_iff {d : Sparse (Sparse Elem)} :
    matrixWf d = true ↔ sparseWf [] d = true ∧ (d.all fun x => sparseWf (0 : Elem) x.2) = true := by
  simp [matrixWf]

/-- Writing a row keeps the matrix's canonical form. -/
theorem writeMatrixRow_wf {d : Sparse (Sparse Elem)} (h : matrixWf d = true) (r : Nat) (row : List Elem) :
    matrixWf (writeMatrixRow d r row) = true :=
  matrixWf_iff.2 ⟨sparseSet_wf r _ (matrixWf_iff.1 h).1,
    sparseSet_all (p := sparseWf 0) r
      (sparseWrite_wf 0 row (sparseGet_all (p := sparseWf 0) rfl (matrixWf_iff.1 h).2 r))
      (matrixWf_iff.1 h).2⟩

/-- The elements of the matrix after writing a row. -/
theorem matrixGet_writeMatrixRow {d : Sparse (Sparse Elem)} (h : matrixWf d = true) (r a c : Nat)
    (row : List Elem) :
    matrixGet (writeMatrixRow d r row) a c =
      if a = r ∧ c < row.length then row.getD c 0 else matrixGet d a c := by
  have hr := sparseGet_all (p := sparseWf (0 : Elem)) (dflt := []) rfl (matrixWf_iff.1 h).2 r
  simp only [matrixGet, writeMatrixRow, sparseGet_set (matrixWf_iff.1 h).1]
  by_cases ha : a = r
  · subst ha
    rw [if_pos rfl, sparseGet_write hr]
    simp
  · simp [ha]

@[simp] theorem length_matrixRow (d : Sparse (Sparse Elem)) (r count : Nat) :
    (matrixRow d r count).length = count :=
  length_sparseRead _ 0 count

theorem getD_matrixRow (d : Sparse (Sparse Elem)) (r count c : Nat) :
    (matrixRow d r count).getD c 0 = if c < count then matrixGet d r c else 0 := by
  simpa [matrixRow, matrixGet] using getD_sparseRead (dflt := (0 : Elem)) (sparseGet [] d r) 0 count c

/-- What an index set holds after an insertion. -/
@[simp] theorem mem_indexInsert {l : List Nat} {i a : Nat} : a ∈ indexInsert l i ↔ a = i ∨ a ∈ l := by
  induction l with
  | nil => simp [indexInsert]
  | cons j t ih =>
    simp only [indexInsert]
    split
    · simp
    · split
      · simp_all
      · simp only [List.mem_cons, ih]
        tauto

/-- An insertion keeps the set strictly rising. -/
theorem indexInsert_wf {l : List Nat} (i : Nat) (h : indexSetWf l = true) :
    indexSetWf (indexInsert l i) = true := by
  simp only [indexSetWf, decide_eq_true_eq] at h ⊢
  induction l with
  | nil => simp [indexInsert]
  | cons j t ih =>
    obtain ⟨h1, h2⟩ := List.pairwise_cons.1 h
    simp only [indexInsert]
    split
    · rename_i hij
      refine List.pairwise_cons.2 ⟨fun a ha => ?_, h⟩
      rcases List.mem_cons.1 ha with rfl | ha
      · exact hij
      · exact hij.trans (h1 a ha)
    · split
      · exact h
      · refine List.pairwise_cons.2 ⟨fun a ha => ?_, ih h2⟩
        rcases mem_indexInsert.1 ha with rfl | ha
        · omega
        · exact h1 a ha

/-- Inserting a member changes nothing. -/
theorem indexInsert_of_mem {l : List Nat} {i : Nat} (h : indexSetWf l = true) (hi : i ∈ l) :
    indexInsert l i = l := by
  simp only [indexSetWf, decide_eq_true_eq] at h
  induction l with
  | nil => simp at hi
  | cons j t ih =>
    obtain ⟨h1, h2⟩ := List.pairwise_cons.1 h
    simp only [indexInsert]
    rcases List.mem_cons.1 hi with rfl | hi
    · simp
    · have hji := h1 i hi
      rw [if_neg (by omega), if_neg (by omega), ih hi h2]

/-- The size of an index set after an insertion. -/
theorem length_indexInsert {l : List Nat} {i : Nat} (hi : i ∉ l) :
    (indexInsert l i).length = l.length + 1 := by
  induction l with
  | nil => rfl
  | cons j t ih =>
    simp only [List.mem_cons, not_or] at hi
    simp only [indexInsert]
    split
    · rfl
    · rw [if_neg hi.1, List.length_cons, ih hi.2, List.length_cons]

end Sys2Proof.Machine
end

