-- ==== Sys2Proof/Laws/State.lean ====
section
/-! SUPPORT. One lemma per field per update of the state, each true by unfolding the record update once,
so that no later proof unfolds one. -/

namespace Sys2Proof.Machine

variable (s : State)

section setStatus
variable (o : Status)
@[simp] theorem State.setStatus_inst : (s.setStatus o).inst = s.inst := rfl
@[simp] theorem State.setStatus_state : (s.setStatus o).state = s.state := rfl
@[simp] theorem State.setStatus_status : (s.setStatus o).status = o := rfl
@[simp] theorem State.setStatus_k : (s.setStatus o).k = s.k := rfl
@[simp] theorem State.setStatus_n : (s.setStatus o).n = s.n := rfl
@[simp] theorem State.setStatus_symsz : (s.setStatus o).symsz = s.symsz := rfl
@[simp] theorem State.setStatus_m : (s.setStatus o).m = s.m := rfl
@[simp] theorem State.setStatus_res : (s.setStatus o).res = s.res := rfl
@[simp] theorem State.setStatus_loaded : (s.setStatus o).loaded = s.loaded := rfl
@[simp] theorem State.setStatus_rxcount : (s.setStatus o).rxcount = s.rxcount := rfl
@[simp] theorem State.setStatus_rank : (s.setStatus o).rank = s.rank := rfl
@[simp] theorem State.setStatus_iobuf : (s.setStatus o).iobuf = s.iobuf := rfl
@[simp] theorem State.setStatus_vacc : (s.setStatus o).vacc = s.vacc := rfl
@[simp] theorem State.setStatus_sym : (s.setStatus o).sym = s.sym := rfl
@[simp] theorem State.setStatus_srcset : (s.setStatus o).srcset = s.srcset := rfl
@[simp] theorem State.setStatus_d : (s.setStatus o).d = s.d := rfl
@[simp] theorem State.setStatus_piv : (s.setStatus o).piv = s.piv := rfl
@[simp] theorem State.setStatus_seen : (s.setStatus o).seen = s.seen := rfl
@[simp] theorem State.setStatus_pending : (s.setStatus o).pending = s.pending := rfl
@[simp] theorem State.setStatus_responses : (s.setStatus o).responses = s.responses := rfl
end setStatus

section setState
variable (st : SessionState)
@[simp] theorem State.setState_inst : (s.setState st).inst = s.inst := rfl
@[simp] theorem State.setState_state : (s.setState st).state = st := rfl
@[simp] theorem State.setState_status : (s.setState st).status = s.status := rfl
@[simp] theorem State.setState_k : (s.setState st).k = s.k := rfl
@[simp] theorem State.setState_n : (s.setState st).n = s.n := rfl
@[simp] theorem State.setState_symsz : (s.setState st).symsz = s.symsz := rfl
@[simp] theorem State.setState_m : (s.setState st).m = s.m := rfl
@[simp] theorem State.setState_res : (s.setState st).res = s.res := rfl
@[simp] theorem State.setState_loaded : (s.setState st).loaded = s.loaded := rfl
@[simp] theorem State.setState_rxcount : (s.setState st).rxcount = s.rxcount := rfl
@[simp] theorem State.setState_rank : (s.setState st).rank = s.rank := rfl
@[simp] theorem State.setState_iobuf : (s.setState st).iobuf = s.iobuf := rfl
@[simp] theorem State.setState_vacc : (s.setState st).vacc = s.vacc := rfl
@[simp] theorem State.setState_sym : (s.setState st).sym = s.sym := rfl
@[simp] theorem State.setState_srcset : (s.setState st).srcset = s.srcset := rfl
@[simp] theorem State.setState_d : (s.setState st).d = s.d := rfl
@[simp] theorem State.setState_piv : (s.setState st).piv = s.piv := rfl
@[simp] theorem State.setState_seen : (s.setState st).seen = s.seen := rfl
@[simp] theorem State.setState_pending : (s.setState st).pending = s.pending := rfl
@[simp] theorem State.setState_responses : (s.setState st).responses = s.responses := rfl
end setState

section setRes
variable (v : RegWord)
@[simp] theorem State.setRes_inst : (s.setRes v).inst = s.inst := rfl
@[simp] theorem State.setRes_state : (s.setRes v).state = s.state := rfl
@[simp] theorem State.setRes_status : (s.setRes v).status = s.status := rfl
@[simp] theorem State.setRes_k : (s.setRes v).k = s.k := rfl
@[simp] theorem State.setRes_n : (s.setRes v).n = s.n := rfl
@[simp] theorem State.setRes_symsz : (s.setRes v).symsz = s.symsz := rfl
@[simp] theorem State.setRes_m : (s.setRes v).m = s.m := rfl
@[simp] theorem State.setRes_res : (s.setRes v).res = v := rfl
@[simp] theorem State.setRes_loaded : (s.setRes v).loaded = s.loaded := rfl
@[simp] theorem State.setRes_rxcount : (s.setRes v).rxcount = s.rxcount := rfl
@[simp] theorem State.setRes_rank : (s.setRes v).rank = s.rank := rfl
@[simp] theorem State.setRes_iobuf : (s.setRes v).iobuf = s.iobuf := rfl
@[simp] theorem State.setRes_vacc : (s.setRes v).vacc = s.vacc := rfl
@[simp] theorem State.setRes_sym : (s.setRes v).sym = s.sym := rfl
@[simp] theorem State.setRes_srcset : (s.setRes v).srcset = s.srcset := rfl
@[simp] theorem State.setRes_d : (s.setRes v).d = s.d := rfl
@[simp] theorem State.setRes_piv : (s.setRes v).piv = s.piv := rfl
@[simp] theorem State.setRes_seen : (s.setRes v).seen = s.seen := rfl
@[simp] theorem State.setRes_pending : (s.setRes v).pending = s.pending := rfl
@[simp] theorem State.setRes_responses : (s.setRes v).responses = s.responses := rfl
end setRes

section setIobuf
variable (mem : Memory)
@[simp] theorem State.setIobuf_inst : (s.setIobuf mem).inst = s.inst := rfl
@[simp] theorem State.setIobuf_state : (s.setIobuf mem).state = s.state := rfl
@[simp] theorem State.setIobuf_status : (s.setIobuf mem).status = s.status := rfl
@[simp] theorem State.setIobuf_k : (s.setIobuf mem).k = s.k := rfl
@[simp] theorem State.setIobuf_n : (s.setIobuf mem).n = s.n := rfl
@[simp] theorem State.setIobuf_symsz : (s.setIobuf mem).symsz = s.symsz := rfl
@[simp] theorem State.setIobuf_m : (s.setIobuf mem).m = s.m := rfl
@[simp] theorem State.setIobuf_res : (s.setIobuf mem).res = s.res := rfl
@[simp] theorem State.setIobuf_loaded : (s.setIobuf mem).loaded = s.loaded := rfl
@[simp] theorem State.setIobuf_rxcount : (s.setIobuf mem).rxcount = s.rxcount := rfl
@[simp] theorem State.setIobuf_rank : (s.setIobuf mem).rank = s.rank := rfl
@[simp] theorem State.setIobuf_iobuf : (s.setIobuf mem).iobuf = mem := rfl
@[simp] theorem State.setIobuf_vacc : (s.setIobuf mem).vacc = s.vacc := rfl
@[simp] theorem State.setIobuf_sym : (s.setIobuf mem).sym = s.sym := rfl
@[simp] theorem State.setIobuf_srcset : (s.setIobuf mem).srcset = s.srcset := rfl
@[simp] theorem State.setIobuf_d : (s.setIobuf mem).d = s.d := rfl
@[simp] theorem State.setIobuf_piv : (s.setIobuf mem).piv = s.piv := rfl
@[simp] theorem State.setIobuf_seen : (s.setIobuf mem).seen = s.seen := rfl
@[simp] theorem State.setIobuf_pending : (s.setIobuf mem).pending = s.pending := rfl
@[simp] theorem State.setIobuf_responses : (s.setIobuf mem).responses = s.responses := rfl
end setIobuf

section setVacc
variable (mem : Memory)
@[simp] theorem State.setVacc_inst : (s.setVacc mem).inst = s.inst := rfl
@[simp] theorem State.setVacc_state : (s.setVacc mem).state = s.state := rfl
@[simp] theorem State.setVacc_status : (s.setVacc mem).status = s.status := rfl
@[simp] theorem State.setVacc_k : (s.setVacc mem).k = s.k := rfl
@[simp] theorem State.setVacc_n : (s.setVacc mem).n = s.n := rfl
@[simp] theorem State.setVacc_symsz : (s.setVacc mem).symsz = s.symsz := rfl
@[simp] theorem State.setVacc_m : (s.setVacc mem).m = s.m := rfl
@[simp] theorem State.setVacc_res : (s.setVacc mem).res = s.res := rfl
@[simp] theorem State.setVacc_loaded : (s.setVacc mem).loaded = s.loaded := rfl
@[simp] theorem State.setVacc_rxcount : (s.setVacc mem).rxcount = s.rxcount := rfl
@[simp] theorem State.setVacc_rank : (s.setVacc mem).rank = s.rank := rfl
@[simp] theorem State.setVacc_iobuf : (s.setVacc mem).iobuf = s.iobuf := rfl
@[simp] theorem State.setVacc_vacc : (s.setVacc mem).vacc = mem := rfl
@[simp] theorem State.setVacc_sym : (s.setVacc mem).sym = s.sym := rfl
@[simp] theorem State.setVacc_srcset : (s.setVacc mem).srcset = s.srcset := rfl
@[simp] theorem State.setVacc_d : (s.setVacc mem).d = s.d := rfl
@[simp] theorem State.setVacc_piv : (s.setVacc mem).piv = s.piv := rfl
@[simp] theorem State.setVacc_seen : (s.setVacc mem).seen = s.seen := rfl
@[simp] theorem State.setVacc_pending : (s.setVacc mem).pending = s.pending := rfl
@[simp] theorem State.setVacc_responses : (s.setVacc mem).responses = s.responses := rfl
end setVacc

section setSym
variable (y : Sparse Memory)
@[simp] theorem State.setSym_inst : (s.setSym y).inst = s.inst := rfl
@[simp] theorem State.setSym_state : (s.setSym y).state = s.state := rfl
@[simp] theorem State.setSym_status : (s.setSym y).status = s.status := rfl
@[simp] theorem State.setSym_k : (s.setSym y).k = s.k := rfl
@[simp] theorem State.setSym_n : (s.setSym y).n = s.n := rfl
@[simp] theorem State.setSym_symsz : (s.setSym y).symsz = s.symsz := rfl
@[simp] theorem State.setSym_m : (s.setSym y).m = s.m := rfl
@[simp] theorem State.setSym_res : (s.setSym y).res = s.res := rfl
@[simp] theorem State.setSym_loaded : (s.setSym y).loaded = s.loaded := rfl
@[simp] theorem State.setSym_rxcount : (s.setSym y).rxcount = s.rxcount := rfl
@[simp] theorem State.setSym_rank : (s.setSym y).rank = s.rank := rfl
@[simp] theorem State.setSym_iobuf : (s.setSym y).iobuf = s.iobuf := rfl
@[simp] theorem State.setSym_vacc : (s.setSym y).vacc = s.vacc := rfl
@[simp] theorem State.setSym_sym : (s.setSym y).sym = y := rfl
@[simp] theorem State.setSym_srcset : (s.setSym y).srcset = s.srcset := rfl
@[simp] theorem State.setSym_d : (s.setSym y).d = s.d := rfl
@[simp] theorem State.setSym_piv : (s.setSym y).piv = s.piv := rfl
@[simp] theorem State.setSym_seen : (s.setSym y).seen = s.seen := rfl
@[simp] theorem State.setSym_pending : (s.setSym y).pending = s.pending := rfl
@[simp] theorem State.setSym_responses : (s.setSym y).responses = s.responses := rfl
end setSym

section setSrcset
variable (l : List Nat)
@[simp] theorem State.setSrcset_inst : (s.setSrcset l).inst = s.inst := rfl
@[simp] theorem State.setSrcset_state : (s.setSrcset l).state = s.state := rfl
@[simp] theorem State.setSrcset_status : (s.setSrcset l).status = s.status := rfl
@[simp] theorem State.setSrcset_k : (s.setSrcset l).k = s.k := rfl
@[simp] theorem State.setSrcset_n : (s.setSrcset l).n = s.n := rfl
@[simp] theorem State.setSrcset_symsz : (s.setSrcset l).symsz = s.symsz := rfl
@[simp] theorem State.setSrcset_m : (s.setSrcset l).m = s.m := rfl
@[simp] theorem State.setSrcset_res : (s.setSrcset l).res = s.res := rfl
@[simp] theorem State.setSrcset_loaded : (s.setSrcset l).loaded = BitVec.ofNat 32 l.length := rfl
@[simp] theorem State.setSrcset_rxcount : (s.setSrcset l).rxcount = s.rxcount := rfl
@[simp] theorem State.setSrcset_rank : (s.setSrcset l).rank = s.rank := rfl
@[simp] theorem State.setSrcset_iobuf : (s.setSrcset l).iobuf = s.iobuf := rfl
@[simp] theorem State.setSrcset_vacc : (s.setSrcset l).vacc = s.vacc := rfl
@[simp] theorem State.setSrcset_sym : (s.setSrcset l).sym = s.sym := rfl
@[simp] theorem State.setSrcset_srcset : (s.setSrcset l).srcset = l := rfl
@[simp] theorem State.setSrcset_d : (s.setSrcset l).d = s.d := rfl
@[simp] theorem State.setSrcset_piv : (s.setSrcset l).piv = s.piv := rfl
@[simp] theorem State.setSrcset_seen : (s.setSrcset l).seen = s.seen := rfl
@[simp] theorem State.setSrcset_pending : (s.setSrcset l).pending = s.pending := rfl
@[simp] theorem State.setSrcset_responses : (s.setSrcset l).responses = s.responses := rfl
end setSrcset

section setSeen
variable (l : List Nat)
@[simp] theorem State.setSeen_inst : (s.setSeen l).inst = s.inst := rfl
@[simp] theorem State.setSeen_state : (s.setSeen l).state = s.state := rfl
@[simp] theorem State.setSeen_status : (s.setSeen l).status = s.status := rfl
@[simp] theorem State.setSeen_k : (s.setSeen l).k = s.k := rfl
@[simp] theorem State.setSeen_n : (s.setSeen l).n = s.n := rfl
@[simp] theorem State.setSeen_symsz : (s.setSeen l).symsz = s.symsz := rfl
@[simp] theorem State.setSeen_m : (s.setSeen l).m = s.m := rfl
@[simp] theorem State.setSeen_res : (s.setSeen l).res = s.res := rfl
@[simp] theorem State.setSeen_loaded : (s.setSeen l).loaded = s.loaded := rfl
@[simp] theorem State.setSeen_rxcount : (s.setSeen l).rxcount = BitVec.ofNat 32 l.length := rfl
@[simp] theorem State.setSeen_rank : (s.setSeen l).rank = s.rank := rfl
@[simp] theorem State.setSeen_iobuf : (s.setSeen l).iobuf = s.iobuf := rfl
@[simp] theorem State.setSeen_vacc : (s.setSeen l).vacc = s.vacc := rfl
@[simp] theorem State.setSeen_sym : (s.setSeen l).sym = s.sym := rfl
@[simp] theorem State.setSeen_srcset : (s.setSeen l).srcset = s.srcset := rfl
@[simp] theorem State.setSeen_d : (s.setSeen l).d = s.d := rfl
@[simp] theorem State.setSeen_piv : (s.setSeen l).piv = s.piv := rfl
@[simp] theorem State.setSeen_seen : (s.setSeen l).seen = l := rfl
@[simp] theorem State.setSeen_pending : (s.setSeen l).pending = s.pending := rfl
@[simp] theorem State.setSeen_responses : (s.setSeen l).responses = s.responses := rfl
end setSeen

section setElim
variable (dm : Sparse (Sparse Elem)) (pv : List Nat) (rk : RegWord)
@[simp] theorem State.setElim_inst : (s.setElim dm pv rk).inst = s.inst := rfl
@[simp] theorem State.setElim_state : (s.setElim dm pv rk).state = s.state := rfl
@[simp] theorem State.setElim_status : (s.setElim dm pv rk).status = s.status := rfl
@[simp] theorem State.setElim_k : (s.setElim dm pv rk).k = s.k := rfl
@[simp] theorem State.setElim_n : (s.setElim dm pv rk).n = s.n := rfl
@[simp] theorem State.setElim_symsz : (s.setElim dm pv rk).symsz = s.symsz := rfl
@[simp] theorem State.setElim_m : (s.setElim dm pv rk).m = s.m := rfl
@[simp] theorem State.setElim_res : (s.setElim dm pv rk).res = s.res := rfl
@[simp] theorem State.setElim_loaded : (s.setElim dm pv rk).loaded = s.loaded := rfl
@[simp] theorem State.setElim_rxcount : (s.setElim dm pv rk).rxcount = s.rxcount := rfl
@[simp] theorem State.setElim_rank : (s.setElim dm pv rk).rank = rk := rfl
@[simp] theorem State.setElim_iobuf : (s.setElim dm pv rk).iobuf = s.iobuf := rfl
@[simp] theorem State.setElim_vacc : (s.setElim dm pv rk).vacc = s.vacc := rfl
@[simp] theorem State.setElim_sym : (s.setElim dm pv rk).sym = s.sym := rfl
@[simp] theorem State.setElim_srcset : (s.setElim dm pv rk).srcset = s.srcset := rfl
@[simp] theorem State.setElim_d : (s.setElim dm pv rk).d = dm := rfl
@[simp] theorem State.setElim_piv : (s.setElim dm pv rk).piv = pv := rfl
@[simp] theorem State.setElim_seen : (s.setElim dm pv rk).seen = s.seen := rfl
@[simp] theorem State.setElim_pending : (s.setElim dm pv rk).pending = s.pending := rfl
@[simp] theorem State.setElim_responses : (s.setElim dm pv rk).responses = s.responses := rfl
end setElim

section setSession
variable (pm pk pn ps : Nat)
@[simp] theorem State.setSession_inst : (s.setSession pm pk pn ps).inst = s.inst := rfl
@[simp] theorem State.setSession_state : (s.setSession pm pk pn ps).state = s.state := rfl
@[simp] theorem State.setSession_status : (s.setSession pm pk pn ps).status = s.status := rfl
@[simp] theorem State.setSession_k : (s.setSession pm pk pn ps).k = BitVec.ofNat 32 pk := rfl
@[simp] theorem State.setSession_n : (s.setSession pm pk pn ps).n = BitVec.ofNat 32 pn := rfl
@[simp] theorem State.setSession_symsz : (s.setSession pm pk pn ps).symsz = BitVec.ofNat 32 ps := rfl
@[simp] theorem State.setSession_m : (s.setSession pm pk pn ps).m = BitVec.ofNat 32 pm := rfl
@[simp] theorem State.setSession_res : (s.setSession pm pk pn ps).res = s.res := rfl
@[simp] theorem State.setSession_loaded : (s.setSession pm pk pn ps).loaded = s.loaded := rfl
@[simp] theorem State.setSession_rxcount : (s.setSession pm pk pn ps).rxcount = s.rxcount := rfl
@[simp] theorem State.setSession_rank : (s.setSession pm pk pn ps).rank = s.rank := rfl
@[simp] theorem State.setSession_iobuf : (s.setSession pm pk pn ps).iobuf = s.iobuf := rfl
@[simp] theorem State.setSession_vacc : (s.setSession pm pk pn ps).vacc = s.vacc := rfl
@[simp] theorem State.setSession_sym : (s.setSession pm pk pn ps).sym = s.sym := rfl
@[simp] theorem State.setSession_srcset : (s.setSession pm pk pn ps).srcset = s.srcset := rfl
@[simp] theorem State.setSession_d : (s.setSession pm pk pn ps).d = s.d := rfl
@[simp] theorem State.setSession_piv : (s.setSession pm pk pn ps).piv = s.piv := rfl
@[simp] theorem State.setSession_seen : (s.setSession pm pk pn ps).seen = s.seen := rfl
@[simp] theorem State.setSession_pending : (s.setSession pm pk pn ps).pending = s.pending := rfl
@[simp] theorem State.setSession_responses : (s.setSession pm pk pn ps).responses = s.responses := rfl
end setSession

section setPending
variable (l : List Transaction)
@[simp] theorem State.setPending_inst : (s.setPending l).inst = s.inst := rfl
@[simp] theorem State.setPending_state : (s.setPending l).state = s.state := rfl
@[simp] theorem State.setPending_status : (s.setPending l).status = s.status := rfl
@[simp] theorem State.setPending_k : (s.setPending l).k = s.k := rfl
@[simp] theorem State.setPending_n : (s.setPending l).n = s.n := rfl
@[simp] theorem State.setPending_symsz : (s.setPending l).symsz = s.symsz := rfl
@[simp] theorem State.setPending_m : (s.setPending l).m = s.m := rfl
@[simp] theorem State.setPending_res : (s.setPending l).res = s.res := rfl
@[simp] theorem State.setPending_loaded : (s.setPending l).loaded = s.loaded := rfl
@[simp] theorem State.setPending_rxcount : (s.setPending l).rxcount = s.rxcount := rfl
@[simp] theorem State.setPending_rank : (s.setPending l).rank = s.rank := rfl
@[simp] theorem State.setPending_iobuf : (s.setPending l).iobuf = s.iobuf := rfl
@[simp] theorem State.setPending_vacc : (s.setPending l).vacc = s.vacc := rfl
@[simp] theorem State.setPending_sym : (s.setPending l).sym = s.sym := rfl
@[simp] theorem State.setPending_srcset : (s.setPending l).srcset = s.srcset := rfl
@[simp] theorem State.setPending_d : (s.setPending l).d = s.d := rfl
@[simp] theorem State.setPending_piv : (s.setPending l).piv = s.piv := rfl
@[simp] theorem State.setPending_seen : (s.setPending l).seen = s.seen := rfl
@[simp] theorem State.setPending_pending : (s.setPending l).pending = l := rfl
@[simp] theorem State.setPending_responses : (s.setPending l).responses = s.responses := rfl
end setPending

section respond
variable (r : Response)
@[simp] theorem State.respond_inst : (s.respond r).inst = s.inst := rfl
@[simp] theorem State.respond_state : (s.respond r).state = s.state := rfl
@[simp] theorem State.respond_status : (s.respond r).status = s.status := rfl
@[simp] theorem State.respond_k : (s.respond r).k = s.k := rfl
@[simp] theorem State.respond_n : (s.respond r).n = s.n := rfl
@[simp] theorem State.respond_symsz : (s.respond r).symsz = s.symsz := rfl
@[simp] theorem State.respond_m : (s.respond r).m = s.m := rfl
@[simp] theorem State.respond_res : (s.respond r).res = s.res := rfl
@[simp] theorem State.respond_loaded : (s.respond r).loaded = s.loaded := rfl
@[simp] theorem State.respond_rxcount : (s.respond r).rxcount = s.rxcount := rfl
@[simp] theorem State.respond_rank : (s.respond r).rank = s.rank := rfl
@[simp] theorem State.respond_iobuf : (s.respond r).iobuf = s.iobuf := rfl
@[simp] theorem State.respond_vacc : (s.respond r).vacc = s.vacc := rfl
@[simp] theorem State.respond_sym : (s.respond r).sym = s.sym := rfl
@[simp] theorem State.respond_srcset : (s.respond r).srcset = s.srcset := rfl
@[simp] theorem State.respond_d : (s.respond r).d = s.d := rfl
@[simp] theorem State.respond_piv : (s.respond r).piv = s.piv := rfl
@[simp] theorem State.respond_seen : (s.respond r).seen = s.seen := rfl
@[simp] theorem State.respond_pending : (s.respond r).pending = s.pending := rfl
@[simp] theorem State.respond_responses : (s.respond r).responses = r :: s.responses := rfl
end respond

@[simp] theorem toReset_inst : (toReset s).inst = s.inst := rfl
@[simp] theorem toReset_state : (toReset s).state = .idle := rfl
@[simp] theorem toReset_status : (toReset s).status = .ok := rfl
@[simp] theorem toReset_k : (toReset s).k = 0 := rfl
@[simp] theorem toReset_n : (toReset s).n = 0 := rfl
@[simp] theorem toReset_symsz : (toReset s).symsz = 0 := rfl
@[simp] theorem toReset_m : (toReset s).m = 0 := rfl
@[simp] theorem toReset_res : (toReset s).res = 0 := rfl
@[simp] theorem toReset_loaded : (toReset s).loaded = 0 := rfl
@[simp] theorem toReset_rxcount : (toReset s).rxcount = 0 := rfl
@[simp] theorem toReset_rank : (toReset s).rank = 0 := rfl
@[simp] theorem toReset_iobuf : (toReset s).iobuf = [] := rfl
@[simp] theorem toReset_vacc : (toReset s).vacc = [] := rfl
@[simp] theorem toReset_sym : (toReset s).sym = [] := rfl
@[simp] theorem toReset_srcset : (toReset s).srcset = [] := rfl
@[simp] theorem toReset_d : (toReset s).d = [] := rfl
@[simp] theorem toReset_piv : (toReset s).piv = [] := rfl
@[simp] theorem toReset_seen : (toReset s).seen = [] := rfl
@[simp] theorem toReset_pending : (toReset s).pending = s.pending := rfl
@[simp] theorem toReset_responses : (toReset s).responses = s.responses := rfl

end Sys2Proof.Machine
end

