-- ==== Sys2Proof/Laws/Ops.lean ====
section
/-! SUPPORT. For each shared operation of Machine/Ops.lean, one lemma that says everything it can do. -/

namespace Sys2Proof.Machine

theorem finish_eq_next {o : Status} {s t : State} : finish o s = .next t ↔ t = s.setStatus o := by
  simp [finish, eq_comm]

theorem raise_eq_next {o : Status} {s t : State} : raise o s = .next t ↔ t = s.setStatus o := by
  simp [raise, eq_comm]

theorem internalFault_eq_next {s t : State} :
    internalFault s = .next t ↔ t = (s.setState .faulted).setStatus .error := by
  simp [internalFault, eq_comm]

/-- A guarded command either ends with the failed check's outcome or goes on. -/
theorem guarded_eq_next {check : Option Status} {s t : State} {body : Host.Outcome State Fault Refusal} :
    guarded check s body = .next t ↔
      (∃ o, check = some o ∧ t = s.setStatus o) ∨ (check = none ∧ body = .next t) := by
  cases check <;> simp [guarded, raise_eq_next]

@[simp] theorem guarded_none (s : State) (body : Host.Outcome State Fault Refusal) :
    guarded none s body = body := rfl

@[simp] theorem guarded_some (o : Status) (s : State) (body : Host.Outcome State Fault Refusal) :
    guarded (some o) s body = .next (s.setStatus o) := rfl

theorem faultCheck_eq_none {s : State} : faultCheck s = none ↔ s.state ≠ .faulted := by
  unfold faultCheck
  cases h : s.state <;> simp

theorem faultCheck_eq_some {s : State} {o : Status} :
    faultCheck s = some o ↔ s.state = .faulted ∧ o = .error := by
  unfold faultCheck
  cases h : s.state <;> simp [eq_comm]

theorem idleCheck_eq_none {s : State} : idleCheck s = none ↔ s.state = .idle := by
  unfold idleCheck
  cases h : s.state <;> simp

theorem idleCheck_eq_some {s : State} {o : Status} :
    idleCheck s = some o ↔
      (s.state = .faulted ∧ o = .error) ∨
        (s.state ≠ .faulted ∧ s.state ≠ .idle ∧ o = .alreadyInitialized) := by
  unfold idleCheck
  cases h : s.state <;> simp [eq_comm]

theorem sessionCheck_eq_none {allowed : List SessionState} {s : State} :
    sessionCheck allowed s = none ↔ s.state ≠ .faulted ∧ s.state ≠ .idle ∧ s.state ∈ allowed := by
  unfold sessionCheck
  cases h : s.state <;> simp

theorem sessionCheck_eq_some {allowed : List SessionState} {s : State} {o : Status} :
    sessionCheck allowed s = some o ↔
      (s.state = .faulted ∧ o = .error) ∨ (s.state = .idle ∧ o = .notInitialized) ∨
        (s.state ≠ .faulted ∧ s.state ≠ .idle ∧ s.state ∉ allowed ∧ o = .badState) := by
  unfold sessionCheck
  cases h : s.state <;> simp [eq_comm]

/-- The symbol in IOBUF is SYMSZ bytes long. -/
@[simp] theorem length_iobufSymbol (s : State) : (iobufSymbol s).length = symszOf s := by
  simp [iobufSymbol]

@[simp] theorem length_vaccSymbol (s : State) : (vaccSymbol s).length = symszOf s := by
  simp [vaccSymbol]

@[simp] theorem length_slotSymbol (s : State) (i : Nat) : (slotSymbol s i).length = symszOf s := by
  simp [slotSymbol, slotBytes]

/-- The bytes of the symbol in IOBUF. -/
theorem getD_iobufSymbol (s : State) (o : Nat) :
    (iobufSymbol s).getD o 0 = if o < symszOf s then s.iobuf.read o else 0 := by
  simpa [iobufSymbol] using Memory.getD_readBytes s.iobuf 0 (symszOf s) o

/-- The bytes of the symbol in VACC. -/
theorem getD_vaccSymbol (s : State) (o : Nat) :
    (vaccSymbol s).getD o 0 = if o < symszOf s then s.vacc.read o else 0 := by
  simpa [vaccSymbol] using Memory.getD_readBytes s.vacc 0 (symszOf s) o

/-- The bytes of the symbol in a slot. -/
theorem getD_slotSymbol (s : State) (i o : Nat) :
    (slotSymbol s i).getD o 0 = if o < symszOf s then (slotOf s.sym i).read o else 0 := by
  simpa [slotSymbol, slotBytes] using Memory.getD_readBytes (slotOf s.sym i) 0 (symszOf s) o

/-- The symbol store after copying IOBUF into slot i. -/
theorem storeSlot_read {s : State} (h : symWf s.sym = true) (i a o : Nat) :
    (slotOf (storeSlot i s).sym a).read o =
      if a = i ∧ o < symszOf s then s.iobuf.read o else (slotOf s.sym a).read o := by
  rw [storeSlot, State.setSym_sym, read_writeSlot h, length_iobufSymbol]
  split
  · rename_i hh
    rw [getD_iobufSymbol, if_pos hh.2]
  · rfl

/-- IOBUF after copying slot i into it. -/
theorem outputSlot_read {s : State} (h : s.iobuf.wf = true) (i o : Nat) :
    (outputSlot i s).iobuf.read o = if o < symszOf s then (slotOf s.sym i).read o else s.iobuf.read o := by
  rw [outputSlot, State.setIobuf_iobuf, Memory.read_writeBytes h, length_slotSymbol]
  by_cases hh : o < symszOf s
  · rw [if_pos (by omega), if_pos hh, Nat.sub_zero, getD_slotSymbol, if_pos hh]
  · rw [if_neg (by omega), if_neg hh]

/-- VACC after writing a list of bytes into it. -/
theorem storeVacc_read {s : State} (h : s.vacc.wf = true) (bs : List Byte) (o : Nat) :
    (storeVacc bs s).vacc.read o = if o < bs.length then bs.getD o 0 else s.vacc.read o := by
  rw [storeVacc, State.setVacc_vacc, Memory.read_writeBytes h]
  by_cases hh : o < bs.length
  · rw [if_pos (by omega), if_pos hh, Nat.sub_zero]
  · rw [if_neg (by omega), if_neg hh]

/-- Reading a register gives one of two responses and changes nothing else. -/
theorem doRegrd_eq (r : BitVec 8) (s : State) :
    doRegrd r s = s.respond (match regValue s r with | some v => .regValue v | none => .buserr) := by
  unfold doRegrd
  split <;> simp_all

/-- A register number is defined exactly when it is at most 12. -/
theorem regValue_eq_none (s : State) (r : BitVec 8) : regValue s r = none ↔ 13 ≤ r.toNat := by
  unfold regValue
  split <;> simp_all
  omega

/-- A buffer write either writes one byte or is answered buserr. -/
theorem doBufwr_cases (o : BitVec 32) (v : Byte) (s : State) :
    (o.toNat < s.inst.symszMax ∧
        doBufwr o v s = (s.setIobuf (s.iobuf.write o.toNat v)).respond .written) ∨
      (s.inst.symszMax ≤ o.toNat ∧ doBufwr o v s = s.respond .buserr) := by
  unfold doBufwr
  split
  · exact .inl ⟨‹_›, rfl⟩
  · exact .inr ⟨by omega, rfl⟩

/-- A buffer read changes nothing but the responses. -/
theorem doBufrd_cases (o : BitVec 32) (s : State) :
    (o.toNat < s.inst.symszMax ∧ doBufrd o s = s.respond (.byteValue (s.iobuf.read o.toNat))) ∨
      (s.inst.symszMax ≤ o.toNat ∧ doBufrd o s = s.respond .buserr) := by
  unfold doBufrd
  split
  · exact .inl ⟨‹_›, rfl⟩
  · exact .inr ⟨by omega, rfl⟩

end Sys2Proof.Machine
end

