-- ==== Sys2Proof/Laws/Exec.lean ====
section
/-! SUPPORT. One inversion lemma per meaning, per shared part of one, and for a step: what the next state
can be. -/

namespace Sys2Proof.Machine

variable {s t : State}

/-- The shape of a meaning with one operand check. -/
theorem guarded_ite_next {check : Option Status} {c : Prop} [Decidable c] {o : Status}
    {body : Host.Outcome State Fault Refusal}
    (h : guarded check s (if c then body else raise o s) = .next t) :
    (∃ o', check = some o' ∧ t = s.setStatus o') ∨ (check = none ∧ ¬c ∧ t = s.setStatus o) ∨
      (check = none ∧ c ∧ body = .next t) := by
  rcases guarded_eq_next.1 h with h | ⟨hc, h⟩
  · exact .inl h
  · split at h
    · exact .inr (.inr ⟨hc, ‹_›, h⟩)
    · exact .inr (.inl ⟨hc, ‹_›, raise_eq_next.1 h⟩)

theorem execNop_next (h : execNop s = .next t) :
    (s.state = .faulted ∧ t = s.setStatus .error) ∨ (s.state ≠ .faulted ∧ t = s.setStatus .ok) := by
  rcases guarded_eq_next.1 h with ⟨o, hc, rfl⟩ | ⟨hc, h⟩
  · obtain ⟨hs, rfl⟩ := faultCheck_eq_some.1 hc
    exact .inl ⟨hs, rfl⟩
  · exact .inr ⟨faultCheck_eq_none.1 hc, finish_eq_next.1 h⟩

theorem execReset_next (h : execReset s = .next t) : t = (toReset s).setStatus .ok :=
  finish_eq_next.1 h

theorem execInitEnc_next {m k n z : Nat} (h : execInitEnc m k n z s = .next t) :
    (∃ o, idleCheck s = some o ∧ t = s.setStatus o) ∨
      (idleCheck s = none ∧ ¬validParams s.inst m k n z = true ∧ t = s.setStatus .invalidParameters) ∨
      (idleCheck s = none ∧ validParams s.inst m k n z = true ∧
        t = ((((s.setSession m k n z).setSym []).setSrcset []).setState .encLoad).setStatus .ok) := by
  simpa only [finish_eq_next] using guarded_ite_next h

theorem execPut_next {slot : Nat} (h : execPut slot s = .next t) :
    (∃ o, sessionCheck [.encLoad] s = some o ∧ t = s.setStatus o) ∨
      (sessionCheck [.encLoad] s = none ∧ ¬slot < kOf s ∧ t = s.setStatus .invalidSymbolIndex) ∨
      (sessionCheck [.encLoad] s = none ∧ slot < kOf s ∧
        t = ((storeSlot slot s).setSrcset (indexInsert s.srcset slot)).setStatus .ok) := by
  simpa only [finish_eq_next] using guarded_ite_next h

theorem execEncode_next (h : execEncode s = .next t) :
    (∃ o, sessionCheck [.encLoad, .encReady] s = some o ∧ t = s.setStatus o) ∨
      (s.state = .encReady ∧ t = s.setStatus .ok) ∨
      (s.state = .encLoad ∧ s.loaded ≠ s.k ∧ t = s.setStatus .badState) ∨
      (s.state = .encLoad ∧ s.loaded = s.k ∧ gen (mOf s) (kOf s) (nOf s) = none ∧
        t = (s.setState .faulted).setStatus .error) ∨
      (s.state = .encLoad ∧ s.loaded = s.k ∧ ∃ g, gen (mOf s) (kOf s) (nOf s) = some g ∧
        t = ((s.setSym (encodeSlots (mOf s) (kOf s) (symszOf s) g
          (List.range' (kOf s) (nOf s - kOf s)) s.sym)).setState .encReady).setStatus .ok) := by
  rcases guarded_eq_next.1 h with h | ⟨hc, h⟩
  · exact .inl h
  · have hs := (sessionCheck_eq_none.1 hc).2.2
    simp only [List.mem_cons, List.not_mem_nil, or_false] at hs
    split at h
    · exact .inr (.inl ⟨‹_›, finish_eq_next.1 h⟩)
    · have hl : s.state = .encLoad := hs.resolve_right ‹_›
      split at h
      · split at h
        · exact .inr (.inr (.inr (.inl ⟨hl, ‹_›, ‹_›, internalFault_eq_next.1 h⟩)))
        · exact .inr (.inr (.inr (.inr ⟨hl, ‹_›, _, ‹_›, finish_eq_next.1 h⟩)))
      · exact .inr (.inr (.inl ⟨hl, ‹_›, raise_eq_next.1 h⟩))

theorem execGet_next {esi : Nat} (h : execGet esi s = .next t) :
    (∃ o, sessionCheck [.encReady] s = some o ∧ t = s.setStatus o) ∨
      (sessionCheck [.encReady] s = none ∧ ¬esi < nOf s ∧ t = s.setStatus .invalidSymbolIndex) ∨
      (sessionCheck [.encReady] s = none ∧ esi < nOf s ∧ t = (outputSlot esi s).setStatus .ok) := by
  simpa only [finish_eq_next] using guarded_ite_next h

theorem execInitDec_next {m k n z : Nat} (h : execInitDec m k n z s = .next t) :
    (∃ o, idleCheck s = some o ∧ t = s.setStatus o) ∨
      (idleCheck s = none ∧ ¬validParams s.inst m k n z = true ∧ t = s.setStatus .invalidParameters) ∨
      (idleCheck s = none ∧ validParams s.inst m k n z = true ∧
        t = (((((s.setSession m k n z).setSym []).setElim [] [] 0).setSeen []).setState .decAcc).setStatus
          .ok) := by
  simpa only [finish_eq_next] using guarded_ite_next h

/-- Storing an equation writes D and SYM and nothing else. -/
theorem storeEquation_frame (p : Nat) (e : Equation) (s : State) :
    storeEquation p e s =
      (s.setElim (storeEquation p e s).d s.piv s.rank).setSym (storeEquation p e s).sym := rfl

/-- Clearing a column from a stored row writes D and SYM and nothing else. -/
theorem clearStored_frame (q : Nat) (e : Equation) (s : State) (p : Nat) :
    clearStored q e s p = (s.setElim (clearStored q e s p).d s.piv s.rank).setSym (clearStored q e s p).sym := by
  unfold clearStored
  split
  · rfl
  · rfl

theorem foldl_clearStored_frame (q : Nat) (e : Equation) (l : List Nat) (s : State) :
    l.foldl (clearStored q e) s =
      (s.setElim (l.foldl (clearStored q e) s).d s.piv s.rank).setSym (l.foldl (clearStored q e) s).sym := by
  induction l generalizing s with
  | nil => rfl
  | cons p l ih =>
    have h1 := clearStored_frame q e s p
    have h2 := ih (clearStored q e s p)
    simp only [List.foldl_cons]
    rw [h2]
    rw [h1]
    rfl

/-- Inserting an equation writes D, SYM, PIV and RANK and nothing else. -/
theorem insertEquation_frame (q : Nat) (e : Equation) (s : State) :
    insertEquation q e s =
      (s.setElim (insertEquation q e s).d (indexInsert s.piv q) (s.rank + 1)).setSym
        (insertEquation q e s).sym := by
  simp only [insertEquation, storeEquation]
  rw [foldl_clearStored_frame]
  rfl

/-- What the elimination step can do: nothing, where the equation reduces to zero; else one insertion at
the leading column of what is left. -/
theorem decInsert_some {e : Equation} (h : decInsert e s = some t) :
    (leadingColumn (reduceEquation s e).1 = none ∧ t = s) ∨
      ∃ q v, leadingColumn (reduceEquation s e).1 = some q ∧
        gfInv (mOf s) (rowElem (reduceEquation s e).1 q) = some v ∧
        t = insertEquation q
          (vecMul (mOf s) v (reduceEquation s e).1, vecMul (mOf s) v (reduceEquation s e).2) s := by
  simp only [decInsert] at h
  split at h
  · exact .inl ⟨‹_›, (Option.some.inj h).symm⟩
  · split at h
    · cases h
    · exact .inr ⟨_, _, ‹_›, ‹_›, (Option.some.inj h).symm⟩

/-- The leading column is a column of the row, its element is not zero, and the elements before it are. -/
theorem leadingColumn_some {row : List Elem} {q : Nat} (h : leadingColumn row = some q) :
    q < row.length ∧ rowElem row q ≠ 0 ∧ ∀ c < q, rowElem row c = 0 := by
  obtain ⟨h1, h2, h3⟩ := List.find?_range_eq_some.1 h
  refine ⟨List.mem_range.1 h2, by simpa using h1, fun c hc => ?_⟩
  have := h3 c hc
  simpa using this

/-- A row without a leading column is zero. -/
theorem leadingColumn_none {row : List Elem} (h : leadingColumn row = none) (c : Nat) :
    rowElem row c = 0 := by
  by_cases hc : c < row.length
  · have := List.find?_eq_none.1 h c (List.mem_range.2 hc)
    simpa using this
  · simp [rowElem, List.getD_eq_getElem?_getD, hc]

/-- Step c never takes the inverse of 0, so the elimination step never faults (R243). -/
theorem decInsert_ne_none (e : Equation) (s : State) : decInsert e s ≠ none := by
  simp only [decInsert]
  split
  · simp
  · rename_i q hq
    split
    · rename_i hv
      exact absurd (gfInv_eq_none.1 hv) (leadingColumn_some hq).2.1
    · simp

theorem acceptOutcome_next (h : acceptOutcome s = .next t) :
    (s.rank = s.k ∧ t = (s.setState .decDone).setStatus .complete) ∨
      (s.rank ≠ s.k ∧ t = s.setStatus .incomplete) := by
  simp only [acceptOutcome] at h
  split at h
  · exact .inl ⟨‹_›, finish_eq_next.1 h⟩
  · exact .inr ⟨‹_›, finish_eq_next.1 h⟩

theorem acceptNew_next {esi : Nat} (h : acceptNew esi s = .next t) :
    (genRow (mOf s) (kOf s) esi = none ∧
        t = ((s.setSeen (indexInsert s.seen esi)).setState .faulted).setStatus .error) ∨
      ∃ row u, genRow (mOf s) (kOf s) esi = some row ∧
        decInsert (row, unpack (mOf s) (iobufSymbol s)) (s.setSeen (indexInsert s.seen esi)) = some u ∧
        acceptOutcome u = .next t := by
  simp only [acceptNew] at h
  split at h
  · exact .inl ⟨‹_›, internalFault_eq_next.1 h⟩
  · split at h
    · rename_i hd
      exact absurd hd (decInsert_ne_none _ _)
    · exact .inr ⟨_, _, ‹_›, ‹_›, h⟩

theorem execAccept_next {esi : Nat} (h : execAccept esi s = .next t) :
    (∃ o, sessionCheck [.decAcc, .decDone] s = some o ∧ t = s.setStatus o) ∨
      (sessionCheck [.decAcc, .decDone] s = none ∧ ¬esi < nOf s ∧ t = s.setStatus .invalidSymbolIndex) ∨
      (s.state = .decDone ∧ esi < nOf s ∧ t = s.setStatus .complete) ∨
      (s.state = .decAcc ∧ esi < nOf s ∧ esi ∈ s.seen ∧ t = s.setStatus .incomplete) ∨
      (s.state = .decAcc ∧ esi < nOf s ∧ esi ∉ s.seen ∧ acceptNew esi s = .next t) := by
  rcases guarded_ite_next h with h | h | ⟨hc, hn, h⟩
  · exact .inl h
  · exact .inr (.inl h)
  · have hs := (sessionCheck_eq_none.1 hc).2.2
    simp only [List.mem_cons, List.not_mem_nil, or_false] at hs
    split at h
    · exact .inr (.inr (.inl ⟨‹_›, hn, finish_eq_next.1 h⟩))
    · have hl : s.state = .decAcc := hs.resolve_right ‹_›
      split at h
      · exact .inr (.inr (.inr (.inl ⟨hl, hn, ‹_›, finish_eq_next.1 h⟩)))
      · exact .inr (.inr (.inr (.inr ⟨hl, hn, ‹_›, h⟩)))

theorem execGetsrc_next {j : Nat} (h : execGetsrc j s = .next t) :
    (∃ o, sessionCheck [.decDone] s = some o ∧ t = s.setStatus o) ∨
      (sessionCheck [.decDone] s = none ∧ ¬j < kOf s ∧ t = s.setStatus .invalidSymbolIndex) ∨
      (sessionCheck [.decDone] s = none ∧ j < kOf s ∧ t = (outputSlot j s).setStatus .ok) := by
  simpa only [finish_eq_next] using guarded_ite_next h

theorem execDget_next {row col : Nat} (h : execDget row col s = .next t) :
    (∃ o, sessionCheck [.decAcc, .decDone] s = some o ∧ t = s.setStatus o) ∨
      (sessionCheck [.decAcc, .decDone] s = none ∧ ¬(row < kOf s ∧ col < kOf s) ∧
        t = s.setStatus .invalidOperand) ∨
      (sessionCheck [.decAcc, .decDone] s = none ∧ (row < kOf s ∧ col < kOf s) ∧
        t = (s.setRes (resOfElem (matrixGet s.d row col))).setStatus .ok) := by
  simpa only [finish_eq_next] using guarded_ite_next h

theorem execDpiv_next {row : Nat} (h : execDpiv row s = .next t) :
    (∃ o, sessionCheck [.decAcc, .decDone] s = some o ∧ t = s.setStatus o) ∨
      (sessionCheck [.decAcc, .decDone] s = none ∧ ¬row < kOf s ∧ t = s.setStatus .invalidOperand) ∨
      (sessionCheck [.decAcc, .decDone] s = none ∧ row < kOf s ∧
        t = (s.setRes (resOfFlag (s.piv.contains row))).setStatus .ok) := by
  simpa only [finish_eq_next] using guarded_ite_next h

theorem execSeenq_next {esi : Nat} (h : execSeenq esi s = .next t) :
    (∃ o, sessionCheck [.decAcc, .decDone] s = some o ∧ t = s.setStatus o) ∨
      (sessionCheck [.decAcc, .decDone] s = none ∧ ¬esi < nOf s ∧ t = s.setStatus .invalidSymbolIndex) ∨
      (sessionCheck [.decAcc, .decDone] s = none ∧ esi < nOf s ∧
        t = (s.setRes (resOfFlag (s.seen.contains esi))).setStatus .ok) := by
  simpa only [finish_eq_next] using guarded_ite_next h

theorem execGfadd_next {m x y : Nat} (h : execGfadd m x y s = .next t) :
    (∃ o, faultCheck s = some o ∧ t = s.setStatus o) ∨
      (faultCheck s = none ∧ ¬gfOperandsOk s.inst m x y = true ∧ t = s.setStatus .invalidOperand) ∨
      (faultCheck s = none ∧ gfOperandsOk s.inst m x y = true ∧
        t = (s.setRes (resOfElem (gfAdd (elemOf x) (elemOf y)))).setStatus .ok) := by
  simpa only [finish_eq_next] using guarded_ite_next h

theorem execGfmul_next {m x y : Nat} (h : execGfmul m x y s = .next t) :
    (∃ o, faultCheck s = some o ∧ t = s.setStatus o) ∨
      (faultCheck s = none ∧ ¬gfOperandsOk s.inst m x y = true ∧ t = s.setStatus .invalidOperand) ∨
      (faultCheck s = none ∧ gfOperandsOk s.inst m x y = true ∧
        t = (s.setRes (resOfElem (gfMul m (elemOf x) (elemOf y)))).setStatus .ok) := by
  simpa only [finish_eq_next] using guarded_ite_next h

theorem execGfinv_next {m x : Nat} (h : execGfinv m x s = .next t) :
    (∃ o, faultCheck s = some o ∧ t = s.setStatus o) ∨
      (faultCheck s = none ∧ ¬(gfInvOperandOk s.inst m x = true ∧ gfInv m (elemOf x) ≠ none) ∧
        t = s.setStatus .invalidOperand) ∨
      (faultCheck s = none ∧ gfInvOperandOk s.inst m x = true ∧ ∃ v, gfInv m (elemOf x) = some v ∧
        t = (s.setRes (resOfElem v)).setStatus .ok) := by
  rcases guarded_ite_next h with h | ⟨hc, ho, h⟩ | ⟨hc, ho, h⟩
  · exact .inl h
  · exact .inr (.inl ⟨hc, fun hh => ho hh.1, h⟩)
  · split at h
    · exact .inr (.inr ⟨hc, ho, _, ‹_›, finish_eq_next.1 h⟩)
    · exact .inr (.inl ⟨hc, fun hh => hh.2 ‹_›, raise_eq_next.1 h⟩)

theorem execVclr_next (h : execVclr s = .next t) :
    (∃ o, sessionCheck anySession s = some o ∧ t = s.setStatus o) ∨
      (sessionCheck anySession s = none ∧
        t = (storeVacc (List.replicate (symszOf s) 0) s).setStatus .ok) := by
  simpa only [finish_eq_next] using guarded_eq_next.1 h

theorem execVaddmul_next {coef : Nat} (h : execVaddmul coef s = .next t) :
    (∃ o, sessionCheck anySession s = some o ∧ t = s.setStatus o) ∨
      (sessionCheck anySession s = none ∧ ¬isElement (mOf s) coef = true ∧
        t = s.setStatus .invalidOperand) ∨
      (sessionCheck anySession s = none ∧ isElement (mOf s) coef = true ∧
        t = (storeVacc (pack (mOf s) (vecAddMul (mOf s) (unpack (mOf s) (vaccSymbol s)) (elemOf coef)
          (unpack (mOf s) (iobufSymbol s))) (symszOf s)) s).setStatus .ok) := by
  simpa only [finish_eq_next] using guarded_ite_next h

theorem execVscale_next {coef : Nat} (h : execVscale coef s = .next t) :
    (∃ o, sessionCheck anySession s = some o ∧ t = s.setStatus o) ∨
      (sessionCheck anySession s = none ∧ ¬isElement (mOf s) coef = true ∧
        t = s.setStatus .invalidOperand) ∨
      (sessionCheck anySession s = none ∧ isElement (mOf s) coef = true ∧
        t = (storeVacc (pack (mOf s) (vecMul (mOf s) (elemOf coef)
          (unpack (mOf s) (vaccSymbol s))) (symszOf s)) s).setStatus .ok) := by
  simpa only [finish_eq_next] using guarded_ite_next h

theorem execVout_next (h : execVout s = .next t) :
    (∃ o, sessionCheck anySession s = some o ∧ t = s.setStatus o) ∨
      (sessionCheck anySession s = none ∧
        t = (s.setIobuf (s.iobuf.writeBytes 0 (vaccSymbol s))).setStatus .ok) := by
  simpa only [finish_eq_next] using guarded_eq_next.1 h

theorem execGget_next {esi col : Nat} (h : execGget esi col s = .next t) :
    (∃ o, sessionCheck [.encLoad, .encReady, .decAcc, .decDone] s = some o ∧ t = s.setStatus o) ∨
      (sessionCheck [.encLoad, .encReady, .decAcc, .decDone] s = none ∧
        ((¬esi < nOf s ∧ t = s.setStatus .invalidSymbolIndex) ∨
          (esi < nOf s ∧ ¬col < kOf s ∧ t = s.setStatus .invalidOperand) ∨
          (esi < nOf s ∧ col < kOf s ∧ genRow (mOf s) (kOf s) esi = none ∧
            t = (s.setState .faulted).setStatus .error) ∨
          (esi < nOf s ∧ col < kOf s ∧ ∃ row, genRow (mOf s) (kOf s) esi = some row ∧
            t = (s.setRes (resOfElem (rowElem row col))).setStatus .ok))) := by
  rcases guarded_ite_next h with h | ⟨hc, hn, h⟩ | ⟨hc, hn, h⟩
  · exact .inl h
  · exact .inr ⟨hc, .inl ⟨hn, h⟩⟩
  · split at h
    · split at h
      · exact .inr ⟨hc, .inr (.inr (.inl ⟨hn, ‹_›, ‹_›, internalFault_eq_next.1 h⟩))⟩
      · exact .inr ⟨hc, .inr (.inr (.inr ⟨hn, ‹_›, _, ‹_›, finish_eq_next.1 h⟩))⟩
    · exact .inr ⟨hc, .inr (.inl ⟨hn, ‹_›, raise_eq_next.1 h⟩)⟩

/-- A word is executed as the command it decodes to, or refused. -/
theorem runCommand_next {w : CmdWord} (h : runCommand w s = .next t) :
    (∃ i, decode w = .ok i ∧ exec i s = .next t) ∨
      ((∃ e, decode w = .error e) ∧ t = s.setStatus .illegalCommand) := by
  unfold runCommand at h
  split at h
  · exact .inl ⟨_, ‹_›, h⟩
  · exact .inr ⟨⟨_, ‹_›⟩, raise_eq_next.1 h⟩

theorem answerCommand_next {r : Host.Outcome State Fault Refusal} (h : answerCommand r = .next t) :
    ∃ u, r = .next u ∧ t = u.respond (.outcome u.status) := by
  cases r with
  | next u =>
    simp only [answerCommand, Host.Outcome.next.injEq] at h
    exact ⟨u, rfl, h.symm⟩
  | fault r => simp [answerCommand] at h
  | refused r => simp [answerCommand] at h

/-- What a transaction can do. -/
theorem transact_next {x : Transaction} (h : transact x s = .next t) :
    (∃ w u, x = .cmd w ∧ runCommand w s = .next u ∧ t = u.respond (.outcome u.status)) ∨
      (∃ r, x = .regrd r ∧ t = doRegrd r s) ∨ (∃ o v, x = .bufwr o v ∧ t = doBufwr o v s) ∨
      (∃ o, x = .bufrd o ∧ t = doBufrd o s) ∨ (x = .hwReset ∧ t = toReset s) := by
  cases x with
  | cmd w =>
    obtain ⟨u, hu, ht⟩ := answerCommand_next h
    exact .inl ⟨w, u, rfl, hu, ht⟩
  | regrd r =>
    simp only [transact, Host.Outcome.next.injEq] at h
    exact .inr (.inl ⟨r, rfl, h.symm⟩)
  | bufwr o v =>
    simp only [transact, Host.Outcome.next.injEq] at h
    exact .inr (.inr (.inl ⟨o, v, rfl, h.symm⟩))
  | bufrd o =>
    simp only [transact, Host.Outcome.next.injEq] at h
    exact .inr (.inr (.inr (.inl ⟨o, rfl, h.symm⟩)))
  | hwReset =>
    simp only [transact, Host.Outcome.next.injEq] at h
    exact .inr (.inr (.inr (.inr ⟨rfl, h.symm⟩)))

/-- What a step can do: nothing, where the host has nothing pending; else the oldest transaction. -/
theorem step_next (h : step s = .next t) :
    (s.pending = [] ∧ t = s) ∨
      ∃ x ts, s.pending = x :: ts ∧ transact x (s.setPending ts) = .next t := by
  simp only [step, performNext] at h
  split at h
  · exact .inl ⟨‹_›, by simpa using h.symm⟩
  · exact .inr ⟨_, _, ‹_›, h⟩

end Sys2Proof.Machine
end

