-- ==== Sys2Proof/Laws/PerInstr.lean ====
section
/-! SUPPORT. Statements about every command, made per command: the fields of a well-formed command's word
are its opcode's byte, zero in rsv, and its operands. -/

namespace Sys2Proof.Laws

/-- The word of a well-formed command carries its opcode and its operands, each in its field. -/
def EncodedFields.Statement (i : Instr) : Prop :=
  i.wellFormed = true →
    opField (encode i) = opcodeByte i.opcode ∧ rsvField (encode i) = 0 ∧
      (mfField (encode i)).toNat = (operandsOf i).1 ∧ (aField (encode i)).toNat = (operandsOf i).2.1 ∧
      (bField (encode i)).toNat = (operandsOf i).2.2.1 ∧ (cField (encode i)).toNat = (operandsOf i).2.2.2

/-- The operands of a well-formed command fit their fields (R93). -/
theorem operandsOf_fit {i : Instr} (h : i.wellFormed = true) :
    (operandsOf i).1 < 2 ^ 5 ∧ (operandsOf i).2.1 < 2 ^ 32 ∧ (operandsOf i).2.2.1 < 2 ^ 32 ∧
      (operandsOf i).2.2.2 < 2 ^ 32 := by
  cases i <;>
    simp only [Instr.wellFormed, fitsMf, fitsOperand, Bool.and_eq_true, decide_eq_true_eq] at h <;>
    refine ⟨?_, ?_, ?_, ?_⟩ <;> simp only [operandsOf] <;> omega

theorem encodedFields_of_wellFormed (i : Instr) : EncodedFields.Statement i := fun h => by
  obtain ⟨hm, ha, hb, hc⟩ := operandsOf_fit h
  have hf := fields_packWord (opcodeByte i.opcode).isLt hm ha hb hc
  rw [BitVec.ofNat_toNat, BitVec.setWidth_eq] at hf
  exact hf

theorem EncodedFields.nop : EncodedFields.Statement .nop :=
  encodedFields_of_wellFormed _

theorem EncodedFields.reset : EncodedFields.Statement .reset :=
  encodedFields_of_wellFormed _

theorem EncodedFields.initEnc (m k n symsz : Nat) : EncodedFields.Statement (.initEnc m k n symsz) :=
  encodedFields_of_wellFormed _

theorem EncodedFields.put (slot : Nat) : EncodedFields.Statement (.put slot) :=
  encodedFields_of_wellFormed _

theorem EncodedFields.encode : EncodedFields.Statement .encode :=
  encodedFields_of_wellFormed _

theorem EncodedFields.get (esi : Nat) : EncodedFields.Statement (.get esi) :=
  encodedFields_of_wellFormed _

theorem EncodedFields.initDec (m k n symsz : Nat) : EncodedFields.Statement (.initDec m k n symsz) :=
  encodedFields_of_wellFormed _

theorem EncodedFields.accept (esi : Nat) : EncodedFields.Statement (.accept esi) :=
  encodedFields_of_wellFormed _

theorem EncodedFields.getsrc (j : Nat) : EncodedFields.Statement (.getsrc j) :=
  encodedFields_of_wellFormed _

theorem EncodedFields.dget (row col : Nat) : EncodedFields.Statement (.dget row col) :=
  encodedFields_of_wellFormed _

theorem EncodedFields.dpiv (row : Nat) : EncodedFields.Statement (.dpiv row) :=
  encodedFields_of_wellFormed _

theorem EncodedFields.seenq (esi : Nat) : EncodedFields.Statement (.seenq esi) :=
  encodedFields_of_wellFormed _

theorem EncodedFields.gfadd (m x y : Nat) : EncodedFields.Statement (.gfadd m x y) :=
  encodedFields_of_wellFormed _

theorem EncodedFields.gfmul (m x y : Nat) : EncodedFields.Statement (.gfmul m x y) :=
  encodedFields_of_wellFormed _

theorem EncodedFields.gfinv (m x : Nat) : EncodedFields.Statement (.gfinv m x) :=
  encodedFields_of_wellFormed _

theorem EncodedFields.vclr : EncodedFields.Statement .vclr :=
  encodedFields_of_wellFormed _

theorem EncodedFields.vaddmul (coef : Nat) : EncodedFields.Statement (.vaddmul coef) :=
  encodedFields_of_wellFormed _

theorem EncodedFields.vscale (coef : Nat) : EncodedFields.Statement (.vscale coef) :=
  encodedFields_of_wellFormed _

theorem EncodedFields.vout : EncodedFields.Statement .vout :=
  encodedFields_of_wellFormed _

theorem EncodedFields.gget (esi col : Nat) : EncodedFields.Statement (.gget esi col) :=
  encodedFields_of_wellFormed _

end Sys2Proof.Laws
end

