-- ==== Sys2Proof/Machine/Listing.lean ====
section
/-! DEFINITION. The listing notation's host directives and pseudo-instructions as sequences of
transactions (30_encoding.md R99, R100; log 15). -/

namespace Sys2Proof.Machine

/-- A command on the command port. -/
def cmdOf (i : Instr) : Transaction := .cmd (encode i)

/-- `BUFWR off, b0 b1 ...`: one BUFWR per byte, in that order (R99). -/
def bufwrSeq : Nat → List Byte → List Transaction
  | _, [] => []
  | o, b :: bs => .bufwr (BitVec.ofNat 32 o) b :: bufwrSeq (o + 1) bs

/-- `BUFRD off, len`: one BUFRD per byte, in rising order (R99). -/
def bufrdSeq (o len : Nat) : List Transaction :=
  (List.range' o len).map fun i => .bufrd (BitVec.ofNat 32 i)

/-- `LOAD slot, b0 b1 ...` (R100). -/
def loadSeq (slot : Nat) (bs : List Byte) : List Transaction := bufwrSeq 0 bs ++ [cmdOf (.put slot)]

/-- `RECV esi, b0 b1 ...` (R100). -/
def recvSeq (esi : Nat) (bs : List Byte) : List Transaction := bufwrSeq 0 bs ++ [cmdOf (.accept esi)]

/-- `READ esi` in a session of symbols of `size` bytes (R100). -/
def readSeq (size esi : Nat) : List Transaction := cmdOf (.get esi) :: bufrdSeq 0 size

/-- `READSRC j` in a session of symbols of `size` bytes (R100). -/
def readsrcSeq (size j : Nat) : List Transaction := cmdOf (.getsrc j) :: bufrdSeq 0 size

/-- `VMUL coef` (R100). -/
def vmulSeq (coef : Nat) : List Transaction := [cmdOf .vclr, cmdOf (.vaddmul coef)]

/-- `GFSUB m, x, y` (R100). -/
def gfsubSeq (m x y : Nat) : List Transaction := [cmdOf (.gfadd m x y)]

end Sys2Proof.Machine
end

