-- ==== Sys2Proof/Tests/Slice0.lean ====
section
/-! SUPPORT. Tests of the model against values written in spec/ (95_test_vectors.md and the examples in the
rules), the smoke tests of WellFormed.lean, and one witness per statement that has hypotheses: a state and
operands that meet them together. -/

namespace Sys2Proof.Tests

open Sys2Proof.Machine

/-! ### Helpers -/

/-- What `f` reads in the next state of an outcome. -/
def after {α : Type} (o : Host.Outcome State Fault Refusal) (f : State → α) : Option α :=
  match o with
  | .next s => some (f s)
  | .fault _ => none
  | .refused _ => none

theorem after_some {α : Type} {o : Host.Outcome State Fault Refusal} {f : State → α} {v : α}
    (h : after o f = some v) : ∃ t, o = .next t ∧ f t = v := by
  cases o with
  | next s => exact ⟨s, rfl, Option.some.inj h⟩
  | fault r => cases h
  | refused r => cases h

/-- Bytes from offset 0. -/
def memOf (bs : List Byte) : Memory := Memory.writeBytes [] 0 bs

/-- A default instance in a session state, with the session's parameters. -/
def sess (st : SessionState) (m k n z : Nat) : State := (State.reset.setSession m k n z).setState st

/-- 95_test_vectors.md P1 before ENCODE. -/
def p1Loaded : State :=
  { sess .encLoad 8 2 4 4 with
    sym := [(0, memOf [0x01, 0x02, 0x03, 0x04]), (1, memOf [0x10, 0x20, 0x30, 0x40])]
    srcset := [0, 1]
    loaded := 2 }

/-- 95_test_vectors.md P1 after ENCODE. -/
def p1Ready : State :=
  { p1Loaded with
    state := .encReady
    sym := p1Loaded.sym ++
      [(2, memOf [0x23, 0x46, 0x65, 0x8C]), (3, memOf [0x45, 0x8A, 0xCF, 0x09])] }

/-- 95_test_vectors.md P2 before the first ACCEPT 3. -/
def p2Open : State := { sess .decAcc 8 2 4 4 with iobuf := memOf [0x45, 0x8A, 0xCF, 0x09] }

/-- 95_test_vectors.md P2 before ACCEPT 2. -/
def p2Half : State :=
  { sess .decAcc 8 2 4 4 with
    iobuf := memOf [0x23, 0x46, 0x65, 0x8C]
    d := [(0, [(0, 0x01), (1, 0xA6)])]
    piv := [0]
    sym := [(0, memOf [0xB3, 0x7B, 0xC8, 0xF6])]
    seen := [3]
    rxcount := 1
    rank := 1 }

/-- 95_test_vectors.md P2 after ACCEPT 2. -/
def p2Done : State :=
  { p2Half with
    state := .decDone
    d := [(0, [(0, 0x01)]), (1, [(1, 0x01)])]
    piv := [0, 1]
    sym := [(0, memOf [0x01, 0x02, 0x03, 0x04]), (1, memOf [0x10, 0x20, 0x30, 0x40])]
    seen := [2, 3]
    rxcount := 2
    rank := 2 }

/-- A session with bytes in VACC and IOBUF. -/
def vecState (m z : Nat) (vacc iobuf : List Byte) : State :=
  { sess .encLoad m 1 2 z with vacc := memOf vacc, iobuf := memOf iobuf }

/-- A state of a session no run reaches: K = 3 above 2^M = 2, where the points repeat (log 18), so that T is
singular. -/
def singular (st : SessionState) : State := { sess st 1 3 3 1 with loaded := 3 }

/-! ### WellFormed refuses what no word can carry -/

theorem smoke_mf_too_wide :
    (Instr.initEnc 32 2 4 4).wellFormed = false ∧ (Instr.initDec 32 2 4 4).wellFormed = false ∧
    (Instr.gfadd 32 1 1).wellFormed = false ∧ (Instr.gfmul 32 1 1).wellFormed = false ∧
    (Instr.gfinv 32 1).wellFormed = false := by decide

theorem smoke_session_operand_too_wide :
    (Instr.initEnc 8 4294967296 4 4).wellFormed = false ∧
    (Instr.initEnc 8 2 4294967296 4).wellFormed = false ∧
    (Instr.initEnc 8 2 4 4294967296).wellFormed = false ∧
    (Instr.initDec 8 4294967296 4 4).wellFormed = false ∧
    (Instr.initDec 8 2 4294967296 4).wellFormed = false ∧
    (Instr.initDec 8 2 4 4294967296).wellFormed = false := by decide

theorem smoke_index_operand_too_wide :
    (Instr.put 4294967296).wellFormed = false ∧ (Instr.get 4294967296).wellFormed = false ∧
    (Instr.accept 4294967296).wellFormed = false ∧ (Instr.getsrc 4294967296).wellFormed = false ∧
    (Instr.dget 4294967296 0).wellFormed = false ∧ (Instr.dget 0 4294967296).wellFormed = false ∧
    (Instr.dpiv 4294967296).wellFormed = false ∧ (Instr.seenq 4294967296).wellFormed = false ∧
    (Instr.gget 4294967296 0).wellFormed = false ∧ (Instr.gget 0 4294967296).wellFormed = false := by
  decide

theorem smoke_field_operand_too_wide :
    (Instr.gfadd 8 4294967296 0).wellFormed = false ∧ (Instr.gfadd 8 0 4294967296).wellFormed = false ∧
    (Instr.gfmul 8 4294967296 0).wellFormed = false ∧ (Instr.gfmul 8 0 4294967296).wellFormed = false ∧
    (Instr.gfinv 8 4294967296).wellFormed = false ∧ (Instr.vaddmul 4294967296).wellFormed = false ∧
    (Instr.vscale 4294967296).wellFormed = false := by decide

/-! ### Decoding: words of 95_test_vectors.md section 2.8, one per command -/

theorem test_decode_nop : decodeTableWord 128 0x00000000_00000000_00000000_00000000 = some .nop := by decide
theorem test_decode_reset : decodeTableWord 128 0x00000000_00000000_00000000_00000001 = some .reset := by decide
theorem test_decode_initEnc :
    decodeTableWord 128 0x00000010_0000007E_0000003F_00000810 = some (.initEnc 8 63 126 16) := by decide
theorem test_decode_put : decodeTableWord 128 0x00000000_00000000_00000001_00000011 = some (.put 1) := by decide
theorem test_decode_encode : decodeTableWord 128 0x00000000_00000000_00000000_00000012 = some .encode := by decide
theorem test_decode_get : decodeTableWord 128 0x00000000_00000000_00000003_00000013 = some (.get 3) := by decide
theorem test_decode_initDec :
    decodeTableWord 128 0x00000002_00000006_00000003_00000420 = some (.initDec 4 3 6 2) := by decide
theorem test_decode_accept :
    decodeTableWord 128 0x00000000_00000000_00000003_00000021 = some (.accept 3) := by decide
theorem test_decode_getsrc :
    decodeTableWord 128 0x00000000_00000000_00000001_00000022 = some (.getsrc 1) := by decide
theorem test_decode_dget :
    decodeTableWord 128 0x00000000_00000001_00000000_00000023 = some (.dget 0 1) := by decide
theorem test_decode_dpiv : decodeTableWord 128 0x00000000_00000000_00000001_00000024 = some (.dpiv 1) := by decide
theorem test_decode_seenq :
    decodeTableWord 128 0x00000000_00000000_00000002_00000025 = some (.seenq 2) := by decide
theorem test_decode_gfadd :
    decodeTableWord 128 0x00000000_000000CA_00000053_00000830 = some (.gfadd 8 0x53 0xCA) := by decide
theorem test_decode_gfmul :
    decodeTableWord 128 0x00000000_000000CA_00000053_00000831 = some (.gfmul 8 0x53 0xCA) := by decide
theorem test_decode_gfinv :
    decodeTableWord 128 0x00000000_00000000_00001234_00001032 = some (.gfinv 16 0x1234) := by decide
theorem test_decode_vclr : decodeTableWord 128 0x00000000_00000000_00000000_00000040 = some .vclr := by decide
theorem test_decode_vaddmul :
    decodeTableWord 128 0x00000000_00000000_00000003_00000041 = some (.vaddmul 3) := by decide
theorem test_decode_vscale :
    decodeTableWord 128 0x00000000_00000000_0000008E_00000042 = some (.vscale 0x8E) := by decide
theorem test_decode_vout : decodeTableWord 128 0x00000000_00000000_00000000_00000043 = some .vout := by decide
theorem test_decode_gget :
    decodeTableWord 128 0x00000000_00000002_00000004_00000050 = some (.gget 4 2) := by decide

/-- The illegal words of section 2.8. -/
theorem test_decode_illegal :
    [0x00000000_00000000_00000000_000000FF, 0x00000000_00000000_00000000_00000002,
      0x00000000_00000000_00000000_00000014, 0x00000000_00000000_00000000_00000051,
      0x00000000_00000000_00000000_00002000, 0x00000000_00000000_00000000_80000010,
      0x00000000_00000000_00000001_00000000, 0x00000000_00000000_00000000_00000811,
      0x00000001_00000000_00000002_00000021, 0x00000000_00000001_00000000_00000832,
      0x00000001_000000CA_00000053_00000831, 0x00000000_00000000_00000000_00000101,
      0xFFFFFFFF_FFFFFFFF_FFFFFFFF_FFFFFFFF].map (decodeTableWord 128) = List.replicate 13 none := by decide

/-- 30_encoding.md R102: the bytes of INIT_ENC 8, 2, 4, 4 (section 2.8), both ways. -/
theorem test_serialisation :
    wordBytes 0x00000004_00000004_00000002_00000810 =
      [0x10, 0x08, 0, 0, 0x02, 0, 0, 0, 0x04, 0, 0, 0, 0x04, 0, 0, 0] ∧
    wordOfBytes [0x10, 0x08, 0, 0, 0x02, 0, 0, 0, 0x04, 0, 0, 0, 0x04, 0, 0, 0] =
      0x00000004_00000004_00000002_00000810 := by decide

/-- 30_encoding.md R101: GFMUL 8, 0x53, 0xCA as a word. -/
theorem test_encode_gfmul : encode (.gfmul 8 0x53 0xCA) = 0x00000000_000000CA_00000053_00000831 := by decide

/-! ### Single steps, with the values of 95_test_vectors.md -/

/-- Section 2.5, last but one paragraph: NOP in FAULTED. -/
theorem test_nop_faulted :
    after (exec .nop (sess .faulted 8 2 4 4)) id = some ((sess .faulted 8 2 4 4).setStatus .error) := by decide

/-- Section 2.9: RESET leaves the reset state. -/
theorem test_reset : after (exec .reset p2Done) id = some State.reset := by decide

/-- P1: INIT_ENC 8, 2, 4, 4. -/
theorem test_initEnc : after (exec (.initEnc 8 2 4 4) State.reset) id = some (sess .encLoad 8 2 4 4) := by decide

/-- P6: INIT_ENC 8, 2, 257, 4 (n above 2^m) changes only STATUS. -/
theorem test_initEnc_bad :
    after (exec (.initEnc 8 2 257 4) State.reset) id = some (State.reset.setStatus .invalidParameters) := by
  decide

/-- P6: PUT 0 of AA BB CC DD. -/
theorem test_put :
    after (exec (.put 0) { sess .encLoad 8 2 4 4 with iobuf := memOf [0xAA, 0xBB, 0xCC, 0xDD] })
        (fun t => (t.sym, t.srcset, t.loaded, t.status)) =
      some ([(0, memOf [0xAA, 0xBB, 0xCC, 0xDD])], [0], 1, .ok) := by decide

/-- P1: ENCODE makes symbols 2 and 3. -/
theorem test_encode : after (exec .encode p1Loaded) id = some p1Ready := by decide +kernel

/-- P6: ENCODE before every slot is loaded. -/
theorem test_encode_early :
    after (exec .encode { p1Loaded with srcset := [0], loaded := 1 }) State.status = some .badState := by
  decide

/-- P1: GET 3. -/
theorem test_get :
    after (exec (.get 3) p1Ready) State.iobuf = some (memOf [0x45, 0x8A, 0xCF, 0x09]) := by decide

/-- P6: GET 99 before ENCODE is BAD_STATE, not INVALID_SYMBOL_INDEX. -/
theorem test_get_early : after (exec (.get 99) p1Loaded) State.status = some .badState := by decide

/-- P2: INIT_DEC 8, 2, 4, 4. -/
theorem test_initDec : after (exec (.initDec 8 2 4 4) State.reset) id = some (sess .decAcc 8 2 4 4) := by decide

/-- P2: the first ACCEPT 3. -/
theorem test_accept_first :
    after (exec (.accept 3) p2Open) id =
      some ((p2Half.setIobuf (memOf [0x45, 0x8A, 0xCF, 0x09])).setStatus .incomplete) := by decide +kernel

/-- P2: ACCEPT 2 completes. -/
theorem test_accept_last : after (exec (.accept 2) p2Half) id = some (p2Done.setStatus .complete) := by
  decide +kernel

/-- P2: GETSRC 1. -/
theorem test_getsrc :
    after (exec (.getsrc 1) p2Done) State.iobuf = some (memOf [0x10, 0x20, 0x30, 0x40]) := by decide

/-- P2: DGET 0, 1 after the first ACCEPT. -/
theorem test_dget : after (exec (.dget 0 1) p2Half) State.res = some 0xA6 := by decide

/-- P2: DPIV 0 and DPIV 1 after the first ACCEPT. -/
theorem test_dpiv :
    after (exec (.dpiv 0) p2Half) State.res = some 1 ∧ after (exec (.dpiv 1) p2Half) State.res = some 0 := by
  decide

/-- P2: SEENQ 3 and SEENQ 2 after the first ACCEPT. -/
theorem test_seenq :
    after (exec (.seenq 3) p2Half) State.res = some 1 ∧ after (exec (.seenq 2) p2Half) State.res = some 0 := by
  decide

/-- P5: GFADD 8, 0x53, 0xCA. -/
theorem test_gfadd : after (exec (.gfadd 8 0x53 0xCA) State.reset) State.res = some 0x99 := by decide

/-- Section 2.1: GFADD 4, 0x10, 0 is out of range. -/
theorem test_gfadd_bad : after (exec (.gfadd 4 0x10 0) State.reset) State.status = some .invalidOperand := by
  decide

/-- Section 2.1: GFMUL with m = 8. -/
theorem test_gfmul_8 : after (exec (.gfmul 8 0x53 0xCA) State.reset) State.res = some 0x8F := by
  decide +kernel

/-- Section 2.1: GFMUL with m = 16. -/
theorem test_gfmul_16 : after (exec (.gfmul 16 0x1234 0xABCD) State.reset) State.res = some 0x4792 := by
  decide +kernel

/-- Section 2.1: GFINV with m = 16. -/
theorem test_gfinv : after (exec (.gfinv 16 0x1234) State.reset) State.res = some 0x2CE9 := by
  decide +kernel

/-- P6: GFINV 8, 0 leaves RES. -/
theorem test_gfinv_zero :
    after (exec (.gfinv 8 0) (State.reset.setRes 1)) id =
      some ((State.reset.setRes 1).setStatus .invalidOperand) := by decide

/-- Section 2.2 with R156: VCLR clears the first SYMSZ bytes only. -/
theorem test_vclr :
    after (exec .vclr (vecState 8 2 [0x01, 0x02, 0x03] [])) (fun t => t.vacc.readBytes 0 3) =
      some [0, 0, 0x03] := by decide

/-- Section 2.2: VADDMUL 53 with m = 8. -/
theorem test_vaddmul_8 :
    after (exec (.vaddmul 0x53) (vecState 8 4 [0xFF, 0x00, 0x55, 0xAA] [0xCA, 0x01, 0x00, 0x02]))
      (fun t => t.vacc.readBytes 0 4) = some [0x70, 0x53, 0x55, 0x0C] := by decide +kernel

/-- Section 2.2: VADDMUL 5 with m = 3, whose elements straddle bytes. -/
theorem test_vaddmul_3 :
    after (exec (.vaddmul 5) (vecState 3 3 [0, 0, 0] [0xA7, 0x3C, 0x5E]))
      (fun t => t.vacc.readBytes 0 3) = some [0x56, 0x46, 0x39] := by decide +kernel

/-- Section 2.2: VSCALE 002 with m = 12. -/
theorem test_vscale :
    after (exec (.vscale 2) (vecState 12 3 [0xBC, 0xFA, 0x5E] [])) (fun t => t.vacc.readBytes 0 3) =
      some [0x2B, 0xE5, 0xBD] := by decide +kernel

/-- Section 2.2: VSCALE 2 with m = 1 is out of range. -/
theorem test_vscale_bad :
    after (exec (.vscale 2) (vecState 1 1 [0x0F] [])) State.status = some .invalidOperand := by decide

/-- P5 with R159: VOUT copies the first SYMSZ bytes only. -/
theorem test_vout :
    after (exec .vout (vecState 8 2 [0x9F, 0x23, 0xBC] [0, 0, 0x77])) (fun t => t.iobuf.readBytes 0 3) =
      some [0x9F, 0x23, 0x77] := by decide

/-- P3: GGET 3, 0 and GGET 4, 2 with (4, 3, 6). -/
theorem test_gget :
    after (exec (.gget 3 0) (sess .decAcc 4 3 6 2)) State.res = some 0xF ∧
    after (exec (.gget 4 2) (sess .decAcc 4 3 6 2)) State.res = some 0xF := by decide +kernel

/-- P6: GGET 4, 9 is INVALID_SYMBOL_INDEX, not INVALID_OPERAND. -/
theorem test_gget_order : after (exec (.gget 4 9) p1Ready) State.status = some .invalidSymbolIndex := by decide

/-- Section 2.1: the powers of ALPHA in GF(2^4). -/
theorem test_powers :
    (List.range 16).map (gfPow 4 (alpha 4)) =
      [0x1, 0x2, 0x4, 0x8, 0x3, 0x6, 0xC, 0xB, 0x5, 0xA, 0x7, 0xE, 0xF, 0xD, 0x9, 0x1] := by
  decide +kernel

/-- Section 2.3: the inverse that needs a row exchange, and a singular matrix. -/
theorem test_matInv :
    matInv 8 [[0x00, 0x01, 0x00], [0x02, 0x00, 0x00], [0x00, 0x00, 0x03]] =
      some [[0x00, 0x8E, 0x00], [0x01, 0x00, 0x00], [0x00, 0x00, 0xF4]] ∧
    matInv 8 [[0x01, 0x02], [0x02, 0x04]] = none := by decide +kernel

/-- Section 2.2: unpack with m = 3 and m = 12. -/
theorem test_unpack :
    unpack 3 [0xA7, 0x3C, 0x5E] = [7, 4, 2, 6, 3, 4, 7, 2] ∧ unpack 12 [0xBC, 0xFA, 0x5E] = [0xABC, 0x5EF] := by
  decide

/-- The word a test places is the very next command run (log 1). -/
theorem test_withFetchWord :
    after (step (State.reset.withFetchWord 128 0x00000000_000000CA_00000053_00000830)) State.res =
      some 0x99 := by decide

/-- P6: the word 0xFF is answered ILLEGAL_COMMAND, in FAULTED too (section 2.5). -/
theorem test_illegal_step :
    after (step ((sess .faulted 8 2 4 4).withFetchWord 128 0xFF)) (fun t => (t.state, t.responses)) =
      some (.faulted, [.outcome .illegalCommand]) := by decide

/-! ### Witnesses: a state and operands that meet each statement's hypotheses together -/

/-- A machine with one pending transaction. -/
def waiting (t : Transaction) : State := p1Ready.setPending [t]

/-- A session over GF(4), k = 2, n = 4, one byte a symbol, with ESI 0 accepted; IOBUF holds the symbol of
ESI 2 of the source symbols E4 and 1B. -/
def smallDec : State :=
  { sess .decAcc 2 2 4 1 with
    iobuf := memOf [0xB1]
    d := [(0, [(0, 1)])]
    piv := [0]
    sym := [(0, memOf [0xE4])]
    seen := [0]
    rxcount := 1
    rank := 1 }

/-- The same session complete. -/
def smallDone : State :=
  { smallDec with
    state := .decDone
    d := [(0, [(0, 1)]), (1, [(1, 1)])]
    piv := [0, 1]
    sym := [(0, memOf [0xE4]), (1, memOf [0x1B])]
    seen := [0, 2]
    rxcount := 2
    rank := 2 }

/-- The elements of the source symbols E4 and 1B over GF(4). -/
def smallSource (j l : Nat) : Elem := BitVec.ofNat 16 (((if j = 0 then 0xE4 else 0x1B) >>> (2 * l)) % 4)

theorem smallSource_isElem (j l : Nat) : IsElem 2 (smallSource j l) := by
  simp only [IsElem, smallSource, BitVec.toNat_ofNat]
  omega

theorem smallDec_runInv : RunInv smallDec :=
  ⟨by decide, by decide, by decide, by decide, by decide, by decide⟩

theorem smallDec_decodeInv : DecodeInv smallDec :=
  fun _ => ⟨by decide, by decide, by decide, by decide, by decide⟩

theorem smallDone_runInv : RunInv smallDone :=
  ⟨by decide, by decide, by decide, by decide, by decide, by decide⟩

theorem smallDone_decodeInv : DecodeInv smallDone :=
  fun _ => ⟨by decide, by decide, by decide, by decide, by decide⟩

theorem witness_DecodeOfEncodedCommand :
    (Instr.initEnc 31 4294967295 4294967295 4294967295).wellFormed = true := by decide

theorem witness_EncodeOfDecodedWord :
    decode 0x00000004_00000004_00000002_00000810 = .ok (.initEnc 8 2 4 4) := rfl

theorem witness_StepRunsDecodedCommand :
    (waiting (.cmd 0x00000000_00000000_00000003_00000013)).pending =
      .cmd 0x00000000_00000000_00000003_00000013 :: [] ∧
    decode 0x00000000_00000000_00000003_00000013 = .ok (.get 3) := ⟨rfl, rfl⟩

theorem witness_IllegalWordChangesOnlyStatus :
    (waiting (.cmd 0xFF)).pending = .cmd 0xFF :: [] ∧
    ∀ o, (0xFF : CmdWord) &&& formatMask (opcodeFormat o) ≠ opcodeMatch o :=
  ⟨rfl, fun o => by cases o <;> decide⟩

theorem witness_QuiescentStepChangesNothing : p1Ready.pending = [] := rfl

theorem witness_CommandsKeepInstanceAndHostSide : ∃ t, exec (.get 3) p1Ready = .next t := ⟨_, rfl⟩

/-- The last defined and the first undefined register number, and a transaction that writes a buffer. -/
theorem witness_RegisterReadAnswersAndChangesNothing :
    ((waiting (.regrd 12)).pending = .regrd 12 :: [] ∧ (12 : BitVec 8).toNat ≤ 12) ∧
    ((waiting (.regrd 13)).pending = .regrd 13 :: [] ∧ 13 ≤ (13 : BitVec 8).toNat) ∧
    ((waiting (.bufwr 0 1)).pending = .bufwr 0 1 :: [] ∧ (∀ w, Transaction.bufwr 0 1 ≠ .cmd w) ∧
      Transaction.bufwr 0 1 ≠ .hwReset ∧ ∃ t, step (waiting (.bufwr 0 1)) = .next t) :=
  ⟨by decide, by decide, rfl, fun _ => by simp, by decide, _, rfl⟩

/-- The instance parameters, a step, and the first and last bit of each clause on CAP_M. -/
theorem witness_CapabilityRegistersShowParameters :
    paramsOk (waiting .hwReset).inst = true ∧ (∃ t, step (waiting .hwReset) = .next t) ∧
    (1 ≤ 1 ∧ 1 ≤ 16) ∧ (1 ≤ 16 ∧ 16 ≤ 16) ∧ 17 ≤ 17 :=
  ⟨by decide, ⟨_, rfl⟩, by decide, by decide, by decide⟩

/-- The last offset inside IOBUF and the first beyond it. -/
theorem witness_BufferWriteChangesOneByte :
    ((waiting (.bufwr 65534 1)).pending = .bufwr 65534 1 :: [] ∧
      (waiting (.bufwr 65534 1)).iobuf.wf = true ∧
      (65534 : BitVec 32).toNat < (waiting (.bufwr 65534 1)).inst.symszMax) ∧
    ((waiting (.bufwr 65535 1)).pending = .bufwr 65535 1 :: [] ∧
      (waiting (.bufwr 65535 1)).iobuf.wf = true ∧
      (waiting (.bufwr 65535 1)).inst.symszMax ≤ (65535 : BitVec 32).toNat) := by decide

/-- The last offset inside IOBUF and the first beyond it. -/
theorem witness_BufferReadAnswersAndChangesNothing :
    ((waiting (.bufrd 65534)).pending = .bufrd 65534 :: [] ∧
      (65534 : BitVec 32).toNat < (waiting (.bufrd 65534)).inst.symszMax) ∧
    ((waiting (.bufrd 65535)).pending = .bufrd 65535 :: [] ∧
      (waiting (.bufrd 65535)).inst.symszMax ≤ (65535 : BitVec 32).toNat) := by decide

theorem witness_ResetGivesResetState :
    (waiting .hwReset).pending = .hwReset :: [] ∧ (0 : BitVec 8).toNat ≤ 2 ∧ (2 : BitVec 8).toNat ≤ 2 := by
  decide

/-- One command turned away in each of the ways of the table. -/
theorem witness_LegalityTableDecidesOutcome :
    legality (decide (State.reset.loaded = State.reset.k)) (.put 99) State.reset.state =
      some .notInitialized ∧
    legality (decide (p1Ready.loaded = p1Ready.k)) (.put 0) p1Ready.state = some .badState ∧
    legality (decide (p1Ready.loaded = p1Ready.k)) (.initEnc 8 2 4 4) p1Ready.state =
      some .alreadyInitialized ∧
    legality (decide (p1Ready.loaded = p1Ready.k)) .encode p1Ready.state = some .ok ∧
    legality true .nop SessionState.faulted = some .error := by decide

/-- Boundary values: PUT K, and a row and a column of GGET both out of range. -/
theorem witness_OperandCheckDecidesOutcome :
    (legality (decide (p1Loaded.loaded = p1Loaded.k)) (.put 2) p1Loaded.state = none ∧
      operandFailure p1Loaded (.put 2) = some .invalidSymbolIndex) ∧
    (legality (decide (p1Loaded.loaded = p1Loaded.k)) (.gget 4 9) p1Loaded.state = none ∧
      operandFailure p1Loaded (.gget 4 9) = some .invalidSymbolIndex) ∧
    (legality (decide (p1Loaded.loaded = p1Loaded.k)) (.vscale 256) p1Loaded.state = none ∧
      operandFailure p1Loaded (.vscale 256) = some .invalidOperand) := by decide

theorem witness_FailingCommandChangesOnlyStatus :
    (∃ t, runCommand 0xFF p1Ready = .next t ∧ statusCallerError t.status = true) ∧
    (∃ t, runCommand 0 (sess .faulted 8 2 4 4) = .next t ∧ t.status = .error) ∧
    (p2Half.state = .decAcc ∧ 3 < nOf p2Half ∧ 3 ∈ p2Half.seen) ∧
    (p2Done.state = .decDone ∧ 0 < nOf p2Done) ∧ p1Ready.state = .encReady :=
  ⟨⟨_, rfl, rfl⟩, ⟨_, rfl, rfl⟩, by decide, by decide, rfl⟩

theorem witness_OnlyListedStateTransitions :
    ∃ t, exec (.initEnc 8 2 4 4) State.reset = .next t ∧ t.state = .encLoad := ⟨_, rfl, rfl⟩

/-- The three commands that can meet a singular matrix. -/
theorem witness_InternalFaultKeepsTheRest :
    (∃ t, exec .encode (singular .encLoad) = .next t ∧ t.state = .faulted) ∧
    (∃ t, exec (.gget 0 0) (singular .encReady) = .next t ∧ t.state = .faulted) ∧
    ∃ t, exec (.accept 2) (singular .decAcc) = .next t ∧ t.state = .faulted :=
  ⟨after_some (f := State.state) (by decide +kernel), after_some (f := State.state) (by decide +kernel),
    after_some (f := State.state) (by decide +kernel)⟩

/-- For each clause a command that writes the register. -/
theorem witness_RegistersWrittenOnlyByListedCommands :
    (∃ t, exec (.initEnc 8 2 4 4) State.reset = .next t ∧ t.state ≠ State.reset.state ∧
      t.k ≠ State.reset.k) ∧
    (∃ t, exec (.gfadd 8 1 2) State.reset = .next t ∧ t.res ≠ State.reset.res) ∧
    (∃ t, exec (.put 0) (sess .encLoad 8 2 4 4) = .next t ∧ t.loaded ≠ 0) ∧
    ∃ t, exec (.accept 3) p2Open = .next t ∧ t.rxcount = 1 ∧ t.rank = 1 := by
  refine ⟨⟨_, rfl, by decide, by decide⟩, ⟨_, rfl, by decide⟩, ⟨_, rfl, by decide⟩, ?_⟩
  obtain ⟨t, ht, h⟩ := after_some (o := exec (.accept 3) p2Open) (f := fun t => (t.rxcount, t.rank))
    (v := (1, 1)) (by decide +kernel)
  exact ⟨t, ht, (Prod.ext_iff.1 h).1, (Prod.ext_iff.1 h).2⟩

/-- A command that writes IOBUF, one that writes VACC, and the first byte beyond the symbol. -/
theorem witness_BuffersWrittenOnlyByListedCommands :
    ((∃ t, exec .vout p1Ready = .next t) ∧ Instr.vout ≠ .reset ∧ p1Ready.iobuf.wf = true ∧
      p1Ready.vacc.wf = true ∧ Instr.vout.opcode ∉ [Opcode.vclr, .vaddmul, .vscale] ∧
      symszOf p1Ready ≤ 4) ∧
    ((∃ t, exec .vclr p1Ready = .next t) ∧ Instr.vclr ≠ .reset ∧
      Instr.vclr.opcode ∉ [Opcode.get, .getsrc, .vout]) :=
  ⟨⟨⟨_, rfl⟩, by decide, by decide, by decide, by decide, by decide⟩, ⟨_, rfl⟩, by decide, by decide⟩

theorem witness_NopCompletes : State.reset.state ≠ .faulted := by decide

/-- The largest total symbol count over GF(2^8), and the longest symbol. -/
theorem witness_InitEncOpensSession :
    State.reset.state = .idle ∧ paramsOk State.reset.inst = true ∧
    ParamsAccepted State.reset.inst 8 256 256 65535 := by decide

/-- The last slot, once new and once loaded already. -/
theorem witness_PutStoresSymbol :
    (p1Loaded.state = .encLoad ∧ 1 < kOf p1Loaded ∧ symWf p1Loaded.sym = true ∧
      indexSetWf p1Loaded.srcset = true ∧ 1 ∈ p1Loaded.srcset) ∧
    ((sess .encLoad 8 2 4 4).state = .encLoad ∧ 1 < kOf (sess .encLoad 8 2 4 4) ∧
      symWf (sess .encLoad 8 2 4 4).sym = true ∧ indexSetWf (sess .encLoad 8 2 4 4).srcset = true ∧
      1 ∉ (sess .encLoad 8 2 4 4).srcset) := by decide

/-- The generator is that of section 2.3 for (8, 2, 4). -/
theorem witness_EncodeComputesRepairSymbols :
    p1Loaded.state = .encLoad ∧ p1Loaded.loaded = p1Loaded.k ∧ paramsOk p1Loaded.inst = true ∧
    ParamsAccepted p1Loaded.inst (mOf p1Loaded) (kOf p1Loaded) (nOf p1Loaded) (symszOf p1Loaded) ∧
    symWf p1Loaded.sym = true ∧
    gen (mOf p1Loaded) (kOf p1Loaded) (nOf p1Loaded) =
      some [[0x01, 0x00], [0x00, 0x01], [0x03, 0x02], [0x05, 0x04]] :=
  ⟨by decide, by decide, by decide, by decide, by decide, by decide +kernel⟩

/-- The last symbol of each session. -/
theorem witness_GetAndGetsrcCopySymbol :
    (p1Ready.state = .encReady ∧ 3 < nOf p1Ready ∧ p1Ready.iobuf.wf = true) ∧
    (p2Done.state = .decDone ∧ 1 < kOf p2Done ∧ p2Done.iobuf.wf = true) := by decide

/-- The largest total symbol count over GF(2^16) that an instance holds. -/
theorem witness_InitDecOpensSession :
    State.reset.state = .idle ∧ paramsOk State.reset.inst = true ∧
    ParamsAccepted State.reset.inst 16 1 65536 2 := by decide

/-- An unreachable state with the invariant RunInv in which ESI 0, not in SEEN, has its row stored already. -/
def rowAlreadyStored : State := { smallDec with seen := [], rxcount := 0 }

/-- Each clause: ESI 0 whose row reduces to zero, and ESI 2 whose row leaves column 1 and whose row 0, stored,
is cleared of it. -/
theorem witness_AcceptNewSymbol_clauses :
    (rowAlreadyStored.state = .decAcc ∧ 0 < nOf rowAlreadyStored ∧ 0 ∉ rowAlreadyStored.seen ∧
      indexSetWf rowAlreadyStored.seen = true ∧ symWf rowAlreadyStored.sym = true ∧
      genRow (mOf rowAlreadyStored) (kOf rowAlreadyStored) 0 = some [1, 0] ∧
      leadingColumn (reducedSymbol rowAlreadyStored [1, 0]).1 = none) ∧
    (leadingColumn (reducedSymbol p2Half [0x03, 0x02]).1 = some 1 ∧ RunInv p2Half ∧ DecodeInv p2Half ∧
      0 ∈ p2Half.piv ∧ matrixGet p2Half.d 0 1 ≠ 0) :=
  ⟨⟨by decide, by decide, by decide, by decide, by decide, by decide +kernel, by decide +kernel⟩,
    by decide +kernel, ⟨by decide, by decide, by decide, by decide, by decide, by decide⟩,
    fun _ => ⟨by decide, by decide, by decide, by decide, by decide⟩, by decide, by decide⟩

/-- The row is that of section 2.3 for (8, 2, 4). -/
theorem witness_AcceptNewSymbol :
    p2Half.state = .decAcc ∧ 2 < nOf p2Half ∧ 2 ∉ p2Half.seen ∧ indexSetWf p2Half.seen = true ∧
    symWf p2Half.sym = true ∧ genRow (mOf p2Half) (kOf p2Half) 2 = some [0x03, 0x02] :=
  ⟨by decide, by decide, by decide, by decide, by decide, by decide +kernel⟩

theorem witness_DecodeQueriesReadState :
    (p2Half.state = .decAcc ∧ 1 < kOf p2Half ∧ 3 < nOf p2Half) ∧
    (p2Done.state = .decDone ∧ 1 < kOf p2Done ∧ 3 < nOf p2Done) := by decide

theorem witness_DecodeDoneIsTerminal :
    p2Done.state = .decDone ∧ Instr.accept 3 ≠ .reset ∧ (∃ t, exec (.accept 3) p2Done = .next t) ∧
    3 < nOf p2Done := ⟨rfl, by decide, ⟨_, rfl⟩, by decide⟩

/-- The largest elements of GF(2^16). -/
theorem witness_GfaddComputesSum :
    State.reset.state ≠ .faulted ∧ paramsOk State.reset.inst = true ∧ 16 ∈ State.reset.inst.mSet ∧
    65535 < 2 ^ 16 := by decide

/-- The largest elements of GF(2^8). -/
theorem witness_GfmulComputesPolynomialProduct :
    State.reset.state ≠ .faulted ∧ paramsOk State.reset.inst = true ∧ 8 ∈ State.reset.inst.mSet ∧
    255 < 2 ^ 8 := by decide

/-- The only non-zero element of GF(2). -/
theorem witness_GfinvComputesInverse :
    State.reset.state ≠ .faulted ∧ paramsOk State.reset.inst = true ∧ 1 ∈ State.reset.inst.mSet ∧
    1 < 2 ^ 1 ∧ 1 ≠ 0 := by decide

theorem witness_VclrClearsAccumulator :
    p1Ready.state ≠ .idle ∧ p1Ready.state ≠ .faulted ∧ p1Ready.vacc.wf = true := by decide

/-- The largest coefficient. -/
theorem witness_VaddmulAccumulatesLanes :
    p1Ready.state ≠ .idle ∧ p1Ready.state ≠ .faulted ∧ 255 < 2 ^ mOf p1Ready ∧ 1 ≤ mOf p1Ready ∧
    mOf p1Ready ≤ 16 ∧ 8 * symszOf p1Ready % mOf p1Ready = 0 ∧ p1Ready.vacc.wf = true ∧
    3 < elementCount (mOf p1Ready) (symszOf p1Ready) := by decide

theorem witness_VaddmulTwiceRestores :
    (vecState 3 3 [1, 2, 3] [4, 5, 6]).state ≠ .idle ∧ (vecState 3 3 [1, 2, 3] [4, 5, 6]).state ≠ .faulted ∧
    7 < 2 ^ mOf (vecState 3 3 [1, 2, 3] [4, 5, 6]) ∧ 1 ≤ mOf (vecState 3 3 [1, 2, 3] [4, 5, 6]) ∧
    mOf (vecState 3 3 [1, 2, 3] [4, 5, 6]) ≤ 16 ∧
    8 * symszOf (vecState 3 3 [1, 2, 3] [4, 5, 6]) % mOf (vecState 3 3 [1, 2, 3] [4, 5, 6]) = 0 ∧
    (vecState 3 3 [1, 2, 3] [4, 5, 6]).vacc.wf = true := by decide

theorem witness_VscaleMultipliesLanes :
    (vecState 3 3 [1, 2, 3] [4, 5, 6]).state ≠ .idle ∧ (vecState 3 3 [1, 2, 3] [4, 5, 6]).state ≠ .faulted ∧
    7 < 2 ^ mOf (vecState 3 3 [1, 2, 3] [4, 5, 6]) ∧ 1 ≤ mOf (vecState 3 3 [1, 2, 3] [4, 5, 6]) ∧
    mOf (vecState 3 3 [1, 2, 3] [4, 5, 6]) ≤ 16 ∧
    8 * symszOf (vecState 3 3 [1, 2, 3] [4, 5, 6]) % mOf (vecState 3 3 [1, 2, 3] [4, 5, 6]) = 0 ∧
    (vecState 3 3 [1, 2, 3] [4, 5, 6]).vacc.wf = true := by decide

theorem witness_VoutCopiesAccumulator :
    p2Done.state ≠ .idle ∧ p2Done.state ≠ .faulted ∧ p2Done.iobuf.wf = true := by decide

theorem witness_GgetReadsGeneratorEntry :
    p2Half.state ≠ .idle ∧ p2Half.state ≠ .faulted ∧ 3 < nOf p2Half ∧ 1 < kOf p2Half ∧
    gen (mOf p2Half) (kOf p2Half) (nOf p2Half) =
      some [[0x01, 0x00], [0x00, 0x01], [0x03, 0x02], [0x05, 0x04]] :=
  ⟨by decide, by decide, by decide, by decide, by decide +kernel⟩

theorem witness_FieldLaws :
    1 ≤ 16 ∧ 16 ≤ 16 ∧ IsElem 16 0xFFFF ∧ IsElem 16 0x1234 ∧ IsElem 16 0xABCD := by decide

theorem witness_FieldInverses :
    1 ≤ 16 ∧ 16 ≤ 16 ∧ IsElem 16 0xFFFF ∧ IsElem 16 0 ∧ (0xFFFF : Elem) ≠ 0 := by decide

theorem witness_EvaluationPointsDistinct : 1 ≤ 1 ∧ 1 ≤ 16 ∧ 0 < 1 ∧ 1 < 2 ^ 1 := by decide

theorem witness_UnpackTakesBitsInOrder :
    1 ≤ 3 ∧ 3 ≤ 16 ∧ 8 * [(0xA7 : Byte), 0x3C, 0x5E].length % 3 = 0 ∧
    7 < 8 * [(0xA7 : Byte), 0x3C, 0x5E].length / 3 := by decide

theorem witness_PackAndUnpackInverse :
    1 ≤ 3 ∧ 3 ≤ 16 ∧ 8 * 3 % 3 = 0 ∧ [(0xA7 : Byte), 0x3C, 0x5E].length = 3 ∧
    [(7 : Elem), 4, 2, 6, 3, 4, 7, 2].length = 8 * 3 / 3 ∧
    ∀ x ∈ [(7 : Elem), 4, 2, 6, 3, 4, 7, 2], IsElem 3 x := by simp [IsElem]

theorem witness_VecAddIsBytewiseXor :
    ([(7 : Elem), 4].length = [(1 : Elem), 2].length) ∧ 1 ≤ 3 ∧ 3 ≤ 16 ∧
    [(0xA7 : Byte), 0x3C, 0x5E].length = [(0x01 : Byte), 0x02, 0x03].length ∧
    8 * [(0xA7 : Byte), 0x3C, 0x5E].length % 3 = 0 := by decide

theorem witness_VectorMultiplyLinear :
    1 ≤ 3 ∧ 3 ≤ 16 ∧ IsElem 3 7 ∧ IsElem 3 5 ∧ [(7 : Elem), 4].length = [(1 : Elem), 2].length ∧
    (∀ x ∈ [(7 : Elem), 4], IsElem 3 x) ∧ ∀ x ∈ [(1 : Elem), 2], IsElem 3 x := by simp [IsElem]

/-- An invertible matrix and a singular one (section 2.3). -/
theorem witness_MatInvInvertsOrSingular :
    (1 ≤ 8 ∧ 8 ≤ 16 ∧ IsMatrix 8 2 2 [[0x01, 0x02], [0x03, 0x04]] ∧
      matInv 8 [[0x01, 0x02], [0x03, 0x04]] = some [[0x02, 0x01], [0x8F, 0x8E]]) ∧
    (IsMatrix 8 2 2 [[0x01, 0x02], [0x02, 0x04]] ∧ matInv 8 [[0x01, 0x02], [0x02, 0x04]] = none ∧
      IsMatrix 8 2 2 [[1, 0], [0, 1]]) :=
  ⟨⟨by decide, by decide, by simp [IsMatrix], by decide +kernel⟩, by simp [IsMatrix],
    by decide +kernel, by simp [IsMatrix]⟩

/-- Every one of the 2^m points in use, and one alone. -/
theorem witness_GeneratorNeverSingular :
    (1 ≤ 16 ∧ 16 ≤ 16 ∧ 1 ≤ 65536 ∧ 65536 ≤ 65536 ∧ 65536 ≤ 2 ^ 16) ∧
    (1 ≤ 1 ∧ 1 ≤ 16 ∧ 1 ≤ 1 ∧ 1 ≤ 1 ∧ 1 ≤ 2 ^ 1) := by decide

/-- The generator of section 2.3 for (2, 2, 4), all of GF(4)'s points in use. -/
theorem witness_GeneratorSystematic :
    1 ≤ 2 ∧ 2 ≤ 16 ∧ 1 ≤ 2 ∧ 2 ≤ 4 ∧ 4 ≤ 2 ^ 2 ∧ gen 2 2 4 = some [[1, 0], [0, 1], [3, 2], [2, 3]] ∧
    1 < 2 := by decide +kernel

theorem witness_GeneratorIsLagrange :
    1 ≤ 2 ∧ 2 ≤ 16 ∧ 1 ≤ 2 ∧ 2 ≤ 4 ∧ 4 ≤ 2 ^ 2 ∧ gen 2 2 4 = some [[1, 0], [0, 1], [3, 2], [2, 3]] ∧
    3 < 4 ∧ 1 < 2 := by decide +kernel

theorem witness_InvariantsHoldAtReset : paramsOk defaultParams = true := by decide

theorem witness_StepKeepsInvariant :
    RunInv (smallDec.setPending [.cmd (encode (.accept 2))]) ∧
    ∃ t, step (smallDec.setPending [.cmd (encode (.accept 2))]) = .next t ∧ t.state = .decDone :=
  ⟨smallDec_runInv, after_some (f := State.state) (by decide +kernel)⟩

theorem witness_StepKeepsEchelonForm :
    RunInv (smallDec.setPending [.cmd (encode (.accept 2))]) ∧
    DecodeInv (smallDec.setPending [.cmd (encode (.accept 2))]) ∧
    ∃ t, step (smallDec.setPending [.cmd (encode (.accept 2))]) = .next t ∧ t.state = .decDone :=
  ⟨smallDec_runInv, smallDec_decodeInv, after_some (f := State.state) (by decide +kernel)⟩

theorem witness_FaultedNeverEntered :
    RunInv (smallDec.setPending [.cmd (encode (.gget 3 1))]) ∧
    (smallDec.setPending [.cmd (encode (.gget 3 1))]).state ≠ .faulted ∧
    ∃ t, step (smallDec.setPending [.cmd (encode (.gget 3 1))]) = .next t ∧ t.res = 3 :=
  ⟨smallDec_runInv, by decide, after_some (f := State.res) (by decide +kernel)⟩

theorem witness_AcceptKeepsEquations :
    RunInv smallDec ∧ DecodeInv smallDec ∧ (∀ j l, IsElem (mOf smallDec) (smallSource j l)) ∧
    EquationsHold smallDec smallSource ∧ SymbolMatches smallDec 2 smallSource ∧
    ∃ t, exec (.accept 2) smallDec = .next t ∧ t.sym = [(0, memOf [0xE4]), (1, memOf [0x1B])] := by
  refine ⟨smallDec_runInv, smallDec_decodeInv, smallSource_isElem, ?_, ?_,
    after_some (f := State.sym) (by decide +kernel)⟩
  · unfold EquationsHold
    decide +kernel
  · intro row h
    have h2 : genRow (mOf smallDec) (kOf smallDec) 2 = some [3, 2] := by decide +kernel
    rw [h2] at h
    cases h
    decide +kernel

theorem witness_CompletionSolvesSources :
    RunInv smallDone ∧ DecodeInv smallDone ∧ smallDone.state = .decDone ∧
    (∀ j l, IsElem (mOf smallDone) (smallSource j l)) ∧ EquationsHold smallDone smallSource ∧
    1 < kOf smallDone ∧ 3 < elementCount (mOf smallDone) (symszOf smallDone) := by
  refine ⟨smallDone_runInv, smallDone_decodeInv, rfl, smallSource_isElem, ?_, by decide, by decide⟩
  unfold EquationsHold
  decide +kernel

theorem smallDec_spanInv : SpanInv smallDec := by
  refine fun _ => ⟨rfl, fun p hp => ⟨fun _ => 1, fun _ => (by decide : IsElem 2 1), ?_⟩⟩
  have h : p = 0 := by simpa [smallDec] using hp
  subst h
  decide +kernel

theorem witness_EveryNewSymbolRaisesRank :
    RunInv (smallDec.setPending [.cmd (encode (.accept 2))]) ∧
    DecodeInv (smallDec.setPending [.cmd (encode (.accept 2))]) ∧
    SpanInv (smallDec.setPending [.cmd (encode (.accept 2))]) ∧
    ∃ t, step (smallDec.setPending [.cmd (encode (.accept 2))]) = .next t ∧ t.state = .decDone :=
  ⟨smallDec_runInv, smallDec_decodeInv, smallDec_spanInv,
    after_some (f := State.state) (by decide +kernel)⟩

/-- Both repair rows of the generator of section 2.3 for (2, 2, 4). -/
theorem witness_AnyRowsOfGeneratorIndependent :
    1 ≤ 2 ∧ 2 ≤ 16 ∧ 1 ≤ 2 ∧ 2 ≤ 4 ∧ 4 ≤ 2 ^ 2 ∧ gen 2 2 4 = some [[1, 0], [0, 1], [3, 2], [2, 3]] ∧
    [2, 3].length = 2 ∧ [2, 3].Nodup ∧ ∀ e ∈ [2, 3], e < 4 := by decide +kernel

/-- ESIs 2 and 3 of the sources E4 and 1B, each with its own bytes in IOBUF. -/
theorem witness_AcceptOrderDoesNotMatter :
    RunInv smallDec ∧ DecodeInv smallDec ∧ smallDec.state = .decAcc ∧ 2 < nOf smallDec ∧
    3 < nOf smallDec ∧
    (∃ a, exec (.accept 2) (smallDec.setIobuf (memOf [0xB1])) = .next a ∧
      ∃ ab, exec (.accept 3) (a.setIobuf (memOf [0x4E])) = .next ab) ∧
    (∃ b, exec (.accept 3) (smallDec.setIobuf (memOf [0x4E])) = .next b ∧
      ∃ ba, exec (.accept 2) (b.setIobuf (memOf [0xB1])) = .next ba) ∧
    (∀ j l, IsElem (mOf smallDec) (smallSource j l)) ∧ EquationsHold smallDec smallSource ∧
    SymbolMatches (smallDec.setIobuf (memOf [0xB1])) 2 smallSource ∧
    SymbolMatches (smallDec.setIobuf (memOf [0x4E])) 3 smallSource := by
  refine ⟨smallDec_runInv, smallDec_decodeInv, rfl, by decide, by decide, ?_, ?_, smallSource_isElem,
    ?_, ?_, ?_⟩
  · obtain ⟨a, ha, h⟩ := after_some (o := exec (.accept 2) (smallDec.setIobuf (memOf [0xB1])))
      (f := fun t => after (exec (.accept 3) (t.setIobuf (memOf [0x4E]))) State.status)
      (v := some .complete) (by decide +kernel)
    obtain ⟨ab, hab, _⟩ := after_some h
    exact ⟨a, ha, ab, hab⟩
  · obtain ⟨b, hb, h⟩ := after_some (o := exec (.accept 3) (smallDec.setIobuf (memOf [0x4E])))
      (f := fun t => after (exec (.accept 2) (t.setIobuf (memOf [0xB1]))) State.status)
      (v := some .complete) (by decide +kernel)
    obtain ⟨ba, hba, _⟩ := after_some h
    exact ⟨b, hb, ba, hba⟩
  · unfold EquationsHold
    decide +kernel
  · intro row h
    have h2 : genRow (mOf smallDec) (kOf smallDec) 2 = some [3, 2] := by decide +kernel
    cases h2.symm.trans h
    decide +kernel
  · intro row h
    have h2 : genRow (mOf smallDec) (kOf smallDec) 3 = some [2, 3] := by decide +kernel
    cases h2.symm.trans h
    decide +kernel

/-- A session over GF(4), k = 3, in which two symbols do not complete: the clause on SEEN and RXCOUNT. -/
theorem witness_AcceptOrderDoesNotMatter_incomplete :
    RunInv (sess .decAcc 2 3 4 1) ∧ DecodeInv (sess .decAcc 2 3 4 1) ∧
    (sess .decAcc 2 3 4 1).state = .decAcc ∧ 1 < nOf (sess .decAcc 2 3 4 1) ∧
    3 < nOf (sess .decAcc 2 3 4 1) ∧
    (∃ a, exec (.accept 1) ((sess .decAcc 2 3 4 1).setIobuf (memOf [0xB1])) = .next a ∧
      a.state ≠ .decDone ∧ ∃ ab, exec (.accept 3) (a.setIobuf (memOf [0x4E])) = .next ab ∧
        ab.state = .decAcc) ∧
    ∃ b, exec (.accept 3) ((sess .decAcc 2 3 4 1).setIobuf (memOf [0x4E])) = .next b ∧
      b.state ≠ .decDone ∧ ∃ ba, exec (.accept 1) (b.setIobuf (memOf [0xB1])) = .next ba ∧
        ba.state = .decAcc := by
  refine ⟨⟨by decide, by decide, by decide, by decide, by decide, by decide⟩,
    fun _ => ⟨by decide, by decide, by decide, by decide, by decide⟩, rfl, by decide, by decide, ?_, ?_⟩
  · obtain ⟨a, ha, h⟩ := after_some
      (o := exec (.accept 1) ((sess .decAcc 2 3 4 1).setIobuf (memOf [0xB1])))
      (f := fun t => (t.state, after (exec (.accept 3) (t.setIobuf (memOf [0x4E]))) State.state))
      (v := (.decAcc, some .decAcc)) (by decide +kernel)
    obtain ⟨ab, hab, h2⟩ := after_some (Prod.ext_iff.1 h).2
    exact ⟨a, ha, by simp [show a.state = .decAcc from (Prod.ext_iff.1 h).1], ab, hab, h2⟩
  · obtain ⟨b, hb, h⟩ := after_some
      (o := exec (.accept 3) ((sess .decAcc 2 3 4 1).setIobuf (memOf [0x4E])))
      (f := fun t => (t.state, after (exec (.accept 1) (t.setIobuf (memOf [0xB1]))) State.state))
      (v := (.decAcc, some .decAcc)) (by decide +kernel)
    obtain ⟨ba, hba, h2⟩ := after_some (Prod.ext_iff.1 h).2
    exact ⟨b, hb, by simp [show b.state = .decAcc from (Prod.ext_iff.1 h).1], ba, hba, h2⟩

end Sys2Proof.Tests
end

section
/-! ### Values as polynomials modulo P_m (40_field_arithmetic.md R120 to R125)

An m-bit value is read as its class in GF(2)[x] / (P_m), where gf_mul is the product. -/

namespace Sys2Proof.Machine

open Polynomial

variable {w m : Nat}

/-- The polynomial over GF(2) whose coefficients are the low `n` bits (R120). -/
noncomputable def lowBitsPoly (x : BitVec w) (n : Nat) : (ZMod 2)[X] :=
  ∑ i ∈ Finset.range n, if x.getLsbD i then X ^ i else 0

theorem coeff_lowBitsPoly (x : BitVec w) (n i : Nat) :
    (lowBitsPoly x n).coeff i = if i < n ∧ x.getLsbD i then 1 else 0 := by
  have hterm : ∀ j, (if x.getLsbD j then (X : (ZMod 2)[X]) ^ j else 0).coeff i =
      if i = j then (if x.getLsbD j then 1 else 0) else 0 := fun j => by
    split <;> simp [coeff_X_pow]
  simp only [lowBitsPoly, finsetSum_coeff, hterm, Finset.sum_ite_eq, Finset.mem_range, ite_and]

/-- The polynomial of a value (R120). -/
noncomputable def bitsPoly (x : BitVec w) : (ZMod 2)[X] := lowBitsPoly x w

theorem coeff_bitsPoly (x : BitVec w) (i : Nat) :
    (bitsPoly x).coeff i = if x.getLsbD i then 1 else 0 := by
  rw [bitsPoly, coeff_lowBitsPoly]
  by_cases hi : i < w
  · simp [hi]
  · simp [hi, BitVec.getLsbD_of_ge x i (not_lt.1 hi)]

theorem represents_bitsPoly (x : BitVec w) : Represents x.toNat (bitsPoly x) :=
  coeff_bitsPoly x

/-- An m-bit value has no bit at or above m. -/
theorem getLsbD_of_lt_two_pow {x : BitVec w} (hx : x.toNat < 2 ^ m) {i : Nat} (hi : m ≤ i) :
    x.getLsbD i = false :=
  Nat.testBit_lt_two_pow (hx.trans_le (Nat.pow_le_pow_right two_pos hi))

theorem bitsPoly_eq_lowBitsPoly {x : BitVec w} (hx : x.toNat < 2 ^ m) :
    bitsPoly x = lowBitsPoly x m := by
  ext i
  rw [coeff_bitsPoly, coeff_lowBitsPoly]
  by_cases hi : i < m
  · simp [hi]
  · simp [hi, getLsbD_of_lt_two_pow hx (not_lt.1 hi)]

@[simp] theorem bitsPoly_zero : bitsPoly (0#w) = 0 := by
  ext i
  simp [coeff_bitsPoly]

@[simp] theorem bitsPoly_one : bitsPoly (1#16) = 1 := by
  ext i
  cases i <;> simp [coeff_bitsPoly, coeff_one]

/-- Exclusive or is addition of polynomials (R122). -/
theorem bitsPoly_xor (x y : BitVec w) : bitsPoly (x ^^^ y) = bitsPoly x + bitsPoly y := by
  have h2 : (0 : ZMod 2) = 1 + 1 := by decide
  ext i
  simp only [coeff_add, coeff_bitsPoly, BitVec.getLsbD_xor]
  cases x.getLsbD i <;> cases y.getLsbD i <;> simp [h2]

/-- Values with the same bits have the same polynomial, whatever their widths. -/
theorem bitsPoly_congr {v : Nat} {x : BitVec w} {y : BitVec v}
    (h : ∀ i, x.getLsbD i = y.getLsbD i) : bitsPoly x = bitsPoly y := by
  ext i
  simp [coeff_bitsPoly, h]

/-- A shift that loses no bit is multiplication by a power of x. -/
theorem bitsPoly_shiftLeft {x : BitVec w} {c : Nat} (hx : ∀ i, w ≤ i + c → x.getLsbD i = false) :
    bitsPoly (x <<< c) = bitsPoly x * X ^ c := by
  ext i
  rw [coeff_mul_X_pow', coeff_bitsPoly, coeff_bitsPoly, BitVec.getLsbD_shiftLeft]
  by_cases hc : c ≤ i
  · by_cases hi : i < w
    · simp [hc, hi, not_lt.2 hc]
    · simp [hc, hi, hx (i - c) (by omega)]
  · simp [hc, not_le.1 hc]

/-- The first loop of gf_mul is the product of polynomials (R123). -/
theorem bitsPoly_carrylessProduct {x : BitVec 32} (hx : x.toNat < 2 ^ 16) (y : Elem) {n : Nat}
    (hn : n ≤ 16) : bitsPoly (carrylessProduct x y n) = bitsPoly x * lowBitsPoly y n := by
  induction n with
  | zero => simp [carrylessProduct, lowBitsPoly]
  | succ n ih =>
    have hshift : bitsPoly (x <<< n) = bitsPoly x * X ^ n :=
      bitsPoly_shiftLeft fun i hi => getLsbD_of_lt_two_pow hx (by omega)
    rw [carrylessProduct, bitsPoly_xor, ih (by omega), lowBitsPoly, lowBitsPoly,
      Finset.sum_range_succ, mul_add]
    split <;> simp [hshift]

/-- The first loop of gf_mul on m-bit values gives at most 2m - 1 bits. -/
theorem getLsbD_carrylessProduct {x : BitVec 32} (hx : x.toNat < 2 ^ m) (y : Elem) {n i : Nat}
    (hi : m + n ≤ i + 1) : (carrylessProduct x y n).getLsbD i = false := by
  induction n with
  | zero => simp [carrylessProduct]
  | succ n ih =>
    have hbit : x.getLsbD (i - n) = false := getLsbD_of_lt_two_pow hx (by omega)
    rw [carrylessProduct, BitVec.getLsbD_xor, ih (by omega)]
    split <;> simp [hbit]

/-- The modulus P_m (R121). -/
noncomputable def modulus (m : Nat) : (ZMod 2)[X] := bitsPoly (poly m)

/-- POLY[m] has m + 1 bits. -/
theorem poly_bits (h1 : 1 ≤ m) (hm : m ≤ 16) :
    (poly m).getLsbD m = true ∧ (poly m).toNat < 2 ^ (m + 1) := by
  interval_cases m <;> decide

theorem modulus_degree (h1 : 1 ≤ m) (hm : m ≤ 16) : (modulus m).degree = m := by
  obtain ⟨htop, hlt⟩ := poly_bits h1 hm
  refine le_antisymm (degree_le_iff_coeff_zero _ _ |>.2 fun i hi => ?_) (le_degree_of_ne_zero ?_)
  · have hi' : m < i := by exact_mod_cast hi
    simp [modulus, coeff_bitsPoly, getLsbD_of_lt_two_pow hlt hi']
  · simp [modulus, coeff_bitsPoly, htop]

/-- The class of a value modulo P_m. -/
noncomputable def residue (m : Nat) (x : BitVec w) : AdjoinRoot (modulus m) :=
  AdjoinRoot.mk (modulus m) (bitsPoly x)

@[simp] theorem residue_zero : residue m (0#w) = 0 := by simp [residue]

@[simp] theorem residue_one : residue m (1#16) = 1 := by simp [residue]

theorem residue_xor (x y : BitVec w) : residue m (x ^^^ y) = residue m x + residue m y := by
  simp [residue, bitsPoly_xor]

/-- Different m-bit values have different classes. -/
theorem residue_injective (h1 : 1 ≤ m) (hm : m ≤ 16) {x y : Elem} (hx : IsElem m x) (hy : IsElem m y)
    (h : residue m x = residue m y) : x = y := by
  have hdvd : modulus m ∣ bitsPoly x - bitsPoly y := AdjoinRoot.mk_eq_mk.1 h
  have hdeg : (bitsPoly x - bitsPoly y).degree < (modulus m).degree := by
    rw [modulus_degree h1 hm, degree_lt_iff_coeff_zero]
    intro i hi
    simp [coeff_bitsPoly, getLsbD_of_lt_two_pow hx hi, getLsbD_of_lt_two_pow hy hi]
  have heq : bitsPoly x = bitsPoly y := sub_eq_zero.1 (eq_zero_of_dvd_of_degree_lt hdvd hdeg)
  refine BitVec.eq_of_getLsbD_eq fun i _ => ?_
  have hi := congrArg (coeff · i) heq
  simp only [coeff_bitsPoly] at hi
  cases hbx : x.getLsbD i <;> cases hby : y.getLsbD i <;> simp_all

/-- Bit j of POLY[m] shifted up by c, above its top bit. -/
theorem getLsbD_poly_shiftLeft (h1 : 1 ≤ m) (hm : m ≤ 16) {c i : Nat} (hi : m + c < i) :
    (poly m <<< c).getLsbD i = false := by
  have hbit : (poly m).getLsbD (i - c) = false :=
    getLsbD_of_lt_two_pow (poly_bits h1 hm).2 (by omega)
  simp [hbit]

/-- The second loop of gf_mul keeps the class modulo P_m (R123). -/
theorem residue_reducePoly (h1 : 1 ≤ m) (hm : m ≤ 16) {c : Nat} (hc : c < m) (r : BitVec 32) :
    residue m (reducePoly m c r) = residue m r := by
  induction c generalizing r with
  | zero => rfl
  | succ c ih =>
    have hzero : residue m (poly m <<< c) = 0 := by
      have hshift : bitsPoly (poly m <<< c) = bitsPoly (poly m) * X ^ c :=
        bitsPoly_shiftLeft fun i hi => getLsbD_of_lt_two_pow (poly_bits h1 hm).2 (by omega)
      rw [residue, hshift, AdjoinRoot.mk_eq_zero]
      exact Dvd.intro _ rfl
    rw [reducePoly, ih (by omega)]
    split
    · rw [residue_xor, hzero, add_zero]
    · rfl

/-- The second loop of gf_mul leaves an m-bit value (R123). -/
theorem getLsbD_reducePoly (h1 : 1 ≤ m) (hm : m ≤ 16) {c : Nat} (hc : c < m) {r : BitVec 32}
    (hr : ∀ i, m + c ≤ i → r.getLsbD i = false) {i : Nat} (hi : m ≤ i) :
    (reducePoly m c r).getLsbD i = false := by
  induction c generalizing r with
  | zero => exact hr i hi
  | succ c ih =>
    refine ih (by omega) fun j hj => ?_
    have htop : (poly m <<< c).getLsbD (m + c) = true := by
      rw [BitVec.getLsbD_shiftLeft, Nat.add_sub_cancel, (poly_bits h1 hm).1]
      simp
      omega
    rcases hj.eq_or_lt with rfl | hj
    · split <;> simp_all
    · have hpoly := getLsbD_poly_shiftLeft h1 hm hj
      split <;> simp [hr j hj, hpoly]

/-- gf_mul of m-bit values is the product modulo P_m (R123). -/
theorem residue_gfMul (h1 : 1 ≤ m) (hm : m ≤ 16) {x y : Elem} (hx : IsElem m x) (hy : IsElem m y) :
    residue m (gfMul m x y) = residue m x * residue m y := by
  have hx16 : (x.setWidth 32).toNat < 2 ^ 16 := by
    rw [BitVec.toNat_setWidth]
    exact (Nat.mod_le _ _).trans_lt x.isLt
  have hxm : (x.setWidth 32).toNat < 2 ^ m := by
    rw [BitVec.toNat_setWidth]
    exact (Nat.mod_le _ _).trans_lt hx
  have hprod : residue m (carrylessProduct (x.setWidth 32) y m) = residue m x * residue m y := by
    have hwide : bitsPoly (x.setWidth 32) = bitsPoly x := bitsPoly_congr fun i => by
      by_cases hi : i < 32
      · simp [hi]
      · simp [hi, BitVec.getLsbD_of_ge x i (by omega)]
    rw [residue, bitsPoly_carrylessProduct hx16 y hm, ← bitsPoly_eq_lowBitsPoly hy, hwide, map_mul]
    rfl
  rw [← hprod, ← residue_reducePoly h1 hm (Nat.sub_lt h1 one_pos) (carrylessProduct _ y m)]
  refine congrArg (AdjoinRoot.mk (modulus m)) (bitsPoly_congr fun i => ?_)
  by_cases hi : i < m
  · rw [gfMul, BitVec.getLsbD_setWidth, BitVec.getLsbD_and, BitVec.getLsbD_ofNat,
      Nat.testBit_two_pow_sub_one]
    simp [hi, show i < 16 by omega, show i < 32 by omega]
  · have hhigh := getLsbD_reducePoly h1 hm (Nat.sub_lt h1 one_pos)
      (fun j hj => getLsbD_carrylessProduct (n := m) hxm y (by omega)) (not_lt.1 hi)
    rw [hhigh]
    exact getLsbD_of_lt_two_pow (gfMul_lt hm x y) (not_lt.1 hi)

end Sys2Proof.Machine
end

section
/-! ### Inverses: every non-zero m-bit value is a power of ALPHA (R125, R126) -/

namespace Sys2Proof.Machine

variable {m : Nat}

theorem isElem_zero (m : Nat) : IsElem m 0 := Nat.two_pow_pos m

theorem isElem_one (h1 : 1 ≤ m) : IsElem m 1 := Nat.one_lt_two_pow (Nat.one_le_iff_ne_zero.1 h1)

theorem isElem_alpha (h1 : 1 ≤ m) : IsElem m (alpha m) := by
  unfold alpha
  split
  · exact isElem_one h1
  · exact Nat.pow_lt_pow_right (a := 2) (m := 1) (by decide) (by omega)

@[simp] theorem reducePoly_zero (m c : Nat) : reducePoly m c 0#32 = 0#32 := by
  induction c with
  | zero => rfl
  | succ c ih => simp [reducePoly, ih]

theorem gfMul_zero (m : Nat) (x : Elem) : gfMul m x 0 = 0 := by
  have hprod : ∀ n, carrylessProduct (x.setWidth 32) 0#16 n = 0 := fun n => by
    induction n with
    | zero => rfl
    | succ n ih => simp [carrylessProduct, ih]
  simp [gfMul, hprod]

theorem zero_gfMul (m : Nat) (x : Elem) : gfMul m 0 x = 0 := by
  have hprod : ∀ n, carrylessProduct 0#32 x n = 0 := fun n => by
    induction n with
    | zero => rfl
    | succ n ih => simp [carrylessProduct, ih]
  simp [gfMul, hprod]

theorem gfMul_one (h1 : 1 ≤ m) (hm : m ≤ 16) {x : Elem} (hx : IsElem m x) : gfMul m x 1 = x :=
  residue_injective h1 hm (gfMul_lt hm x 1) hx (by
    rw [residue_gfMul h1 hm hx (isElem_one h1)]
    simp)

theorem residue_gfPow (h1 : 1 ≤ m) (hm : m ≤ 16) {x : Elem} (hx : IsElem m x) (e : Nat) :
    residue m (gfPow m x e) = residue m x ^ e := by
  induction e with
  | zero => simp [gfPow]
  | succ e ih => rw [gfPow, residue_gfMul h1 hm (gfPow_lt h1 hm x e) hx, ih, pow_succ]

/-- gf_pow by square and multiply, for exponents of at most `bits` bits: it computes the powers that fix the
order of ALPHA. -/
def binaryPow (m : Nat) (x : Elem) : Nat → Nat → Elem
  | 0, _ => 1
  | bits + 1, e =>
    gfMul m (gfMul m (binaryPow m x bits (e / 2)) (binaryPow m x bits (e / 2)))
      (if e % 2 = 1 then x else 1)

theorem binaryPow_lt (h1 : 1 ≤ m) (hm : m ≤ 16) (x : Elem) (bits e : Nat) :
    IsElem m (binaryPow m x bits e) := by
  cases bits with
  | zero => exact isElem_one h1
  | succ bits => exact gfMul_lt hm _ _

theorem residue_binaryPow (h1 : 1 ≤ m) (hm : m ≤ 16) {x : Elem} (hx : IsElem m x) {bits e : Nat}
    (he : e < 2 ^ bits) : residue m (binaryPow m x bits e) = residue m x ^ e := by
  induction bits generalizing e with
  | zero =>
    obtain rfl : e = 0 := by omega
    simp [binaryPow]
  | succ bits ih =>
    have hhalf := binaryPow_lt h1 hm x bits (e / 2)
    have hsquare := gfMul_lt hm (binaryPow m x bits (e / 2)) (binaryPow m x bits (e / 2))
    have hbit : IsElem m (if e % 2 = 1 then x else 1) := by
      split
      · exact hx
      · exact isElem_one h1
    have hval : residue m (if e % 2 = 1 then x else 1) = residue m x ^ (e % 2) := by
      rcases Nat.mod_two_eq_zero_or_one e with h | h <;> simp [h]
    rw [binaryPow, residue_gfMul h1 hm hsquare hbit, residue_gfMul h1 hm hhalf hhalf,
      ih (by omega), hval, ← pow_add, ← pow_add]
    congr 1
    omega

/-- The prime factors of 2^m - 1, with multiplicity. -/
def orderFactors : Nat → List Nat
  | 2 => [3]
  | 3 => [7]
  | 4 => [3, 5]
  | 5 => [31]
  | 6 => [3, 3, 7]
  | 7 => [127]
  | 8 => [3, 5, 17]
  | 9 => [7, 73]
  | 10 => [3, 11, 31]
  | 11 => [23, 89]
  | 12 => [3, 3, 5, 7, 13]
  | 13 => [8191]
  | 14 => [3, 43, 127]
  | 15 => [7, 31, 151]
  | 16 => [3, 5, 17, 257]
  | _ => []

theorem orderFactors_prod (h1 : 1 ≤ m) (hm : m ≤ 16) : (orderFactors m).prod = 2 ^ m - 1 := by
  interval_cases m <;> decide

theorem orderFactors_prime : ∀ p ∈ orderFactors m, p.Prime := by
  unfold orderFactors
  split <;> norm_num

/-- ALPHA to the power 2^m - 1 is 1, and to no power (2^m - 1) / p for a prime p. -/
theorem alpha_powers (h1 : 1 ≤ m) (hm : m ≤ 16) :
    binaryPow m (alpha m) m (2 ^ m - 1) = 1 ∧
      ∀ p ∈ orderFactors m, binaryPow m (alpha m) m ((2 ^ m - 1) / p) ≠ 1 := by
  interval_cases m <;> decide +kernel

/-- ALPHA generates the multiplicative group: its order is 2^m - 1 (R126). -/
theorem orderOf_alpha (h1 : 1 ≤ m) (hm : m ≤ 16) : orderOf (residue m (alpha m)) = 2 ^ m - 1 := by
  have hlt : 2 ^ m - 1 < 2 ^ m := Nat.sub_lt (Nat.two_pow_pos m) one_pos
  have hpos : 0 < 2 ^ m - 1 := Nat.sub_pos_of_lt (isElem_one h1)
  obtain ⟨hone, hprime⟩ := alpha_powers h1 hm
  refine orderOf_eq_of_pow_and_pow_div_prime hpos ?_ fun p hp hdvd heq => ?_
  · rw [← residue_binaryPow h1 hm (isElem_alpha h1) hlt, hone]
    exact residue_one
  · have hmem : p ∈ orderFactors m :=
      mem_list_primes_of_dvd_prod hp.prime (fun q hq => (orderFactors_prime q hq).prime)
        (orderFactors_prod h1 hm ▸ hdvd)
    refine hprime p hmem (residue_injective h1 hm (binaryPow_lt h1 hm _ _ _) (isElem_one h1) ?_)
    rw [residue_binaryPow h1 hm (isElem_alpha h1) ((Nat.div_le_self _ _).trans_lt hlt), heq]
    exact residue_one.symm

theorem gfPow_alpha_ne_zero (h1 : 1 ≤ m) (hm : m ≤ 16) (i : Nat) : gfPow m (alpha m) i ≠ 0 := by
  intro hzero
  have hpos : 2 ^ m - 1 ≠ 0 := (Nat.sub_pos_of_lt (isElem_one h1)).ne'
  have hunit : IsUnit (residue m (alpha m) ^ i) :=
    (IsUnit.of_pow_eq_one (orderOf_alpha h1 hm ▸ pow_orderOf_eq_one _) hpos).pow i
  rw [← residue_gfPow h1 hm (isElem_alpha h1), hzero] at hunit
  have hone : (0 : AdjoinRoot (modulus m)) = 1 := isUnit_zero_iff.1 (by simpa using hunit)
  have : (0 : Elem) = 1 :=
    residue_injective h1 hm (isElem_zero m) (isElem_one h1) (by simpa using hone)
  exact absurd this (by decide)

/-- Every non-zero m-bit value is a power of ALPHA: there are as many of the one as of the other. -/
theorem exists_gfPow_alpha (h1 : 1 ≤ m) (hm : m ≤ 16) {x : Elem} (hx : IsElem m x) (h0 : x ≠ 0) :
    ∃ i, gfPow m (alpha m) i = x := by
  have hsub : (Finset.range (2 ^ m - 1)).image (fun i => (gfPow m (alpha m) i).toNat) ⊆
      Finset.Ico 1 (2 ^ m) := by
    intro a ha
    obtain ⟨i, -, rfl⟩ := Finset.mem_image.1 ha
    have hne : (gfPow m (alpha m) i).toNat ≠ 0 := fun h =>
      gfPow_alpha_ne_zero h1 hm i (BitVec.eq_of_toNat_eq h)
    exact Finset.mem_Ico.2 ⟨Nat.one_le_iff_ne_zero.2 hne, gfPow_lt h1 hm _ i⟩
  have hinj : Set.InjOn (fun i => (gfPow m (alpha m) i).toNat) (Finset.range (2 ^ m - 1)) := by
    intro i hi j hj h
    have hpow : residue m (alpha m) ^ i = residue m (alpha m) ^ j := by
      rw [← residue_gfPow h1 hm (isElem_alpha h1), ← residue_gfPow h1 hm (isElem_alpha h1),
        BitVec.eq_of_toNat_eq h]
    refine pow_injOn_Iio_orderOf ?_ ?_ hpow <;> rw [orderOf_alpha h1 hm, Set.mem_Iio]
    · exact Finset.mem_range.1 hi
    · exact Finset.mem_range.1 hj
  have hall := Finset.eq_of_subset_of_card_le hsub (by
    rw [Finset.card_image_of_injOn hinj, Finset.card_range, Nat.card_Ico])
  have hxpos : 1 ≤ x.toNat := Nat.one_le_iff_ne_zero.2 fun h => h0 (BitVec.eq_of_toNat_eq h)
  obtain ⟨i, -, hi⟩ := Finset.mem_image.1 (hall ▸ Finset.mem_Ico.2 ⟨hxpos, hx⟩)
  exact ⟨i, BitVec.eq_of_toNat_eq hi⟩

/-- x^(2^m - 1) = 1 for every non-zero x (R127). -/
theorem residue_pow_eq_one (h1 : 1 ≤ m) (hm : m ≤ 16) {x : Elem} (hx : IsElem m x) (h0 : x ≠ 0) :
    residue m x ^ (2 ^ m - 1) = 1 := by
  obtain ⟨i, rfl⟩ := exists_gfPow_alpha h1 hm hx h0
  rw [residue_gfPow h1 hm (isElem_alpha h1), ← pow_mul, mul_comm, pow_mul, ← orderOf_alpha h1 hm,
    pow_orderOf_eq_one, one_pow]

/-- The chain of squares of gf_inv multiplies up t^2, t^4, ... (R125). -/
theorem residue_squareChain (h1 : 1 ≤ m) (hm : m ≤ 16) (count : Nat) {t acc : Elem}
    (ht : IsElem m t) (hacc : IsElem m acc) :
    residue m (squareChain m count t acc) = residue m acc * residue m t ^ (2 ^ (count + 1) - 2) := by
  induction count generalizing t acc with
  | zero => simp [squareChain]
  | succ count ih =>
    have hpow : 2 ≤ 2 ^ (count + 1) := Nat.le_self_pow (Nat.succ_ne_zero count) 2
    have htt := gfMul_lt hm t t
    rw [squareChain, ih htt (gfMul_lt hm _ _), residue_gfMul h1 hm hacc htt,
      residue_gfMul h1 hm ht ht, mul_assoc, ← pow_two, ← pow_mul, ← pow_add]
    congr 2
    omega

/-- gf_inv gives the inverse (R125). -/
theorem gfMul_gfInv (h1 : 1 ≤ m) (hm : m ≤ 16) {x v : Elem} (hx : IsElem m x)
    (hv : gfInv m x = some v) : gfMul m v x = 1 := by
  have h0 : x ≠ 0 := fun h => by simp [gfInv_eq_none.2 h] at hv
  have hchain : squareChain m (m - 1) x 1 = v := Option.some.inj ((if_neg h0).symm.trans hv)
  have hpow : 2 ≤ 2 ^ m := Nat.le_self_pow (by omega) 2
  refine residue_injective h1 hm (gfMul_lt hm v x) (isElem_one h1) ?_
  rw [residue_gfMul h1 hm (gfInv_lt h1 hm hv) hx, ← hchain,
    residue_squareChain h1 hm _ hx (isElem_one h1), Nat.sub_add_cancel h1]
  calc residue m (1 : Elem) * residue m x ^ (2 ^ m - 2) * residue m x
      = residue m x ^ (2 ^ m - 2 + 1) := by rw [pow_succ]; simp
    _ = residue m x ^ (2 ^ m - 1) := by congr 1; omega
    _ = residue m (1 : Elem) := by rw [residue_pow_eq_one h1 hm hx h0]; simp

end Sys2Proof.Machine
end

section
/-! ### What a command and a step can do

The ways a command can end, over all twenty commands, read off the inversion lemmas; and what a step adds
to a command. -/

namespace Sys2Proof.Machine

/-- What command `i` can make of the state: every claim about all commands is a case split on this. -/
inductive Effect (s : State) : Instr → State → Prop
  /-- Only STATUS changes: a failed check, or a successful no-op. -/
  | status (i : Instr) (o : Status) : i ≠ .reset → Effect s i (s.setStatus o)
  /-- A query or a scalar command puts its result into RES. -/
  | result (i : Instr) (v : RegWord) :
      i.opcode ∈ [Opcode.gfadd, .gfmul, .gfinv, .gget, .dget, .dpiv, .seenq] →
      Effect s i ((s.setRes v).setStatus .ok)
  /-- A session command writes one symbol into IOBUF. -/
  | output (i : Instr) (bs : List Byte) : i.opcode ∈ [Opcode.get, .getsrc, .vout] →
      s.state ≠ .idle → bs.length = symszOf s →
      Effect s i ((s.setIobuf (s.iobuf.writeBytes 0 bs)).setStatus .ok)
  /-- A session command writes one symbol into VACC. -/
  | accumulate (i : Instr) (bs : List Byte) : i.opcode ∈ [Opcode.vclr, .vaddmul, .vscale] →
      s.state ≠ .idle → bs.length = symszOf s → Effect s i ((storeVacc bs s).setStatus .ok)
  /-- The internal fault of a command that has written nothing. -/
  | fault (i : Instr) : (i = .encode ∧ s.state = .encLoad) ∨
        ((∃ esi col, i = .gget esi col) ∧ s.state ∈ [.encLoad, .encReady, .decAcc, .decDone]) →
      Effect s i ((s.setState .faulted).setStatus .error)
  /-- RESET. -/
  | reset : Effect s .reset ((toReset s).setStatus .ok)
  /-- INIT_ENC opens an encode session. -/
  | openEnc (m k n z : Nat) : s.state = .idle → ParamsAccepted s.inst m k n z →
      Effect s (.initEnc m k n z)
        (((((s.setSession m k n z).setSym []).setSrcset []).setState .encLoad).setStatus .ok)
  /-- INIT_DEC opens a decode session. -/
  | openDec (m k n z : Nat) : s.state = .idle → ParamsAccepted s.inst m k n z →
      Effect s (.initDec m k n z)
        ((((((s.setSession m k n z).setSym []).setElim [] [] 0).setSeen []).setState .decAcc).setStatus .ok)
  /-- PUT loads a source slot. -/
  | load (slot : Nat) : s.state = .encLoad → slot < kOf s →
      Effect s (.put slot) (((storeSlot slot s).setSrcset (indexInsert s.srcset slot)).setStatus .ok)
  /-- ENCODE fills the repair slots. -/
  | encode (g : List (List Elem)) : s.state = .encLoad → s.loaded = s.k →
      Effect s .encode
        (((s.setSym (encodeSlots (mOf s) (kOf s) (symszOf s) g
          (List.range' (kOf s) (nOf s - kOf s)) s.sym)).setState .encReady).setStatus .ok)
  /-- The internal fault of ACCEPT, which has counted the ESI. -/
  | acceptFault (esi : Nat) : s.state = .decAcc → esi < nOf s →
      Effect s (.accept esi)
        (((s.setSeen (indexInsert s.seen esi)).setState .faulted).setStatus .error)
  /-- ACCEPT of a new ESI. -/
  | accept (esi : Nat) (row : List Elem) (u t : State) : s.state = .decAcc → esi < nOf s →
      esi ∉ s.seen → genRow (mOf s) (kOf s) esi = some row →
      decInsert (row, unpack (mOf s) (iobufSymbol s)) (s.setSeen (indexInsert s.seen esi)) = some u →
      acceptOutcome u = .next t → Effect s (.accept esi) t

theorem validParams_iff {p : Params} {m k n z : Nat} :
    validParams p m k n z = true ↔ ParamsAccepted p m k n z := by
  simp [validParams, supportsM, ParamsAccepted, and_assoc]

variable {s t : State}

/-- A session check that lets a command pass excludes IDLE. -/
theorem ne_idle_of_sessionCheck {l : List SessionState} (h : sessionCheck l s = none) :
    s.state ≠ .idle :=
  (sessionCheck_eq_none.1 h).2.1

/-- The effect of a command with one operand check. -/
theorem effect_of_checks {i : Instr} {check : Option Status} {c : Prop} {o' : Status} {u : State}
    (h : (∃ o, check = some o ∧ t = s.setStatus o) ∨ (check = none ∧ ¬c ∧ t = s.setStatus o') ∨
      (check = none ∧ c ∧ t = u))
    (hi : i ≠ .reset) (hu : check = none → c → Effect s i u) : Effect s i t := by
  rcases h with ⟨o, -, rfl⟩ | ⟨-, -, rfl⟩ | ⟨hc, hok, rfl⟩
  · exact .status _ _ hi
  · exact .status _ _ hi
  · exact hu hc hok

/-- Every command has one of the effects. -/
theorem exec_effect {i : Instr} (h : exec i s = .next t) : Effect s i t := by
  cases i with
  | nop =>
    rcases execNop_next h with ⟨-, rfl⟩ | ⟨-, rfl⟩ <;> exact .status _ _ nofun
  | reset =>
    obtain rfl := execReset_next h
    exact .reset
  | initEnc m k n z =>
    exact effect_of_checks (execInitEnc_next h) nofun fun hc hp =>
      .openEnc m k n z (idleCheck_eq_none.1 hc) (validParams_iff.1 hp)
  | put slot =>
    exact effect_of_checks (execPut_next h) nofun fun hc hk =>
      .load slot (by simpa using (sessionCheck_eq_none.1 hc).2.2) hk
  | encode =>
    rcases execEncode_next h with
      ⟨o, -, rfl⟩ | ⟨-, rfl⟩ | ⟨-, -, rfl⟩ | ⟨hs, -, -, rfl⟩ | ⟨hs, hl, g, -, rfl⟩
    · exact .status _ _ nofun
    · exact .status _ _ nofun
    · exact .status _ _ nofun
    · exact .fault _ (.inl ⟨rfl, hs⟩)
    · exact .encode g hs hl
  | get esi =>
    exact effect_of_checks (execGet_next h) nofun fun hc _ =>
      .output _ _ (by simp [Instr.opcode]) (ne_idle_of_sessionCheck hc) (length_slotSymbol s esi)
  | initDec m k n z =>
    exact effect_of_checks (execInitDec_next h) nofun fun hc hp =>
      .openDec m k n z (idleCheck_eq_none.1 hc) (validParams_iff.1 hp)
  | accept esi =>
    rcases execAccept_next h with
      ⟨o, -, rfl⟩ | ⟨-, -, rfl⟩ | ⟨-, -, rfl⟩ | ⟨-, -, -, rfl⟩ | ⟨hs, hn, hnew, h⟩
    · exact .status _ _ nofun
    · exact .status _ _ nofun
    · exact .status _ _ nofun
    · exact .status _ _ nofun
    · rcases acceptNew_next h with ⟨-, rfl⟩ | ⟨row, u, hrow, hu, ht⟩
      · exact .acceptFault esi hs hn
      · exact .accept esi row u t hs hn hnew hrow hu ht
  | getsrc j =>
    exact effect_of_checks (execGetsrc_next h) nofun fun hc _ =>
      .output _ _ (by simp [Instr.opcode]) (ne_idle_of_sessionCheck hc) (length_slotSymbol s j)
  | dget row col =>
    exact effect_of_checks (execDget_next h) nofun fun _ _ => .result _ _ (by simp [Instr.opcode])
  | dpiv row =>
    exact effect_of_checks (execDpiv_next h) nofun fun _ _ => .result _ _ (by simp [Instr.opcode])
  | seenq esi =>
    exact effect_of_checks (execSeenq_next h) nofun fun _ _ => .result _ _ (by simp [Instr.opcode])
  | gfadd m x y =>
    exact effect_of_checks (execGfadd_next h) nofun fun _ _ => .result _ _ (by simp [Instr.opcode])
  | gfmul m x y =>
    exact effect_of_checks (execGfmul_next h) nofun fun _ _ => .result _ _ (by simp [Instr.opcode])
  | gfinv m x =>
    rcases execGfinv_next h with ⟨o, -, rfl⟩ | ⟨-, -, rfl⟩ | ⟨-, -, v, -, rfl⟩
    · exact .status _ _ nofun
    · exact .status _ _ nofun
    · exact .result _ _ (by simp [Instr.opcode])
  | vclr =>
    rcases execVclr_next h with ⟨o, -, rfl⟩ | ⟨hc, rfl⟩
    · exact .status _ _ nofun
    · exact .accumulate _ _ (by simp [Instr.opcode]) (ne_idle_of_sessionCheck hc) (by simp)
  | vaddmul coef =>
    exact effect_of_checks (execVaddmul_next h) nofun fun hc _ =>
      .accumulate _ _ (by simp [Instr.opcode]) (ne_idle_of_sessionCheck hc) (by simp)
  | vscale coef =>
    exact effect_of_checks (execVscale_next h) nofun fun hc _ =>
      .accumulate _ _ (by simp [Instr.opcode]) (ne_idle_of_sessionCheck hc) (by simp)
  | vout =>
    rcases execVout_next h with ⟨o, -, rfl⟩ | ⟨hc, rfl⟩
    · exact .status _ _ nofun
    · exact .output _ _ (by simp [Instr.opcode]) (ne_idle_of_sessionCheck hc) (length_vaccSymbol s)
  | gget esi col =>
    rcases execGget_next h with ⟨o, -, rfl⟩ |
      ⟨hc, ⟨-, rfl⟩ | ⟨-, -, rfl⟩ | ⟨-, -, -, rfl⟩ | ⟨-, -, row, -, rfl⟩⟩
    · exact .status _ _ nofun
    · exact .status _ _ nofun
    · exact .status _ _ nofun
    · exact .fault _ (.inr ⟨⟨esi, col, rfl⟩, (sessionCheck_eq_none.1 hc).2.2⟩)
    · exact .result _ _ (by simp [Instr.opcode])

/-- The elimination step writes D, PIV, SYM and RANK and nothing else. -/
theorem decInsert_frame {e : Equation} {u : State} (h : decInsert e s = some u) :
    u = (s.setElim u.d u.piv u.rank).setSym u.sym := by
  rcases decInsert_some h with ⟨-, rfl⟩ | ⟨q, v, -, -, rfl⟩
  · rfl
  · rw [insertEquation_frame]
    rfl

/-- What ACCEPT of a new ESI leaves as it was, and its two outcomes (R242). -/
theorem accept_frame {esi : Nat} {e : Equation} {u : State}
    (hu : decInsert e (s.setSeen (indexInsert s.seen esi)) = some u) (ht : acceptOutcome u = .next t) :
    (t.state = .decDone ∨ t.state = s.state) ∧ t.inst = s.inst ∧ t.k = s.k ∧ t.n = s.n ∧
      t.symsz = s.symsz ∧ t.m = s.m ∧ t.res = s.res ∧ t.loaded = s.loaded ∧ t.iobuf = s.iobuf ∧
      t.vacc = s.vacc := by
  rw [decInsert_frame hu] at ht
  rcases acceptOutcome_next ht with ⟨-, rfl⟩ | ⟨-, rfl⟩ <;> simp

/-- A property that every command keeps, and that a change of the host's lists or of STATUS and a buffer write
keep, is kept by every step: a hardware reset leaves what RESET leaves. -/
theorem step_keeps {I : State → Prop} (hpending : ∀ s l, I s → I (s.setPending l))
    (hrespond : ∀ s r, I s → I (s.respond r)) (hstatus : ∀ s o, I s → I (s.setStatus o))
    (hwrite : ∀ s o v, I s → o < s.inst.symszMax → I (s.setIobuf (s.iobuf.write o v)))
    (hexec : ∀ i s t, I s → exec i s = .next t → I t) (hs : I s) (h : step s = .next t) : I t := by
  rcases step_next h with ⟨-, rfl⟩ | ⟨x, ts, -, hx⟩
  · exact hs
  · have hp := hpending s ts hs
    rcases transact_next hx with
      ⟨w, u, -, hu, rfl⟩ | ⟨r, -, rfl⟩ | ⟨o, v, -, rfl⟩ | ⟨o, -, rfl⟩ | ⟨-, rfl⟩
    · refine hrespond _ _ ?_
      rcases runCommand_next hu with ⟨i, -, hi⟩ | ⟨-, rfl⟩
      · exact hexec i _ _ hp hi
      · exact hstatus _ _ hp
    · rw [doRegrd_eq]
      exact hrespond _ _ hp
    · rcases doBufwr_cases o v (s.setPending ts) with ⟨ho, heq⟩ | ⟨-, heq⟩ <;> rw [heq]
      · exact hrespond _ _ (hwrite _ _ v hp ho)
      · exact hrespond _ _ hp
    · rcases doBufrd_cases o (s.setPending ts) with ⟨-, heq⟩ | ⟨-, heq⟩ <;> rw [heq] <;>
        exact hrespond _ _ hp
    · exact hexec .reset _ _ hp rfl

/-- No command changes the parameters (R322). -/
theorem exec_inst {i : Instr} (h : exec i s = .next t) : t.inst = s.inst := by
  cases exec_effect h with
  | accept esi row u t hs hn hnew hrow hu ht => exact (accept_frame hu ht).2.1
  | _ => rfl

/-- No step changes the parameters (R322). -/
theorem step_inst (h : step s = .next t) : t.inst = s.inst :=
  step_keeps (I := fun u => u.inst = s.inst) (fun _ _ hu => hu) (fun _ _ hu => hu) (fun _ _ hu => hu)
    (fun _ _ _ hu _ => hu) (fun _ _ _ hu hi => (exec_inst hi).trans hu) rfl h

end Sys2Proof.Machine
end

section
/-! ### Registers, buffers and resets (10_state.md R25 to R37, R46) -/

namespace Sys2Proof.Machine

variable {s t : State}

theorem paramsOk_iff {p : Params} : paramsOk p = true ↔
    p.mSet ≠ [] ∧ (∀ i ∈ p.mSet, 1 ≤ i ∧ i ≤ 16) ∧ p.mSet.Pairwise (· < ·) ∧ 1 ≤ p.nMax ∧
      p.nMax ≤ 65536 ∧ 1 ≤ p.symszMax ∧ p.symszMax ≤ 65535 := by
  simp [paramsOk, and_assoc]

/-! #### The CAP registers -/

/-- The bits of capM's fold: those of the word it starts from, and the numbers listed. -/
theorem getLsbD_foldl_or_shift (l : List Nat) (w : RegWord) {j : Nat} (hj : j < 32) :
    (l.foldl (fun (w : RegWord) i => w ||| (1 <<< i)) w).getLsbD j =
      (w.getLsbD j || decide (j ∈ l)) := by
  induction l generalizing w with
  | nil => simp
  | cons i l ih =>
    have hbit : (BitVec.ofNat 32 (1 <<< i)).getLsbD j = decide (j = i) := by
      rw [BitVec.getLsbD_ofNat, Nat.one_shiftLeft, Nat.testBit_two_pow]
      simp [hj, eq_comm]
    rw [List.foldl_cons, ih, BitVec.getLsbD_or]
    simp [-BitVec.getLsbD_eq_getElem, hbit, Bool.or_assoc]

/-- Bit j of CAP_M says whether j is in M_SET (R26). -/
theorem getLsbD_capM {p : Params} (hp : paramsOk p = true) (j : Nat) :
    (capM p).getLsbD j = decide (j ∈ p.mSet) := by
  obtain ⟨-, hrange, -⟩ := paramsOk_iff.1 hp
  by_cases hj : j < 32
  · rw [capM, getLsbD_foldl_or_shift _ _ hj]
    simp
  · have hmem : j ∉ p.mSet := fun h => by
      have := hrange j h
      omega
    simp [hmem, BitVec.getLsbD_of_ge (capM p) j (not_lt.1 hj)]

/-- The CAP registers read the parameters and nothing else. -/
theorem regValue_cap {r : BitVec 8} (hr : r.toNat ≤ 2) (h : t.inst = s.inst) :
    regValue t r = regValue s r := by
  unfold regValue
  rw [h]
  interval_cases r.toNat <;> rfl

/-- Settles O12: the bits of CAP_M by the fold over M_SET, and no step changes the parameters. -/
theorem capabilityRegistersShowParameters : Obligations.CapabilityRegistersShowParameters := by
  refine ⟨fun s hs => ?_, by decide, by decide, by decide⟩
  obtain ⟨-, hrange, -, -, hn, -, hz⟩ := paramsOk_iff.1 hs
  refine ⟨⟨_, rfl, fun i _ _ => getLsbD_capM hs i, ?_, fun i hi => ?_⟩, ⟨_, rfl, ?_⟩, ⟨_, rfl, ?_⟩,
    fun t ht => ?_⟩
  · rw [getLsbD_capM hs]
    exact decide_eq_false fun h => absurd (hrange 0 h).1 (by decide)
  · rw [getLsbD_capM hs]
    exact decide_eq_false fun h => absurd (hrange i h).2 (by omega)
  · exact Nat.mod_eq_of_lt (by omega)
  · exact Nat.mod_eq_of_lt (by omega)
  · have hinst := step_inst ht
    exact ⟨regValue_cap (by decide) hinst, regValue_cap (by decide) hinst, regValue_cap (by decide) hinst⟩

/-! #### Resets -/

theorem isResetState_toReset (s : State) : IsResetState (toReset s) := by
  simp [IsResetState, Memory.read, slotOf, matrixGet, sparseGet]

/-- Settles O15: RESET and a hardware reset leave toReset of the state. -/
theorem resetGivesResetState : Obligations.ResetGivesResetState := by
  refine ⟨fun s => ⟨toReset s, rfl, isResetState_toReset s, fun r hr => regValue_cap hr rfl, rfl, rfl, rfl⟩,
    fun s ts hs => ⟨toReset (s.setPending ts), ?_, isResetState_toReset _,
      fun r hr => regValue_cap hr rfl, rfl, rfl, rfl⟩, isResetState_toReset State.reset⟩
  simp [step, performNext, hs, transact]

/-! #### What each command writes -/

/-- Only RESET always leaves its STATE; every other command may keep it. -/
theorem stateTransition_self {i : Instr} (hi : i ≠ .reset) (st : SessionState) :
    stateTransition i st st = true := by
  cases i with
  | reset => exact absurd rfl hi
  | _ => cases st <;> rfl

/-- Settles O19, effect by effect. -/
theorem onlyListedStateTransitions : Obligations.OnlyListedStateTransitions := by
  intro i s t h
  cases exec_effect h with
  | status i o hi => exact stateTransition_self hi s.state
  | result i v hi => exact stateTransition_self (by rintro rfl; simp [Instr.opcode] at hi) s.state
  | output i bs hi => exact stateTransition_self (by rintro rfl; simp [Instr.opcode] at hi) s.state
  | accumulate i bs hi => exact stateTransition_self (by rintro rfl; simp [Instr.opcode] at hi) s.state
  | fault i hi =>
    rcases hi with ⟨rfl, hs⟩ | ⟨⟨esi, col, rfl⟩, hs⟩
    · simp [hs, stateTransition]
    · simp only [List.mem_cons, List.not_mem_nil, or_false] at hs
      simpa [stateTransition, or_assoc] using .inr hs
  | reset => rfl
  | openEnc m k n z hs => simp [hs, stateTransition]
  | openDec m k n z hs => simp [hs, stateTransition]
  | load slot hs => simp [hs, storeSlot, stateTransition]
  | encode g hs => simp [hs, stateTransition]
  | acceptFault esi hs => simp [hs, stateTransition]
  | accept esi row u t hs hn hnew hrow hu ht =>
    obtain ⟨hstate, -⟩ := accept_frame hu ht
    rcases hstate with hstate | hstate <;> simp [hs, hstate, stateTransition]

/-- Settles O21, effect by effect. -/
theorem registersWrittenOnlyByListedCommands : Obligations.RegistersWrittenOnlyByListedCommands := by
  intro i s t h
  cases exec_effect h with
  | fault i hi =>
    rcases hi with ⟨rfl, -⟩ | ⟨⟨esi, col, rfl⟩, -⟩ <;> simp [Instr.opcode]
  | result i v hi =>
    simp only [List.mem_cons, List.not_mem_nil] at hi
    simp
    tauto
  | accept esi row u t hs hn hnew hrow hu ht =>
    obtain ⟨-, -, hk, hn, hz, hm, hres, hl, -⟩ := accept_frame hu ht
    simp [*, Instr.opcode]
  | _ => simp [storeVacc, storeSlot, Instr.opcode]

/-- Settles O22, effect by effect; a symbol is SYMSZ bytes long. -/
theorem buffersWrittenOnlyByListedCommands : Obligations.BuffersWrittenOnlyByListedCommands := by
  intro i s t h hreset hio hva
  cases exec_effect h with
  | reset => exact absurd rfl hreset
  | output i bs hi hs hlen =>
    refine ⟨fun h => absurd hi h, fun _ => rfl, fun o ho => ⟨?_, rfl⟩⟩
    simp [Memory.read_writeBytes hio, hlen, not_lt.2 ho]
  | accumulate i bs hi hs hlen =>
    refine ⟨fun _ => rfl, fun h => absurd hi h, fun o ho => ⟨rfl, ?_⟩⟩
    simp [storeVacc_read hva, hlen, not_lt.2 ho]
  | accept esi row u t hs hn hnew hrow hu ht =>
    obtain ⟨-, -, -, -, -, -, -, -, hio, hva⟩ := accept_frame hu ht
    simp [hio, hva]
  | _ => simp [storeSlot]

end Sys2Proof.Machine
end

section
/-! ### Bounds of the stores (10_state.md R36 to R42) -/

namespace Sys2Proof.Machine

variable {α : Type}

/-- What a run of writes lists: old entries, and values of the list at indices of the run. -/
theorem mem_sparseWrite [DecidableEq α] {dflt : α} {t : Sparse α} {a : Nat} {vs : List α} {x : Nat × α}
    (h : x ∈ sparseWrite dflt t a vs) : x ∈ t ∨ (a ≤ x.1 ∧ x.1 < a + vs.length ∧ x.2 ∈ vs) := by
  induction vs generalizing t a with
  | nil => exact .inl h
  | cons v vs ih =>
    rcases ih h with hset | ⟨hlo, hhi, hv⟩
    · rcases mem_sparseSet hset with ht | ⟨rfl, -⟩
      · exact .inl ht
      · exact .inr ⟨le_rfl, by simp, List.mem_cons_self⟩
    · exact .inr ⟨by omega, by rw [List.length_cons]; omega, List.mem_cons_of_mem _ hv⟩

/-- What is read is the default or a listed value. -/
theorem sparseGet_mem (dflt : α) (t : Sparse α) (i : Nat) :
    sparseGet dflt t i = dflt ∨ (i, sparseGet dflt t i) ∈ t := by
  induction t with
  | nil => exact .inl rfl
  | cons x t ih =>
    obtain ⟨j, w⟩ := x
    by_cases hij : i = j
    · simp [sparseGet, hij]
    · simpa [sparseGet, hij] using ih

/-- A memory that lists offsets below `size` only still does after a write of at most `size` bytes. -/
theorem writeBytes_inside {mem : Memory} {bs : List Byte} {size : Nat} (hmem : ∀ x ∈ mem, x.1 < size)
    (hbs : bs.length ≤ size) : ∀ x ∈ mem.writeBytes 0 bs, x.1 < size := by
  intro x hx
  rcases mem_sparseWrite hx with hx | ⟨-, hlt, -⟩
  · exact hmem x hx
  · omega

/-- The symbol store lists slots below `slots` only, and in them offsets below `size` only (R38). -/
def SlotsInside (slots size : Nat) (sym : Sparse Memory) : Prop :=
  ∀ x ∈ sym, x.1 < slots ∧ ∀ y ∈ x.2, y.1 < size

/-- D lists rows and columns below `k` only, and in them m-bit values only (R40). -/
def RowsInside (k m : Nat) (d : Sparse (Sparse Elem)) : Prop :=
  ∀ x ∈ d, x.1 < k ∧ ∀ y ∈ x.2, y.1 < k ∧ y.2.toNat < 2 ^ m

/-- A row of at most `k` m-bit values. -/
def RowFits (k m : Nat) (row : List Elem) : Prop :=
  row.length ≤ k ∧ ∀ x ∈ row, IsElem m x

theorem mem_writeSlot {sym : Sparse Memory} {i : Nat} {bs : List Byte} {x : Nat × Memory}
    (h : x ∈ writeSlot sym i bs) : x ∈ sym ∨ x.1 = i :=
  (mem_sparseSet h).imp_right fun hx => congrArg Prod.fst hx.1

theorem mem_writeMatrixRow {d : Sparse (Sparse Elem)} {r : Nat} {row : List Elem}
    {x : Nat × Sparse Elem} (h : x ∈ writeMatrixRow d r row) : x ∈ d ∨ x.1 = r :=
  (mem_sparseSet h).imp_right fun hx => congrArg Prod.fst hx.1

variable {slots size k m : Nat} {sym : Sparse Memory} {d : Sparse (Sparse Elem)}

theorem slotsInside_writeSlot {i : Nat} {bs : List Byte} (h : SlotsInside slots size sym)
    (hi : i < slots) (hbs : bs.length ≤ size) : SlotsInside slots size (writeSlot sym i bs) := by
  intro x hx
  rcases mem_sparseSet hx with hx | ⟨rfl, -⟩
  · exact h x hx
  · refine ⟨hi, writeBytes_inside ?_ hbs⟩
    rcases sparseGet_mem [] sym i with hnil | hmem
    · simp [slotOf, hnil]
    · exact (h _ hmem).2

theorem slotsInside_encodeSlots {g : List (List Elem)} {is : List Nat} (h : SlotsInside slots size sym)
    (his : ∀ i ∈ is, i < slots) : SlotsInside slots size (encodeSlots m k size g is sym) := by
  induction is generalizing sym with
  | nil => exact h
  | cons i is ih =>
    exact ih (slotsInside_writeSlot h (his i List.mem_cons_self) (length_pack ..).le)
      fun j hj => his j (List.mem_cons_of_mem _ hj)

theorem encodeSlots_wf {g : List (List Elem)} {is : List Nat} (h : symWf sym = true) :
    symWf (encodeSlots m k size g is sym) = true := by
  induction is generalizing sym with
  | nil => exact h
  | cons i is ih => exact ih (writeSlot_wf h i _)

theorem rowsInside_writeMatrixRow {r : Nat} {row : List Elem} (h : RowsInside k m d) (hr : r < k)
    (hrow : RowFits k m row) : RowsInside k m (writeMatrixRow d r row) := by
  obtain ⟨hlen, helem⟩ := hrow
  intro x hx
  rcases mem_sparseSet hx with hx | ⟨rfl, -⟩
  · exact h x hx
  · refine ⟨hr, fun y hy => ?_⟩
    rcases mem_sparseWrite hy with hy | ⟨-, hlt, hmem⟩
    · rcases sparseGet_mem [] d r with hnil | hmem
      · simp [hnil] at hy
      · exact (h _ hmem).2 y hy
    · exact ⟨by omega, helem _ hmem⟩

/-- The elements of D are m-bit values (R40). -/
theorem isElem_matrixGet (h : RowsInside k m d) (r c : Nat) : IsElem m (matrixGet d r c) := by
  rw [matrixGet]
  rcases sparseGet_mem 0 (sparseGet [] d r) c with hzero | hmem
  · rw [hzero]
    exact isElem_zero m
  · rcases sparseGet_mem [] d r with hnil | hrow
    · simp [hnil] at hmem
    · exact ((h _ hrow).2 _ hmem).2

/-- A row that D does not list is zero. -/
theorem matrixGet_of_not_listed {r : Nat} (h : ∀ x ∈ d, x.1 ≠ r) (c : Nat) : matrixGet d r c = 0 := by
  rcases sparseGet_mem [] d r with hnil | hmem
  · simp [matrixGet, hnil, sparseGet]
  · exact absurd rfl (h _ hmem)

/-! ### Rows of m-bit values -/

theorem rowFits_matrixRow (h : RowsInside k m d) (r : Nat) : RowFits k m (matrixRow d r k) := by
  refine ⟨(length_matrixRow d r k).le, fun x hx => ?_⟩
  obtain ⟨c, -, rfl⟩ := List.mem_map.1 hx
  exact isElem_matrixGet h r c

theorem rowFits_vecMul {row : List Elem} (hm : m ≤ 16) (h : RowFits k m row) (c : Elem) :
    RowFits k m (vecMul m c row) := by
  refine ⟨by simpa using h.1, fun x hx => ?_⟩
  obtain ⟨y, -, rfl⟩ := List.mem_map.1 hx
  exact gfMul_lt hm c y

theorem rowFits_vecAddMul {u : List Elem} (hm : m ≤ 16) (h : RowFits k m u) (c : Elem)
    (v : List Elem) : RowFits k m (vecAddMul m u c v) := by
  refine ⟨by simp [h.1], fun x hx => ?_⟩
  obtain ⟨i, hi, rfl⟩ := List.mem_iff_getElem.1 hx
  simp only [vecAddMul, vecAdd, vecMul, List.getElem_zipWith, List.getElem_map]
  exact gfAdd_lt (h.2 _ (List.getElem_mem _)) (gfMul_lt hm _ _)

/-- A row of the generator has at most k elements, m-bit values (R185). -/
theorem rowFits_genRow {e : Nat} {row : List Elem} (hm : m ≤ 16) (h : genRow m k e = some row) :
    RowFits k m row := by
  have hfold : ∀ (l : List (Elem × List Elem)) (acc : List Elem), RowFits k m acc →
      RowFits k m (l.foldl (fun acc tb => vecAddMul m acc tb.1 tb.2) acc) := fun l => by
    induction l with
    | nil => exact fun acc hacc => hacc
    | cons tb l ih => exact fun acc hacc => ih _ (rowFits_vecAddMul hm hacc tb.1 tb.2)
  simp only [genRow] at h
  split at h
  · cases h
  · obtain rfl := Option.some.inj h
    refine hfold _ _ ⟨(length_zeroVec k).le, fun x hx => ?_⟩
    rw [List.eq_of_mem_replicate hx]
    exact isElem_zero m

theorem rowElem_of_le {row : List Elem} {c : Nat} (h : row.length ≤ c) : rowElem row c = 0 :=
  List.getD_eq_default row 0 h

/-- An element of a row, or the 0 read beyond its end, is an m-bit value. -/
theorem isElem_rowElem {row : List Elem} (h : RowFits k m row) (c : Nat) : IsElem m (rowElem row c) := by
  by_cases hc : c < row.length
  · rw [rowElem, List.getD_eq_getElem _ _ hc]
    exact h.2 _ (List.getElem_mem hc)
  · rw [rowElem_of_le (not_lt.1 hc)]
    exact isElem_zero m

theorem rowElem_matrixRow (d : Sparse (Sparse Elem)) (r : Nat) {c count : Nat} (hc : c < count) :
    rowElem (matrixRow d r count) c = matrixGet d r c := by
  rw [rowElem, getD_matrixRow, if_pos hc]

/-- The elements of a sum u + f v. -/
theorem rowElem_vecAddMul {u v : List Elem} (f : Elem) {c : Nat} (hu : c < u.length)
    (hv : c < v.length) :
    rowElem (vecAddMul m u f v) c = gfAdd (rowElem u c) (gfMul m f (rowElem v c)) :=
  getD_vecAddMul m u f v c hu hv

theorem rowElem_vecMul (f : Elem) (v : List Elem) (c : Nat) :
    rowElem (vecMul m f v) c = gfMul m f (rowElem v c) := by
  by_cases hc : c < v.length
  · exact getD_vecMul m f v c hc
  · rw [rowElem_of_le (by simpa using hc), rowElem_of_le (not_lt.1 hc), gfMul_zero]

end Sys2Proof.Machine
end

section
/-! ### The elimination step, element by element (44_session_decode.md R243) -/

namespace Sys2Proof.Machine

variable {s t : State} {p q : Nat} {e : Equation}

/-- The stores that the elimination writes are in canonical form and inside the session's bounds. -/
structure ElimInside (s : State) : Prop where
  canonicalSym : symWf s.sym = true
  canonicalD : matrixWf s.d = true
  slots : SlotsInside (kOf s) (symszOf s) s.sym
  rows : RowsInside (kOf s) (mOf s) s.d

/-- D and SYM list only indices of `l`. -/
def ListedIn (l : List Nat) (s : State) : Prop :=
  (∀ x ∈ s.d, x.1 ∈ l) ∧ ∀ x ∈ s.sym, x.1 ∈ l

/-! #### Step a: reduction by the stored rows -/

theorem rowFits_reduceBy (hm : mOf s ≤ 16) (h : RowFits (kOf s) (mOf s) e.1) (p : Nat) :
    RowFits (kOf s) (mOf s) (reduceBy s e p).1 := by
  unfold reduceBy
  split
  · exact rowFits_vecAddMul hm h _ _
  · exact h

/-- The elements of a row reduced by stored row p. -/
theorem rowElem_reduceBy (h : RowFits (kOf s) (mOf s) e.1) (hp : p ∈ s.piv) {c : Nat}
    (hc : c < e.1.length) : rowElem (reduceBy s e p).1 c =
      gfAdd (rowElem e.1 c) (gfMul (mOf s) (rowElem e.1 p) (matrixGet s.d p c)) := by
  unfold reduceBy
  by_cases hzero : rowElem e.1 p = 0
  · rw [if_neg (fun hh => hh.2 hzero), hzero, zero_gfMul, gfAdd_zero]
  · have hk : c < kOf s := hc.trans_le h.1
    rw [if_pos ⟨hp, hzero⟩, eqnAddMul, rowElem_vecAddMul _ hc (by simpa [storedEquation] using hk),
      storedEquation, rowElem_matrixRow _ _ hk]

theorem length_reduceBy (h : RowFits (kOf s) (mOf s) e.1) (p : Nat) :
    (reduceBy s e p).1.length = e.1.length := by
  unfold reduceBy
  split
  · simp [eqnAddMul, storedEquation, h.1]
  · rfl

/-- Step a keeps a row of m-bit values, and over an echelon form clears it at every pivot column. -/
theorem reduceEquation_spec (h1 : 1 ≤ mOf s) (hm : mOf s ≤ 16) (h : RowFits (kOf s) (mOf s) e.1) :
    RowFits (kOf s) (mOf s) (reduceEquation s e).1 ∧
      (Echelon s → ∀ p ∈ s.piv, p < kOf s → rowElem (reduceEquation s e).1 p = 0) := by
  suffices hfold : ∀ n, RowFits (kOf s) (mOf s) ((List.range n).foldl (reduceBy s) e).1 ∧
      (Echelon s → ∀ p ∈ s.piv, p < n → rowElem ((List.range n).foldl (reduceBy s) e).1 p = 0) from
    hfold (kOf s)
  intro n
  induction n with
  | zero => exact ⟨h, fun _ _ _ hp => absurd hp (Nat.not_lt_zero _)⟩
  | succ n ih =>
    rw [List.range_succ, List.foldl_append]
    generalize (List.range n).foldl (reduceBy s) e = r at ih
    obtain ⟨hfits, hzero⟩ := ih
    refine ⟨rowFits_reduceBy hm hfits n, fun hech p hp hpn => ?_⟩
    change rowElem (reduceBy s r n).1 p = 0
    by_cases hlen : p < r.1.length
    · have hrows := hech.2.2
      by_cases hn : n ∈ s.piv
      · rw [rowElem_reduceBy hfits hn hlen]
        obtain ⟨hone, hother, -⟩ := hrows n hn
        by_cases hpn' : p = n
        · subst hpn'
          rw [hone, gfMul_one h1 hm (isElem_rowElem hfits p), gfAdd_self]
        · rw [hother p hp hpn', hzero hech p hp (by omega), gfMul_zero, gfAdd_zero]
      · rw [reduceBy, if_neg fun hh => hn hh.1]
        exact hzero hech p hp (lt_of_le_of_ne (Nat.lt_succ_iff.1 hpn) fun hh => hn (hh ▸ hp))
    · exact rowElem_of_le (by rw [length_reduceBy hfits]; omega)

/-! #### Steps d and e: clearing a column and storing the row -/

theorem elimInside_storeEquation (h : ElimInside s) (hp : p < kOf s)
    (he : RowFits (kOf s) (mOf s) e.1) : ElimInside (storeEquation p e s) :=
  ⟨writeSlot_wf h.canonicalSym p _, writeMatrixRow_wf h.canonicalD p e.1,
    slotsInside_writeSlot h.slots hp (length_pack ..).le, rowsInside_writeMatrixRow h.rows hp he⟩

theorem matrixGet_storeEquation (h : ElimInside s) (p a c : Nat) (e : Equation) :
    matrixGet (storeEquation p e s).d a c =
      if a = p ∧ c < e.1.length then rowElem e.1 c else matrixGet s.d a c :=
  matrixGet_writeMatrixRow h.canonicalD p a c e.1

theorem listedIn_storeEquation {l : List Nat} (h : ListedIn l s) (hp : p ∈ l) (e : Equation) :
    ListedIn l (storeEquation p e s) := by
  refine ⟨fun x hx => ?_, fun x hx => ?_⟩
  · rcases mem_writeMatrixRow hx with hx | rfl
    · exact h.1 x hx
    · exact hp
  · rcases mem_writeSlot hx with hx | rfl
    · exact h.2 x hx
    · exact hp

theorem clearStored_of_not {a : Nat} (h : ¬(a ≠ q ∧ a ∈ s.piv)) : clearStored q e s a = s :=
  if_neg fun hh => h ⟨hh.1, hh.2.1⟩

theorem elimInside_clearStored (h : ElimInside s) (hm : mOf s ≤ 16) (hp : p < kOf s) (q : Nat)
    (e : Equation) : ElimInside (clearStored q e s p) := by
  unfold clearStored
  split
  · exact elimInside_storeEquation h hp (rowFits_vecAddMul hm (rowFits_matrixRow h.rows p) _ _)
  · exact h

theorem listedIn_clearStored {l : List Nat} (h : ListedIn l s) (hl : ∀ a ∈ s.piv, a ∈ l) (p q : Nat)
    (e : Equation) : ListedIn l (clearStored q e s p) := by
  unfold clearStored
  split
  · exact listedIn_storeEquation h (hl p (by tauto)) _
  · exact h

/-- Clearing column q of stored row p adds D[p][q] times the new row to it. -/
theorem matrixGet_clearStored (h : ElimInside s) (hlen : e.1.length ≤ kOf s) (p q a c : Nat) :
    matrixGet (clearStored q e s p).d a c =
      if a = p ∧ p ≠ q ∧ p ∈ s.piv then
        gfAdd (matrixGet s.d a c) (gfMul (mOf s) (matrixGet s.d a q) (rowElem e.1 c))
      else matrixGet s.d a c := by
  by_cases hcond : p ≠ q ∧ p ∈ s.piv
  · by_cases ha : a = p
    · subst ha
      rw [if_pos ⟨rfl, hcond⟩, clearStored]
      by_cases hzero : matrixGet s.d a q = 0
      · rw [if_neg fun hh => hh.2.2 hzero, hzero, zero_gfMul, gfAdd_zero]
      · rw [if_pos ⟨hcond.1, hcond.2, hzero⟩, matrixGet_storeEquation h]
        by_cases hc : c < e.1.length
        · rw [if_pos ⟨rfl, by simp [eqnAddMul, storedEquation]; omega⟩, eqnAddMul,
            rowElem_vecAddMul _ (by simp [storedEquation]; omega) hc, storedEquation,
            rowElem_matrixRow _ _ (by omega)]
        · rw [if_neg fun hh => hc (by simpa [eqnAddMul, storedEquation, hlen] using hh.2),
            rowElem_of_le (not_lt.1 hc), gfMul_zero, gfAdd_zero]
    · rw [if_neg fun hh => ha hh.1, clearStored]
      split
      · rw [matrixGet_storeEquation h, if_neg fun hh => ha hh.1]
      · rfl
  · rw [clearStored_of_not hcond, if_neg fun hh => hcond hh.2]

/-- Clearing keeps PIV and the session's parameters. -/
theorem foldl_clearStored_kept (q : Nat) (e : Equation) (l : List Nat) (s : State) :
    (l.foldl (clearStored q e) s).piv = s.piv ∧ kOf (l.foldl (clearStored q e) s) = kOf s ∧
      mOf (l.foldl (clearStored q e) s) = mOf s := by
  rw [foldl_clearStored_frame]
  exact ⟨rfl, rfl, rfl⟩

/-- Step d: the stored rows below n with column q cleared. -/
theorem foldl_clearStored_spec (h : ElimInside s) (hm : mOf s ≤ 16) (hlen : e.1.length ≤ kOf s)
    {l : List Nat} (hpiv : ∀ a ∈ s.piv, a ∈ l) (q : Nat) {n : Nat} (hn : n ≤ kOf s) :
    ElimInside ((List.range n).foldl (clearStored q e) s) ∧
      (ListedIn l s → ListedIn l ((List.range n).foldl (clearStored q e) s)) ∧
      ∀ a c, matrixGet ((List.range n).foldl (clearStored q e) s).d a c =
        if a < n ∧ a ≠ q ∧ a ∈ s.piv then
          gfAdd (matrixGet s.d a c) (gfMul (mOf s) (matrixGet s.d a q) (rowElem e.1 c))
        else matrixGet s.d a c := by
  induction n with
  | zero => exact ⟨h, id, fun a c => by simp⟩
  | succ n ih =>
    obtain ⟨hin, hlist, hget⟩ := ih (by omega)
    obtain ⟨hpiv', hk, hm'⟩ := foldl_clearStored_kept q e (List.range n) s
    rw [List.range_succ, List.foldl_append]
    generalize (List.range n).foldl (clearStored q e) s = u at *
    refine ⟨elimInside_clearStored hin (by omega) (by omega) q e,
      fun hl => listedIn_clearStored (hlist hl) (hpiv' ▸ hpiv) n q e, fun a c => ?_⟩
    change matrixGet (clearStored q e u n).d a c = _
    rw [matrixGet_clearStored hin (by omega), hpiv', hm', hget a c, hget a q]
    by_cases ha : a = n
    · subst ha
      simp
    · simp [ha, show a < n + 1 ↔ a < n by omega]

/-- Steps d and e, element by element: row q is the new row, and column q is cleared from the other stored
rows. -/
theorem insertEquation_spec (h : ElimInside s) (hm : mOf s ≤ 16) (he : RowFits (kOf s) (mOf s) e.1)
    (hq : q < kOf s) :
    ElimInside (insertEquation q e s) ∧
      (ListedIn s.piv s → ListedIn (indexInsert s.piv q) (insertEquation q e s)) ∧
      ∀ a c, matrixGet (insertEquation q e s).d a c =
        if a = q ∧ c < e.1.length then rowElem e.1 c
        else if a < kOf s ∧ a ≠ q ∧ a ∈ s.piv then
          gfAdd (matrixGet s.d a c) (gfMul (mOf s) (matrixGet s.d a q) (rowElem e.1 c))
        else matrixGet s.d a c := by
  obtain ⟨hpiv, hk, hm'⟩ := foldl_clearStored_kept q e (List.range (kOf s)) s
  obtain ⟨hin, hlist, hget⟩ := foldl_clearStored_spec h hm he.1 (l := indexInsert s.piv q)
    (fun a ha => mem_indexInsert.2 (.inr ha)) q le_rfl
  have hrow : RowFits (kOf ((List.range (kOf s)).foldl (clearStored q e) s))
      (mOf ((List.range (kOf s)).foldl (clearStored q e) s)) e.1 := by rwa [hk, hm']
  have hst := elimInside_storeEquation hin (hk ▸ hq) hrow
  refine ⟨⟨hst.canonicalSym, hst.canonicalD, hst.slots, hst.rows⟩,
    fun hl => listedIn_storeEquation (hlist ⟨fun x hx => mem_indexInsert.2 (.inr (hl.1 x hx)),
      fun x hx => mem_indexInsert.2 (.inr (hl.2 x hx))⟩) (mem_indexInsert.2 (.inl rfl)) e, fun a c => ?_⟩
  exact (matrixGet_storeEquation hin q a c e).trans (by rw [hget])

/-- Over stored rows that are all D lists, an insertion at a new index q: row q is the new row, and each stored
row gains D[p][q] times it. -/
theorem rows_insertEquation (h : ElimInside s) (hm : mOf s ≤ 16) (he : RowFits (kOf s) (mOf s) e.1)
    (hq : q < kOf s) (hpiv : ∀ p ∈ s.piv, p < kOf s) (hd : ∀ x ∈ s.d, x.1 ∈ s.piv) (hnew : q ∉ s.piv) :
    (∀ c, matrixGet (insertEquation q e s).d q c = rowElem e.1 c) ∧
      ∀ p ∈ s.piv, ∀ c, matrixGet (insertEquation q e s).d p c =
        gfAdd (matrixGet s.d p c) (gfMul (mOf s) (matrixGet s.d p q) (rowElem e.1 c)) := by
  obtain ⟨-, -, hget⟩ := insertEquation_spec h hm he hq
  refine ⟨fun c => ?_, fun p hp c => ?_⟩
  · rw [hget]
    by_cases hc : c < e.1.length
    · rw [if_pos ⟨rfl, hc⟩]
    · rw [if_neg fun hh => hc hh.2, if_neg fun hh => hh.2.1 rfl, rowElem_of_le (not_lt.1 hc),
        matrixGet_of_not_listed fun x hx (hxq : x.1 = q) => hnew (hxq ▸ hd x hx)]
  · have hpq : p ≠ q := fun hh => hnew (hh ▸ hp)
    rw [hget, if_neg fun hh => hpq hh.1, if_pos ⟨hpiv p hp, hpq, hp⟩]

end Sys2Proof.Machine
end

section
/-! ### The run invariant (10_state.md R31, R33, R34, R36 to R42, R45) -/

namespace Sys2Proof.Machine

variable {s t : State}

/-- No session has left anything in the stores and their counters. -/
structure Blank (s : State) : Prop where
  vacc : s.vacc = []
  sym : s.sym = []
  srcset : s.srcset = []
  d : s.d = []
  piv : s.piv = []
  seen : s.seen = []
  loaded : s.loaded = 0
  rxcount : s.rxcount = 0
  rank : s.rank = 0

/-- With blank stores the invariant is about IOBUF and the session's parameters only. -/
theorem runInv_of_blank (hb : Blank s) (hp : paramsOk s.inst = true) (hwf : s.iobuf.wf = true)
    (hio : ∀ x ∈ s.iobuf, x.1 < s.inst.symszMax)
    (hidle : s.state = .idle → s.k = 0 ∧ s.n = 0 ∧ s.symsz = 0 ∧ s.m = 0)
    (hsession : s.state ≠ .idle → ParamsAccepted s.inst (mOf s) (kOf s) (nOf s) (symszOf s))
    (hready : s.state ≠ .encReady) : RunInv s := by
  obtain ⟨hvacc, hsym, hsrcset, hd, hpiv, hseen, hloaded, hrxcount, hrank⟩ := hb
  refine ⟨hp, ?_, ?_, ?_, ?_, ?_, hsession, ?_, ?_, ?_, ?_⟩
  · rw [Canonical, hvacc, hsym, hsrcset, hd, hpiv, hseen]
    exact ⟨hwf, rfl, rfl, rfl, rfl, rfl, rfl⟩
  · simp only [InBounds, hvacc, hsym, hsrcset, hd, hpiv, hseen]
    exact ⟨hio, by simp⟩
  · simp [hloaded, hsrcset]
  · simp [hrxcount, hseen]
  · intro h
    obtain ⟨hk, hn, hz, hm⟩ := hidle h
    exact ⟨hk, hn, hz, hm, hrank⟩
  · exact fun _ => ⟨hseen, hpiv, hd, hrank⟩
  · simp [hsym]
  · exact fun h => absurd h hready
  · simp [hsrcset, hsym]

theorem blank_toReset (s : State) : Blank (toReset s) := ⟨rfl, rfl, rfl, rfl, rfl, rfl, rfl, rfl, rfl⟩

theorem runInv_toReset (hp : paramsOk s.inst = true) : RunInv (toReset s) :=
  runInv_of_blank (blank_toReset s) hp rfl (by simp) (fun _ => ⟨rfl, rfl, rfl, rfl⟩)
    (fun h => absurd rfl h) nofun

theorem decodeInv_of_state (h : s.state ≠ .decAcc) (h' : s.state ≠ .decDone) : DecodeInv s :=
  fun hs => absurd hs (not_or.2 ⟨h, h'⟩)

/-- Settles O53: a reset state is blank, and in IDLE the two decode invariants say nothing. -/
theorem invariantsHoldAtReset : Obligations.InvariantsHoldAtReset := by
  have hall : ∀ p : Params, paramsOk p = true →
      RunInv (State.resetOf p) ∧ DecodeInv (State.resetOf p) ∧ SpanInv (State.resetOf p) := fun p hp =>
    ⟨runInv_toReset (s := State.resetOf p) hp, decodeInv_of_state nofun nofun,
      fun h => absurd h (by simp [State.resetOf])⟩
  exact ⟨hall, hall defaultParams (by decide)⟩

/-! #### What the invariant gives -/

theorem runInv_paramsOk (h : RunInv s) : paramsOk s.inst = true := h.1

theorem runInv_paramsAccepted (h : RunInv s) (hs : s.state ≠ .idle) :
    ParamsAccepted s.inst (mOf s) (kOf s) (nOf s) (symszOf s) := by
  obtain ⟨-, -, -, -, -, -, hsession, -⟩ := h
  exact hsession hs

/-- The bounds that R7 and R212 put on a session's parameters. -/
theorem paramsAccepted_bounds {p : Params} {m k n z : Nat} (hp : paramsOk p = true)
    (h : ParamsAccepted p m k n z) :
    (1 ≤ m ∧ m ≤ 16) ∧ (1 ≤ k ∧ k ≤ n ∧ n ≤ 65536) ∧ z ≤ p.symszMax ∧ p.symszMax ≤ 65535 := by
  obtain ⟨-, hrange, -, -, hn, -, hz⟩ := paramsOk_iff.1 hp
  obtain ⟨hm, hk, hkn, -, -, -, hnmax, hzmax⟩ := h
  exact ⟨hrange m hm, ⟨hk, hkn, by omega⟩, hzmax, hz⟩

/-- In a session M is the exponent of a field (R31). -/
theorem runInv_field (h : RunInv s) (hs : s.state ≠ .idle) : 1 ≤ mOf s ∧ mOf s ≤ 16 :=
  (paramsAccepted_bounds (runInv_paramsOk h) (runInv_paramsAccepted h hs)).1

theorem runInv_piv_lt (h : RunInv s) : ∀ p ∈ s.piv, p < kOf s := by
  obtain ⟨-, -, ⟨-, -, -, -, -, hpiv, -⟩, -⟩ := h
  exact hpiv

/-- In IDLE the bounds leave every store but IOBUF empty. -/
theorem blank_of_idle (h : RunInv s) (hs : s.state = .idle) : Blank s := by
  obtain ⟨-, -, ⟨-, hvacc, hsym, hsrcset, hd, hpiv, hseen⟩, hloaded, hrxcount, hidle, -⟩ := h
  obtain ⟨hk, hn, hz, -, hrank⟩ := hidle hs
  simp only [symszOf, nOf, kOf, hk, hn, hz, BitVec.ofNat_eq_ofNat, BitVec.toNat_ofNat, Nat.zero_mod,
    not_lt_zero, false_and] at hvacc hsym hsrcset hd hpiv hseen
  have hsrcset' := List.eq_nil_iff_forall_not_mem.2 hsrcset
  have hseen' := List.eq_nil_iff_forall_not_mem.2 hseen
  exact ⟨List.eq_nil_iff_forall_not_mem.2 hvacc, List.eq_nil_iff_forall_not_mem.2 hsym, hsrcset',
    List.eq_nil_iff_forall_not_mem.2 hd, List.eq_nil_iff_forall_not_mem.2 hpiv, hseen',
    by simpa [hsrcset'] using hloaded, by simpa [hseen'] using hrxcount, hrank⟩

/-! #### What keeps the invariant -/

theorem runInv_setStatus (h : RunInv s) (o : Status) : RunInv (s.setStatus o) := h

theorem runInv_setIobuf (h : RunInv s) {mem : Memory} (hwf : mem.wf = true)
    (hin : ∀ x ∈ mem, x.1 < s.inst.symszMax) : RunInv (s.setIobuf mem) := by
  obtain ⟨hp, ⟨-, hcanon⟩, ⟨-, hbounds⟩, hrest⟩ := h
  exact ⟨hp, ⟨hwf, hcanon⟩, ⟨hin, hbounds⟩, hrest⟩

/-- Writing a byte below SYMSZ_MAX into IOBUF (R61). -/
theorem runInv_write (h : RunInv s) {o : Nat} (v : Byte) (ho : o < s.inst.symszMax) :
    RunInv (s.setIobuf (s.iobuf.write o v)) := by
  have ⟨_, ⟨hwf, _⟩, ⟨hin, _⟩, _⟩ := h
  refine runInv_setIobuf h (Memory.write_wf hwf o v) fun x hx => ?_
  rcases mem_sparseSet hx with hx | ⟨rfl, -⟩
  · exact hin x hx
  · exact ho

/-- Writing a symbol into IOBUF. -/
theorem runInv_output (h : RunInv s) (hs : s.state ≠ .idle) {bs : List Byte}
    (hbs : bs.length = symszOf s) : RunInv (s.setIobuf (s.iobuf.writeBytes 0 bs)) := by
  have ⟨hp, ⟨hwf, _⟩, ⟨hin, _⟩, _⟩ := h
  obtain ⟨-, -, hz, -⟩ := paramsAccepted_bounds hp (runInv_paramsAccepted h hs)
  exact runInv_setIobuf h (Memory.writeBytes_wf hwf 0 bs) (writeBytes_inside hin (hbs ▸ hz))

/-- Writing a symbol into VACC. -/
theorem runInv_storeVacc (h : RunInv s) {bs : List Byte} (hbs : bs.length = symszOf s) :
    RunInv (storeVacc bs s) := by
  obtain ⟨hp, ⟨hio, hwf, hcanon⟩, ⟨hioin, hin, hbounds⟩, hrest⟩ := h
  exact ⟨hp, ⟨hio, Memory.writeBytes_wf hwf 0 bs, hcanon⟩,
    ⟨hioin, writeBytes_inside hin hbs.le, hbounds⟩, hrest⟩

theorem runInv_setFaulted (h : RunInv s) (hs : s.state ≠ .idle) : RunInv (s.setState .faulted) := by
  have hsession := runInv_paramsAccepted h hs
  obtain ⟨hp, hcanon, hbounds, hloaded, hrxcount, -⟩ := h
  exact ⟨hp, hcanon, hbounds, hloaded, hrxcount, nofun, fun _ => hsession, nofun, nofun, nofun, nofun⟩

/-- Accepted parameters fit the registers that latch them (R31). -/
theorem latched_eq {m k n z : Nat} (hp : paramsOk s.inst = true) (h : ParamsAccepted s.inst m k n z) :
    (BitVec.ofNat 32 m).toNat = m ∧ (BitVec.ofNat 32 k).toNat = k ∧ (BitVec.ofNat 32 n).toNat = n ∧
      (BitVec.ofNat 32 z).toNat = z := by
  obtain ⟨hm, hkn, hz⟩ := paramsAccepted_bounds hp h
  simp only [BitVec.toNat_ofNat]
  omega

/-- Opening a session over blank stores. -/
theorem runInv_open (h : RunInv s) {m k n z : Nat} (hacc : ParamsAccepted s.inst m k n z) {t : State}
    (hb : Blank t) (hinst : t.inst = s.inst) (hio : t.iobuf = s.iobuf)
    (hstate : t.state = .encLoad ∨ t.state = .decAcc)
    (hm : t.m = BitVec.ofNat 32 m) (hk : t.k = BitVec.ofNat 32 k) (hn : t.n = BitVec.ofNat 32 n)
    (hz : t.symsz = BitVec.ofNat 32 z) : RunInv t := by
  have ⟨hp, ⟨hwf, _⟩, ⟨hin, _⟩, _⟩ := h
  obtain ⟨em, ek, en, ez⟩ := latched_eq hp hacc
  refine runInv_of_blank hb (hinst ▸ hp) (hio ▸ hwf) (by rwa [hio, hinst]) (fun h => ?_) (fun _ => ?_) ?_
  · rw [h] at hstate
    exact absurd hstate (by decide)
  · rwa [hinst, mOf, kOf, nOf, symszOf, hm, hk, hn, hz, em, ek, en, ez]
  · rcases hstate with h | h <;> rw [h] <;> decide

/-- PUT: the slot written is one of SRCSET's (R39). -/
theorem runInv_load (h : RunInv s) (hs : s.state = .encLoad) {slot : Nat} (hslot : slot < kOf s) :
    RunInv ((storeSlot slot s).setSrcset (indexInsert s.srcset slot)) := by
  have hsession := runInv_paramsAccepted h (by simp [hs])
  obtain ⟨hp, ⟨hio, hvacc, hsym, hsrc, hcanon⟩, ⟨hioin, hvaccin, hsymin, hsrcin, hbounds⟩, -, hrx,
    -, -, henc, hload, -⟩ := h
  obtain ⟨-, hkn, -⟩ := paramsAccepted_bounds hp hsession
  refine ⟨hp, ⟨hio, hvacc, writeSlot_wf hsym _ _, indexInsert_wf slot hsrc, hcanon⟩,
    ⟨hioin, hvaccin, slotsInside_writeSlot hsymin (hslot.trans_le hkn.2.1) (length_iobufSymbol s).le,
      fun i hi => ?_, hbounds⟩, rfl, hrx, ?_, fun _ => hsession, henc, fun _ x hx => ?_, ?_, ?_⟩
  · rcases mem_indexInsert.1 hi with rfl | hi
    · exact hslot
    · exact hsrcin i hi
  · simp [storeSlot, hs]
  · rcases mem_writeSlot hx with hx | rfl
    · exact mem_indexInsert.2 (.inr (hload hs x hx))
    · exact mem_indexInsert.2 (.inl rfl)
  · simp [storeSlot, hs]
  · simp [storeSlot, hs]

/-- A strictly rising list of indices below k has at most k of them. -/
theorem length_le_of_indexSet {l : List Nat} {k : Nat} (h : indexSetWf l = true)
    (hl : ∀ i ∈ l, i < k) : l.length ≤ k := by
  have hnodup : l.Nodup := (of_decide_eq_true h).imp fun hab => hab.ne
  simpa using (hnodup.subperm (l₂ := List.range k) fun i hi => List.mem_range.2 (hl i hi)).length_le

/-- ENCODE: LOADED = K says that SRCSET has all K slots (R33). -/
theorem runInv_encode (h : RunInv s) (hs : s.state = .encLoad) (hl : s.loaded = s.k)
    (g : List (List Elem)) :
    RunInv ((s.setSym (encodeSlots (mOf s) (kOf s) (symszOf s) g
      (List.range' (kOf s) (nOf s - kOf s)) s.sym)).setState .encReady) := by
  have hsession := runInv_paramsAccepted h (by simp [hs])
  obtain ⟨hp, ⟨hio, hvacc, hsym, hsrc, hcanon⟩, ⟨hioin, hvaccin, hsymin, hsrcin, hbounds⟩, hloaded, hrx,
    -, -, henc, -⟩ := h
  have hrepair : ∀ i ∈ List.range' (kOf s) (nOf s - kOf s), i < nOf s := fun i hi => by
    have := List.mem_range'_1.1 hi
    omega
  have hfull : s.srcset.length = kOf s := by
    have hle := length_le_of_indexSet hsrc hsrcin
    have hk : kOf s < 2 ^ 32 := s.k.isLt
    rw [kOf, ← hl, hloaded, BitVec.toNat_ofNat, Nat.mod_eq_of_lt (by omega)]
  exact ⟨hp, ⟨hio, hvacc, encodeSlots_wf hsym, hsrc, hcanon⟩,
    ⟨hioin, hvaccin, slotsInside_encodeSlots hsymin hrepair, hsrcin, hbounds⟩, hloaded, hrx, nofun,
    fun _ => hsession, fun _ => henc (.inl hs), nofun, fun _ => hfull, nofun⟩

/-- Step 3 of ACCEPT: an ESI in range is counted (R242). -/
theorem runInv_setSeen (h : RunInv s) (hs : s.state = .decAcc) {esi : Nat} (hesi : esi < nOf s) :
    RunInv (s.setSeen (indexInsert s.seen esi)) := by
  obtain ⟨hp, ⟨hio, hvacc, hsym, hsrc, hd, hpiv, hseen⟩,
    ⟨hioin, hvaccin, hsymin, hsrcin, hdin, hpivin, hseenin⟩, hloaded, -, hidle, hsession, -, hload, hready,
    hdec⟩ := h
  refine ⟨hp, ⟨hio, hvacc, hsym, hsrc, hd, hpiv, indexInsert_wf esi hseen⟩,
    ⟨hioin, hvaccin, hsymin, hsrcin, hdin, hpivin, fun i hi => ?_⟩, hloaded, rfl, hidle, hsession, ?_, hload,
    hready, hdec⟩
  · rcases mem_indexInsert.1 hi with rfl | hi
    · exact hesi
    · exact hseenin i hi
  · simp [hs]

/-- The stores of the elimination in a decode session (R45). -/
theorem elimInside_of_runInv (h : RunInv s) (hs : s.state = .decAcc) : ElimInside s := by
  obtain ⟨-, ⟨-, -, hsym, -, hd, -⟩, ⟨-, -, hsymin, -, hdin, -⟩, -, -, -, -, -, -, -, hdec⟩ := h
  exact ⟨hsym, hd, fun x hx => ⟨(hdec (.inl hs)).2 x hx, (hsymin x hx).2⟩, hdin⟩

/-- An insertion of the elimination keeps the invariant where it keeps the stores inside their bounds. -/
theorem runInv_insertEquation (h : RunInv s) (hs : s.state = .decAcc) {q : Nat} {e : Equation}
    (hq : q < kOf s) (helim : ElimInside (insertEquation q e s)) : RunInv (insertEquation q e s) := by
  have hsession := runInv_paramsAccepted h (by simp [hs])
  obtain ⟨hp, ⟨hio, hvacc, -, hsrc, -, hpiv, hseen⟩,
    ⟨hioin, hvaccin, -, hsrcin, -, hpivin, hseenin⟩, hloaded, hrx, -, -, -, -, -, hdec⟩ := h
  obtain ⟨hsrcnil, -⟩ := hdec (.inl hs)
  obtain ⟨-, hkn, -⟩ := paramsAccepted_bounds hp hsession
  rw [insertEquation_frame] at helim ⊢
  obtain ⟨hsym, hd, hslots, hrows⟩ := helim
  have hslots' : ∀ x ∈ (insertEquation q e s).sym, x.1 < kOf s ∧ ∀ y ∈ x.2, y.1 < symszOf s := hslots
  refine ⟨hp, ⟨hio, hvacc, hsym, hsrc, hd, indexInsert_wf q hpiv, hseen⟩,
    ⟨hioin, hvaccin, fun x hx => ⟨(hslots' x hx).1.trans_le hkn.2.1, (hslots' x hx).2⟩, hsrcin, hrows,
      fun i hi => ?_, hseenin⟩, hloaded, hrx, ?_, fun _ => hsession, ?_, ?_, ?_, fun _ =>
      ⟨hsrcnil, fun x hx => (hslots' x hx).1⟩⟩
  · rcases mem_indexInsert.1 hi with rfl | hi
    · exact hq
    · exact hpivin i hi
  all_goals simp [hs]

theorem runInv_setDecDone (h : RunInv s) (hs : s.state = .decAcc) : RunInv (s.setState .decDone) := by
  have hsession := runInv_paramsAccepted h (by simp [hs])
  obtain ⟨hp, hcanon, hbounds, hloaded, hrx, -, -, -, -, -, hdec⟩ := h
  exact ⟨hp, hcanon, hbounds, hloaded, hrx, nofun, fun _ => hsession, nofun, nofun, nofun,
    fun _ => hdec (.inl hs)⟩

/-- What the elimination step does to the row of an ESI: nothing, or one insertion of a row of m-bit values
that leads with a 1 at column q; over an echelon form it is zero at the pivot columns, and q is a new one. -/
theorem decInsert_cases (h : RunInv s) (hs : s.state = .decAcc) {e : Equation}
    (he : RowFits (kOf s) (mOf s) e.1) {u : State} (hu : decInsert e s = some u) :
    u = s ∨ ∃ q r, u = insertEquation q r s ∧ q < r.1.length ∧ RowFits (kOf s) (mOf s) r.1 ∧
      rowElem r.1 q = 1 ∧ (∀ c < q, rowElem r.1 c = 0) ∧
      (Echelon s → q ∉ s.piv ∧ ∀ p ∈ s.piv, rowElem r.1 p = 0) := by
  obtain ⟨h1, hm⟩ := runInv_field h (by simp [hs])
  obtain ⟨hfits, hclear⟩ := reduceEquation_spec h1 hm he
  rcases decInsert_some hu with ⟨-, rfl⟩ | ⟨q, v, hq, hv, rfl⟩
  · exact .inl rfl
  · obtain ⟨hqlen, hlead, hbelow⟩ := leadingColumn_some hq
    refine .inr ⟨q, _, rfl, by simpa using hqlen, rowFits_vecMul hm hfits v, ?_, fun c hc => ?_,
      fun hech => ⟨fun hmem => hlead (hclear hech q hmem (runInv_piv_lt h q hmem)), fun p hp => ?_⟩⟩
    · rw [rowElem_vecMul, gfMul_gfInv h1 hm (isElem_rowElem hfits q) hv]
    · rw [rowElem_vecMul, hbelow c hc, gfMul_zero]
    · rw [rowElem_vecMul, hclear hech p hp (runInv_piv_lt h p hp), gfMul_zero]

/-- ACCEPT of a new ESI. -/
theorem runInv_accept (h : RunInv s) (hs : s.state = .decAcc) {esi : Nat} (hesi : esi < nOf s)
    {row : List Elem} (hrow : genRow (mOf s) (kOf s) esi = some row) {data : List Elem} {u t : State}
    (hu : decInsert (row, data) (s.setSeen (indexInsert s.seen esi)) = some u)
    (ht : acceptOutcome u = .next t) : RunInv t := by
  obtain ⟨-, hm⟩ := runInv_field h (by simp [hs])
  have hseen := runInv_setSeen h hs hesi
  have hfits : RowFits (kOf s) (mOf s) row := rowFits_genRow hm hrow
  have hinv : RunInv u ∧ u.state = .decAcc := by
    rcases decInsert_cases (e := (row, data)) hseen hs hfits hu with rfl | ⟨q, r, rfl, hq, hr, -⟩
    · exact ⟨hseen, hs⟩
    · have hqk := hq.trans_le hr.1
      obtain ⟨helim, -⟩ := insertEquation_spec (elimInside_of_runInv hseen hs) hm hr hqk
      refine ⟨runInv_insertEquation hseen hs hqk helim, ?_⟩
      rw [insertEquation_frame]
      exact hs
  rcases acceptOutcome_next ht with ⟨-, rfl⟩ | ⟨-, rfl⟩
  · exact runInv_setStatus (runInv_setDecDone hinv.1 hinv.2) _
  · exact runInv_setStatus hinv.1 _

/-- Every command keeps the invariant. -/
theorem exec_runInv {i : Instr} (h : RunInv s) (hi : exec i s = .next t) : RunInv t := by
  cases exec_effect hi with
  | status i o _ => exact h
  | result i v _ => exact h
  | output i bs _ hs hbs => exact runInv_output h hs hbs
  | accumulate i bs _ _ hbs => exact runInv_storeVacc h hbs
  | fault i hf =>
    refine runInv_setStatus (runInv_setFaulted h fun hs => ?_) _
    rcases hf with ⟨-, hs'⟩ | ⟨-, hs'⟩ <;> simp [hs] at hs'
  | reset => exact runInv_setStatus (runInv_toReset (runInv_paramsOk h)) _
  | openEnc m k n z hs hacc =>
    have hb := blank_of_idle h hs
    exact runInv_open h hacc ⟨hb.vacc, rfl, rfl, hb.d, hb.piv, hb.seen, rfl, hb.rxcount, hb.rank⟩ rfl rfl
      (.inl rfl) rfl rfl rfl rfl
  | openDec m k n z hs hacc =>
    have hb := blank_of_idle h hs
    exact runInv_open h hacc ⟨hb.vacc, rfl, hb.srcset, rfl, rfl, rfl, hb.loaded, rfl, rfl⟩ rfl rfl
      (.inr rfl) rfl rfl rfl rfl
  | load slot hs hslot => exact runInv_load h hs hslot
  | encode g hs hl => exact runInv_encode h hs hl g
  | acceptFault esi hs hn =>
    exact runInv_setStatus (runInv_setFaulted (runInv_setSeen h hs hn) (by simp [hs])) _
  | accept esi row u t hs hn hnew hrow hu ht => exact runInv_accept h hs hn hrow hu ht

/-- Settles O54: each effect of a command keeps the invariant, and so does each other transaction. -/
theorem stepKeepsInvariant : Obligations.StepKeepsInvariant := fun _ _ hs h =>
  step_keeps (I := fun s => RunInv s) (fun _ _ h => h) (fun _ _ h => h) (fun _ _ h => h)
    (fun _ _ v h ho => runInv_write h v ho) (fun _ _ _ h hi => exec_runInv h hi) hs h

end Sys2Proof.Machine
end

section
/-! ### The echelon form (44_session_decode.md R243, R244; 10_state.md R35) -/

namespace Sys2Proof.Machine

variable {s t : State}

/-- Inserting a row that leads with a 1 at column q and is zero at the pivot columns keeps the reduced row
echelon form (R244, items 1 and 2). -/
theorem echelon_insertEquation (h : RunInv s) (hs : s.state = .decAcc) (hech : Echelon s) {q : Nat}
    {r : Equation} (hq : q < r.1.length) (hr : RowFits (kOf s) (mOf s) r.1) (hone : rowElem r.1 q = 1)
    (hbelow : ∀ c < q, rowElem r.1 c = 0) (hnew : q ∉ s.piv)
    (hclear : ∀ p ∈ s.piv, rowElem r.1 p = 0) :
    Echelon (insertEquation q r s) := by
  obtain ⟨h1, hm⟩ := runInv_field h (by simp [hs])
  obtain ⟨hd, hsym, hrows⟩ := hech
  have helim := elimInside_of_runInv h hs
  have hqk := hq.trans_le hr.1
  obtain ⟨-, hlist, -⟩ := insertEquation_spec helim hm hr hqk
  obtain ⟨hnewrow, holdrow⟩ := rows_insertEquation helim hm hr hqk (runInv_piv_lt h) hd hnew
  have hpiv : (insertEquation q r s).piv = indexInsert s.piv q := by
    rw [insertEquation_frame]
    rfl
  obtain ⟨hd', hsym'⟩ := hlist ⟨hd, hsym⟩
  rw [← hpiv] at hd' hsym'
  refine ⟨hd', hsym', fun p hp => ?_⟩
  rw [hpiv] at hp ⊢
  rcases mem_indexInsert.1 hp with rfl | hp
  · refine ⟨(hnewrow p).trans hone, fun p' hp' hne => ?_, fun c hc => (hnewrow c).trans (hbelow c hc)⟩
    rw [hnewrow]
    exact hclear p' ((mem_indexInsert.1 hp').resolve_left hne)
  · obtain ⟨hpp, hother, hleft⟩ := hrows p hp
    refine ⟨?_, fun p' hp' hne => ?_, fun c hc => ?_⟩ <;> rw [holdrow p hp]
    · rw [hclear p hp, gfMul_zero, gfAdd_zero, hpp]
    · rcases mem_indexInsert.1 hp' with rfl | hp'
      · rw [hone, gfMul_one h1 hm (isElem_matrixGet helim.rows p p'), gfAdd_self]
      · rw [hclear p' hp', gfMul_zero, gfAdd_zero, hother p' hp' hne]
    · by_cases hcq : c < q
      · rw [hbelow c hcq, gfMul_zero, gfAdd_zero, hleft c hc]
      · rw [hleft q (by omega), zero_gfMul, gfAdd_zero, hleft c hc]

/-- RANK is compared with K as the number of stored rows is (R242, step 5). -/
theorem ofNat_eq_k_iff {l : Nat} (h : l ≤ kOf s) : BitVec.ofNat 32 l = s.k ↔ l = kOf s := by
  have hk : kOf s < 2 ^ 32 := s.k.isLt
  rw [← BitVec.toNat_inj, BitVec.toNat_ofNat, Nat.mod_eq_of_lt (by omega)]
  rfl

/-- Step 5 of ACCEPT completes exactly at RANK = K (R242). -/
theorem decodeInv_acceptOutcome (ht : acceptOutcome s = .next t) (hs : s.state = .decAcc)
    (hech : Echelon s) (hrank : s.rank = BitVec.ofNat 32 s.piv.length)
    (hseen : s.piv.length ≤ s.seen.length) (hk : s.piv.length ≤ kOf s) : DecodeInv t := by
  have hfull : s.rank = s.k ↔ s.piv.length = kOf s := hrank ▸ ofNat_eq_k_iff hk
  rcases acceptOutcome_next ht with ⟨heq, rfl⟩ | ⟨hne, rfl⟩
  · exact fun _ => ⟨hech, hrank, hseen, nofun, fun _ => hfull.1 heq⟩
  · exact fun _ => ⟨hech, hrank, hseen, fun _ => lt_of_le_of_ne hk fun hh => hne (hfull.2 hh),
      fun hd => absurd (hs.symm.trans hd) (by decide)⟩

/-- ACCEPT of a new ESI keeps the echelon form. -/
theorem decodeInv_accept (h : RunInv s) (hdec : DecodeInv s) (hs : s.state = .decAcc) {esi : Nat}
    (hesi : esi < nOf s) (hnew : esi ∉ s.seen) {row : List Elem}
    (hrow : genRow (mOf s) (kOf s) esi = some row) {data : List Elem} {u : State}
    (hu : decInsert (row, data) (s.setSeen (indexInsert s.seen esi)) = some u)
    (ht : acceptOutcome u = .next t) : DecodeInv t := by
  obtain ⟨hech, hrank, hseen, hlt, -⟩ := hdec (.inl hs)
  obtain ⟨-, hm⟩ := runInv_field h (by simp [hs])
  have hlt := hlt hs
  have hcount : (indexInsert s.seen esi).length = s.seen.length + 1 := length_indexInsert hnew
  have hinv := runInv_setSeen h hs hesi
  have hfits : RowFits (kOf s) (mOf s) row := rowFits_genRow hm hrow
  rcases decInsert_cases (e := (row, data)) hinv hs hfits hu with
    rfl | ⟨q, r, rfl, hq, hr, hone, hbelow, hclear⟩
  · refine decodeInv_acceptOutcome ht hs hech hrank ?_ hlt.le
    simp [hcount]
    omega
  · obtain ⟨hqnew, hclear⟩ := hclear hech
    have hpiv : (indexInsert s.piv q).length = s.piv.length + 1 := length_indexInsert hqnew
    have hech' := echelon_insertEquation hinv hs hech hq hr hone hbelow hqnew hclear
    rw [insertEquation_frame] at hech' ht
    refine decodeInv_acceptOutcome ht hs hech' ?_ ?_ ?_
    · simp [hpiv, hrank, BitVec.ofNat_add]
    · simp [hpiv, hcount, hseen]
    · simp [hpiv]
      exact hlt

/-- Every command keeps the echelon form. -/
theorem exec_decodeInv {i : Instr} (h : RunInv s) (hdec : DecodeInv s) (hi : exec i s = .next t) :
    DecodeInv t := by
  cases exec_effect hi with
  | status i o _ => exact hdec
  | result i v _ => exact hdec
  | output i bs _ _ _ => exact hdec
  | accumulate i bs _ _ _ => exact hdec
  | fault i _ => exact decodeInv_of_state nofun nofun
  | reset => exact decodeInv_of_state nofun nofun
  | openEnc m k n z _ _ => exact decodeInv_of_state nofun nofun
  | openDec m k n z hs hacc =>
    obtain ⟨-, hk, -⟩ := latched_eq (runInv_paramsOk h) hacc
    exact fun _ => ⟨⟨nofun, nofun, nofun⟩, rfl, le_rfl, fun _ => hacc.2.1.trans_eq hk.symm, nofun⟩
  | load slot hs _ => exact decodeInv_of_state (by simp [storeSlot, hs]) (by simp [storeSlot, hs])
  | encode g _ _ => exact decodeInv_of_state nofun nofun
  | acceptFault esi _ _ => exact decodeInv_of_state nofun nofun
  | accept esi row u t hs hn hnew hrow hu ht => exact decodeInv_accept h hdec hs hn hnew hrow hu ht

/-- Settles O55: only INIT_DEC, which clears the elimination, and ACCEPT, which inserts one reduced row, touch
what the echelon form speaks of in a decode session. -/
theorem stepKeepsEchelonForm : Obligations.StepKeepsEchelonForm := fun _ _ hs hdec h =>
  (step_keeps (I := fun s => RunInv s ∧ DecodeInv s) (fun _ _ h => h) (fun _ _ h => h) (fun _ _ h => h)
    (fun _ _ v h ho => ⟨runInv_write h.1 v ho, h.2⟩)
    (fun _ _ _ h hi => ⟨exec_runInv h.1 hi, exec_decodeInv h.1 h.2 hi⟩) ⟨hs, hdec⟩ h).2

end Sys2Proof.Machine
end

section
/-! ### The masks of the formats (30_encoding.md R91, R92)

A word is the row of its six fields and so are a format's mask and an opcode's match value, so comparing under
the mask is comparing field by field. -/

namespace Sys2Proof

/-- The word with the given six fields (R91). -/
def fieldWord (c b a : BitVec 32) (rsv : BitVec 19) (mf : BitVec 5) (op : BitVec 8) : CmdWord :=
  c ++ b ++ a ++ rsv ++ mf ++ op

theorem fieldWord_fields (w : CmdWord) :
    fieldWord (cField w) (bField w) (aField w) (rsvField w) (mfField w) (opField w) = w := by
  simp only [fieldWord, cField, bField, aField, rsvField, mfField, opField]
  iterate 5 rw [BitVec.extractLsb'_append_extractLsb'_eq_extractLsb' (by rfl)]
  exact BitVec.extractLsb'_eq_self

theorem fieldWord_and (c b a c' b' a' : BitVec 32) (rsv rsv' : BitVec 19) (mf mf' : BitVec 5)
    (op op' : BitVec 8) :
    fieldWord c b a rsv mf op &&& fieldWord c' b' a' rsv' mf' op' =
      fieldWord (c &&& c') (b &&& b') (a &&& a') (rsv &&& rsv') (mf &&& mf') (op &&& op') := by
  simp only [fieldWord, ← BitVec.and_append]

theorem bitVec_append_inj {v w : Nat} {x x' : BitVec v} {y y' : BitVec w} :
    x ++ y = x' ++ y' ↔ x = x' ∧ y = y' := by
  refine ⟨fun h => ?_, by rintro ⟨rfl, rfl⟩; rfl⟩
  have hy := congrArg (BitVec.setWidth w) h
  rw [BitVec.setWidth_append_eq_right, BitVec.setWidth_append_eq_right] at hy
  subst hy
  exact ⟨(BitVec.append_left_inj y).1 h, rfl⟩

theorem fieldWord_inj {c b a c' b' a' : BitVec 32} {rsv rsv' : BitVec 19} {mf mf' : BitVec 5}
    {op op' : BitVec 8} :
    fieldWord c b a rsv mf op = fieldWord c' b' a' rsv' mf' op' ↔
      c = c' ∧ b = b' ∧ a = a' ∧ rsv = rsv' ∧ mf = mf' ∧ op = op' := by
  refine ⟨fun h => ?_, by rintro ⟨rfl, rfl, rfl, rfl, rfl, rfl⟩; rfl⟩
  obtain ⟨h, hop⟩ := bitVec_append_inj.1 h
  obtain ⟨h, hmf⟩ := bitVec_append_inj.1 h
  obtain ⟨h, hrsv⟩ := bitVec_append_inj.1 h
  obtain ⟨h, ha⟩ := bitVec_append_inj.1 h
  obtain ⟨hc, hb⟩ := bitVec_append_inj.1 h
  exact ⟨hc, hb, ha, hrsv, hmf, hop⟩

/-- The mask of a field: nothing of a field the format uses, the whole of one it does not use. -/
def fieldMask (used : Bool) (v : Nat) : BitVec v := if used then 0 else BitVec.allOnes v

theorem and_fieldMask_eq_zero_iff {v : Nat} (x : BitVec v) (used : Bool) :
    x &&& fieldMask used v = 0 ↔ (used = false → x = 0) := by
  cases used <;> simp [fieldMask]

/-- The mask column of R92, read by fields. -/
theorem formatMask_eq_fieldWord (f : Format) :
    formatMask f = fieldWord (fieldMask (usesC f) 32) (fieldMask (usesB f) 32) (fieldMask (usesA f) 32)
      (BitVec.allOnes 19) (fieldMask (usesMf f) 5) (BitVec.allOnes 8) := by
  cases f <;> rfl

theorem opcodeMatch_eq_fieldWord (o : Opcode) : opcodeMatch o = fieldWord 0 0 0 0 0 (opcodeByte o) := by
  cases o <;> rfl

/-- A word matches an opcode under its format's mask exactly when its opcode byte is the opcode's, rsv is 0
and so is every field the format does not use. -/
theorem and_formatMask_eq_opcodeMatch_iff (w : CmdWord) (o : Opcode) :
    w &&& formatMask (opcodeFormat o) = opcodeMatch o ↔
      opcodeByte o = opField w ∧ rsvField w = 0 ∧
        (usesMf (opcodeFormat o) = false → mfField w = 0) ∧
        (usesA (opcodeFormat o) = false → aField w = 0) ∧
        (usesB (opcodeFormat o) = false → bField w = 0) ∧
        (usesC (opcodeFormat o) = false → cField w = 0) := by
  conv_lhs => rw [← fieldWord_fields w]
  rw [formatMask_eq_fieldWord, opcodeMatch_eq_fieldWord, fieldWord_and, fieldWord_inj]
  simp only [and_fieldMask_eq_zero_iff, BitVec.and_allOnes]
  rw [eq_comm (a := opField w)]
  tauto

/-- A word is a command exactly when it matches some opcode under its format's mask (R92, R95). -/
theorem exists_decode_eq_ok_iff (w : CmdWord) :
    (∃ i, decode w = .ok i) ↔ ∃ o, w &&& formatMask (opcodeFormat o) = opcodeMatch o := by
  simp only [decode_eq_ok, and_formatMask_eq_opcodeMatch_iff]
  constructor
  · rintro ⟨i, o, hop, hr, hm, ha, hb, hc, -⟩
    exact ⟨o, hop, hr, hm, ha, hb, hc⟩
  · rintro ⟨o, hop, hr, hm, ha, hb, hc⟩
    exact ⟨_, o, hop, hr, hm, ha, hb, hc, rfl⟩

end Sys2Proof
end

section
/-! ### Every command answers a next state (70_reset_and_hazards.md R333) -/

namespace Sys2Proof.Machine

variable {s : State}

/-- The outcome is a next state, not a fault or a refusal. -/
def Answers (r : Host.Outcome State Fault Refusal) : Prop := ∃ t, r = .next t

theorem answers_next (t : State) : Answers (.next t) := ⟨t, rfl⟩

theorem answers_finish (o : Status) (s : State) : Answers (finish o s) := answers_next _

theorem answers_raise (o : Status) (s : State) : Answers (raise o s) := answers_next _

theorem answers_internalFault (s : State) : Answers (internalFault s) := answers_next _

theorem answers_ite {c : Prop} [Decidable c] {r r' : Host.Outcome State Fault Refusal} (h : Answers r)
    (h' : Answers r') : Answers (if c then r else r') := by
  split
  · exact h
  · exact h'

theorem answers_guarded {check : Option Status} {body : Host.Outcome State Fault Refusal}
    (h : Answers body) : Answers (guarded check s body) := by
  cases check with
  | none => exact h
  | some o => exact answers_raise o s

/-- A command with one operand check and no other way to fail answers. -/
theorem answers_checked {check : Option Status} {c : Prop} [Decidable c] {o : Status} {u : State} :
    Answers (guarded check s (if c then finish .ok u else raise o s)) :=
  answers_guarded (answers_ite (answers_finish _ _) (answers_raise _ _))

theorem answers_acceptOutcome (s : State) : Answers (acceptOutcome s) :=
  answers_ite (answers_finish _ _) (answers_finish _ _)

theorem answers_acceptNew (esi : Nat) (s : State) : Answers (acceptNew esi s) := by
  unfold acceptNew
  dsimp only
  split
  · exact answers_internalFault _
  · split
    · exact answers_internalFault _
    · exact answers_acceptOutcome _

/-- Every command answers a next state, the internal faults included. -/
theorem exec_answers (i : Instr) (s : State) : Answers (exec i s) := by
  cases i with
  | nop => exact answers_guarded (answers_finish _ _)
  | reset => exact answers_finish _ _
  | encode =>
    refine answers_guarded (answers_ite (answers_finish _ _) (answers_ite ?_ (answers_raise _ _)))
    split
    · exact answers_internalFault _
    · exact answers_finish _ _
  | accept esi =>
    exact answers_guarded (answers_ite (answers_ite (answers_finish _ _)
      (answers_ite (answers_finish _ _) (answers_acceptNew esi s))) (answers_raise _ _))
  | gfinv m x =>
    refine answers_guarded (answers_ite ?_ (answers_raise _ _))
    split
    · exact answers_finish _ _
    · exact answers_raise _ _
  | vclr => exact answers_guarded (answers_finish _ _)
  | vout => exact answers_guarded (answers_finish _ _)
  | gget esi col =>
    refine answers_guarded (answers_ite (answers_ite ?_ (answers_raise _ _)) (answers_raise _ _))
    split
    · exact answers_internalFault _
    · exact answers_finish _ _
  | _ => exact answers_checked

end Sys2Proof.Machine
end

section
/-! ### Host transactions (20_memory.md R60 to R63) -/

namespace Sys2Proof.Machine

variable {s t : State}

theorem step_of_pending {x : Transaction} {ts : List Transaction} (h : s.pending = x :: ts) :
    step s = transact x (s.setPending ts) := by
  simp [step, performNext, h]

/-! #### The command port -/

theorem runCommand_of_ok {w : CmdWord} {i : Instr} (h : decode w = .ok i) :
    runCommand w s = exec i s := by
  simp [runCommand, h]

/-- A word that matches no opcode under its format's mask is refused in every state (R96). -/
theorem runCommand_of_no_match {w : CmdWord}
    (h : ∀ o, w &&& formatMask (opcodeFormat o) ≠ opcodeMatch o) :
    runCommand w s = .next (s.setStatus .illegalCommand) := by
  cases hd : decode w with
  | ok i =>
    obtain ⟨o, ho⟩ := (exists_decode_eq_ok_iff w).1 ⟨i, hd⟩
    exact absurd ho (h o)
  | error e => simp [runCommand, hd, raise]

/-- Settles O7: the word decodes to no command, since every command matches its opcode's mask. -/
theorem illegalWordChangesOnlyStatus : Obligations.IllegalWordChangesOnlyStatus := by
  intro s w ts hs hw
  rw [step_of_pending hs, transact, runCommand_of_no_match hw]
  rfl

/-- Settles O6: every command answers a next state. -/
theorem stepRunsDecodedCommand : Obligations.StepRunsDecodedCommand := by
  intro s w ts i hs hi
  obtain ⟨t, ht⟩ := exec_answers i (s.setPending ts)
  refine ⟨t, ht, ?_⟩
  rw [step_of_pending hs, transact, runCommand_of_ok hi, ht]
  rfl

/-! #### The register port -/

/-- The thirteen registers in the order of their numbers (10_state.md R25). -/
def registerValues (s : State) : List RegWord :=
  [capM s.inst, BitVec.ofNat 32 s.inst.nMax, BitVec.ofNat 32 s.inst.symszMax, stateCode s.state,
    statusCode s.status, s.k, s.n, s.symsz, s.m, s.res, s.loaded, s.rxcount, s.rank]

theorem regValue_eq_some {r : BitVec 8} (h : r.toNat ≤ 12) (s : State) :
    regValue s r = some ((registerValues s).getD r.toNat 0) := by
  unfold regValue
  interval_cases r.toNat <;> rfl

theorem doRegrd_of_le {r : BitVec 8} (h : r.toNat ≤ 12) (s : State) :
    doRegrd r s = s.respond (.regValue ((registerValues s).getD r.toNat 0)) := by
  rw [doRegrd_eq, regValue_eq_some h]

theorem doRegrd_of_ge {r : BitVec 8} (h : 13 ≤ r.toNat) (s : State) : doRegrd r s = s.respond .buserr := by
  rw [doRegrd_eq, (regValue_eq_none s r).2 h]

@[simp] theorem regValue_setPending (s : State) (l : List Transaction) (r : BitVec 8) :
    regValue (s.setPending l) r = regValue s r := rfl

@[simp] theorem regValue_respond (s : State) (x : Response) (r : BitVec 8) :
    regValue (s.respond x) r = regValue s r := rfl

@[simp] theorem regValue_setIobuf (s : State) (mem : Memory) (r : BitVec 8) :
    regValue (s.setIobuf mem) r = regValue s r := rfl

/-- Only a command and a hardware reset write registers. -/
theorem transact_regValue {x : Transaction} (hcmd : ∀ w, x ≠ .cmd w) (hreset : x ≠ .hwReset)
    (h : transact x s = .next t) (r : BitVec 8) : regValue t r = regValue s r := by
  rcases transact_next h with
    ⟨w, -, rfl, -⟩ | ⟨q, -, rfl⟩ | ⟨o, v, -, rfl⟩ | ⟨o, -, rfl⟩ | ⟨rfl, -⟩
  · exact absurd rfl (hcmd w)
  · rw [doRegrd_eq, regValue_respond]
  · rcases doBufwr_cases o v s with ⟨-, h⟩ | ⟨-, h⟩ <;> simp [h]
  · rcases doBufrd_cases o s with ⟨-, h⟩ | ⟨-, h⟩ <;> simp [h]
  · exact absurd rfl hreset

/-- Settles O11: the register's number decides the answer, and no port but CMD writes a register. -/
theorem registerReadAnswersAndChangesNothing : Obligations.RegisterReadAnswersAndChangesNothing := by
  refine ⟨fun s r ts hs => ?_, fun s t x ts hs hcmd hreset h r => ?_⟩
  · rw [step_of_pending hs, transact]
    rcases Nat.lt_or_ge 12 r.toNat with hr | hr
    · exact ⟨.buserr, by rw [doRegrd_of_ge hr], fun h => absurd hr (not_lt.2 h), fun _ => rfl⟩
    · exact ⟨.regValue ((registerValues s).getD r.toNat 0), by rw [doRegrd_of_le hr]; rfl, fun _ => rfl,
        fun h => absurd hr (not_le.2 h)⟩
  · rw [step_of_pending hs] at h
    rw [transact_regValue hcmd hreset h, regValue_setPending]

/-! #### The buffer port -/

/-- Settles O13: the two ways a buffer write can end. -/
theorem bufferWriteChangesOneByte : Obligations.BufferWriteChangesOneByte := by
  intro s o v ts hs hwf
  rw [step_of_pending hs, transact]
  rcases doBufwr_cases o v (s.setPending ts) with ⟨ho, heq⟩ | ⟨ho, heq⟩ <;> rw [heq]
  · exact ⟨fun _ => ⟨_, Memory.write_wf hwf o.toNat v, rfl, fun a => Memory.read_write hwf o.toNat a v⟩,
      fun h => absurd ho (not_lt.2 h)⟩
  · exact ⟨fun h => absurd h (not_lt.2 ho), fun _ => rfl⟩

/-- Settles O14: the two ways a buffer read can end. -/
theorem bufferReadAnswersAndChangesNothing : Obligations.BufferReadAnswersAndChangesNothing := by
  intro s o ts hs
  rw [step_of_pending hs, transact]
  rcases doBufrd_cases o (s.setPending ts) with ⟨ho, heq⟩ | ⟨ho, heq⟩ <;> rw [heq]
  · exact ⟨fun _ => rfl, fun h => absurd ho (not_lt.2 h)⟩
  · exact ⟨fun h => absurd h (not_lt.2 ho), fun _ => rfl⟩

end Sys2Proof.Machine
end

section
/-! ### The round trip between commands and words (30_encoding.md R92 to R97, R101)

A command is its opcode with its four operand values, and `assemble` builds a command on just those operands
its opcode's format uses. So a word decodes to a command exactly when its fields hold that command's opcode
byte and operands, and both directions of the round trip read this off. -/

namespace Sys2Proof

@[simp] theorem opcode_assemble (o : Opcode) (m a b c : Nat) : (assemble o m a b c).opcode = o := by
  cases o <;> rfl

theorem assemble_operandsOf (i : Instr) :
    assemble i.opcode (operandsOf i).1 (operandsOf i).2.1 (operandsOf i).2.2.1 (operandsOf i).2.2.2 = i := by
  cases i <;> rfl

/-- The operand table of R93 agrees with the format column of R94. -/
theorem operandsOf_assemble (o : Opcode) (m a b c : Nat) :
    operandsOf (assemble o m a b c) =
      (if usesMf (opcodeFormat o) then m else 0, if usesA (opcodeFormat o) then a else 0,
        if usesB (opcodeFormat o) then b else 0, if usesC (opcodeFormat o) then c else 0) := by
  cases o <;> rfl

/-- The operand values a word holds in its fields mf, a, b and c (R91, R93). -/
def wordOperands (w : CmdWord) : Nat × Nat × Nat × Nat :=
  ((mfField w).toNat, (aField w).toNat, (bField w).toNat, (cField w).toNat)

/-- Assembling a word's fields loses no operand exactly when those the format does not use are 0. -/
theorem operandsOf_assemble_fields_iff {w : CmdWord} {o : Opcode} :
    operandsOf (assemble o (mfField w).toNat (aField w).toNat (bField w).toNat (cField w).toNat) =
        wordOperands w ↔
      (usesMf (opcodeFormat o) = false → mfField w = 0) ∧
        (usesA (opcodeFormat o) = false → aField w = 0) ∧
        (usesB (opcodeFormat o) = false → bField w = 0) ∧
        (usesC (opcodeFormat o) = false → cField w = 0) := by
  simp [operandsOf_assemble, wordOperands, @eq_comm Nat 0, BitVec.toNat_eq]

/-- A word decodes to a command exactly when its fields are the command's opcode byte, 0 in rsv, and the
command's operands, 0 where the format uses none. -/
theorem decode_eq_ok_iff_fields {w : CmdWord} {i : Instr} :
    decode w = .ok i ↔
      opcodeByte i.opcode = opField w ∧ rsvField w = 0 ∧ operandsOf i = wordOperands w := by
  rw [decode_eq_ok]
  constructor
  · rintro ⟨o, hop, hrsv, hm, ha, hb, hc, rfl⟩
    rw [opcode_assemble]
    exact ⟨hop, hrsv, operandsOf_assemble_fields_iff.2 ⟨hm, ha, hb, hc⟩⟩
  · rintro ⟨hop, hrsv, hargs⟩
    have hi := assemble_operandsOf i
    rw [hargs] at hi
    obtain ⟨hm, ha, hb, hc⟩ := operandsOf_assemble_fields_iff.1 ((congrArg operandsOf hi).trans hargs)
    exact ⟨i.opcode, hop, hrsv, hm, ha, hb, hc, hi.symm⟩

/-- A command is well-formed exactly when each of its operands fits its field (R93). -/
theorem wellFormed_iff_operandsOf_fit {i : Instr} :
    i.wellFormed = true ↔ (operandsOf i).1 < 2 ^ 5 ∧ (operandsOf i).2.1 < 2 ^ 32 ∧
      (operandsOf i).2.2.1 < 2 ^ 32 ∧ (operandsOf i).2.2.2 < 2 ^ 32 := by
  refine ⟨Laws.operandsOf_fit, fun h => ?_⟩
  cases i <;> simp_all [Instr.wellFormed, operandsOf, fitsMf, fitsOperand]

/-- Settles O1: the word of a command holds the command's opcode byte and operands in its fields. -/
theorem decodeOfEncodedCommand : Obligations.DecodeOfEncodedCommand := by
  intro i hi
  obtain ⟨hop, hrsv, hm, ha, hb, hc⟩ := Laws.encodedFields_of_wellFormed i hi
  rw [decode_eq_ok_iff_fields, wordOperands, hm, ha, hb, hc]
  exact ⟨hop.symm, hrsv, rfl⟩

/-- Settles O2: the fields of the word are the command's opcode byte and operands, so they fit, and packing
them again gives the word since rsv is 0. -/
theorem encodeOfDecodedWord : Obligations.EncodeOfDecodedWord := by
  intro w i h
  obtain ⟨hop, hrsv, hargs⟩ := decode_eq_ok_iff_fields.1 h
  rw [wellFormed_iff_operandsOf_fit, encode, hop, hargs]
  exact ⟨⟨(mfField w).isLt, (aField w).isLt, (bField w).isLt, (cField w).isLt⟩, packWord_fields w hrsv⟩

/-- A word is a command with a given opcode exactly when it matches it under its format's mask (R92). -/
theorem exists_decode_opcode_iff (w : CmdWord) (o : Opcode) :
    (∃ i, decode w = .ok i ∧ i.opcode = o) ↔ w &&& formatMask (opcodeFormat o) = opcodeMatch o := by
  rw [and_formatMask_eq_opcodeMatch_iff]
  constructor
  · rintro ⟨i, h, rfl⟩
    obtain ⟨o, hop, hrsv, hm, ha, hb, hc, rfl⟩ := decode_eq_ok.1 h
    rw [opcode_assemble]
    exact ⟨hop, hrsv, hm, ha, hb, hc⟩
  · rintro ⟨hop, hrsv, hm, ha, hb, hc⟩
    exact ⟨_, decode_eq_ok.2 ⟨o, hop, hrsv, hm, ha, hb, hc, rfl⟩, opcode_assemble _ _ _ _ _⟩

/-- Settles O3: the masks and the match value are those of the table by definition. -/
theorem commandExactlyWhenMaskMatches : Obligations.CommandExactlyWhenMaskMatches :=
  ⟨exists_decode_opcode_iff, fun _ => rfl, rfl, rfl, rfl, rfl, rfl, rfl⟩

/-- Settles O4, by decoding the two words. -/
theorem zeroWordNopOnesWordIllegal : Obligations.ZeroWordNopOnesWordIllegal := ⟨rfl, rfl⟩

/-- Settles O5: the table opcode by opcode, then each word decoded. -/
theorem exampleWordsDecode : Obligations.ExampleWordsDecode := by
  refine ⟨fun o => by cases o <;> decide, ?_⟩
  and_intros <;> rfl

end Sys2Proof
end

section
/-! ### The laws of the field (40_field_arithmetic.md R125 to R127, R181)

Each law is read off the classes modulo P_m: an m-bit value is fixed by its class, and gf_add and gf_mul are
sum and product there. -/

namespace Sys2Proof.Machine

variable {m : Nat} {x y z : Elem}

theorem residue_gfAdd (x y : Elem) : residue m (gfAdd x y) = residue m x + residue m y :=
  residue_xor x y

theorem gfMul_comm (h1 : 1 ≤ m) (hm : m ≤ 16) (hx : IsElem m x) (hy : IsElem m y) :
    gfMul m x y = gfMul m y x :=
  residue_injective h1 hm (gfMul_lt hm x y) (gfMul_lt hm y x) (by
    rw [residue_gfMul h1 hm hx hy, residue_gfMul h1 hm hy hx, mul_comm])

theorem gfMul_assoc (h1 : 1 ≤ m) (hm : m ≤ 16) (hx : IsElem m x) (hy : IsElem m y) (hz : IsElem m z) :
    gfMul m (gfMul m x y) z = gfMul m x (gfMul m y z) :=
  residue_injective h1 hm (gfMul_lt hm _ z) (gfMul_lt hm x _) (by
    rw [residue_gfMul h1 hm (gfMul_lt hm x y) hz, residue_gfMul h1 hm hx hy,
      residue_gfMul h1 hm hx (gfMul_lt hm y z), residue_gfMul h1 hm hy hz, mul_assoc])

theorem gfMul_gfAdd (h1 : 1 ≤ m) (hm : m ≤ 16) (hx : IsElem m x) (hy : IsElem m y) (hz : IsElem m z) :
    gfMul m x (gfAdd y z) = gfAdd (gfMul m x y) (gfMul m x z) :=
  residue_injective h1 hm (gfMul_lt hm x _) (gfAdd_lt (gfMul_lt hm x y) (gfMul_lt hm x z)) (by
    rw [residue_gfMul h1 hm hx (gfAdd_lt hy hz), residue_gfAdd, residue_gfAdd,
      residue_gfMul h1 hm hx hy, residue_gfMul h1 hm hx hz, mul_add])

theorem one_gfMul (h1 : 1 ≤ m) (hm : m ≤ 16) (hx : IsElem m x) : gfMul m 1 x = x := by
  rw [gfMul_comm h1 hm (isElem_one h1) hx, gfMul_one h1 hm hx]

/-- Settles O41, law by law. -/
theorem fieldLaws : Obligations.FieldLaws := fun m x y z h1 hm hx hy hz =>
  ⟨gfAdd_lt hx hy, gfAdd_self x, gfAdd_comm x y, gfAdd_assoc x y z, gfMul_lt hm x y,
    gfMul_comm h1 hm hx hy, gfMul_assoc h1 hm hx hy hz, gfMul_gfAdd h1 hm hx hy hz, zero_gfMul m x,
    one_gfMul h1 hm hx⟩

/-! #### Inverses -/

/-- A left inverse of x and a right inverse of x are the same element. -/
theorem eq_of_gfMul_eq_one {v : Elem} (h1 : 1 ≤ m) (hm : m ≤ 16) (hv : IsElem m v) (hx : IsElem m x)
    (hy : IsElem m y) (hvx : gfMul m v x = 1) (hxy : gfMul m x y = 1) : y = v :=
  calc y = gfMul m (gfMul m v x) y := by rw [hvx, one_gfMul h1 hm hy]
    _ = gfMul m v (gfMul m x y) := gfMul_assoc h1 hm hv hx hy
    _ = v := by rw [hxy, gfMul_one h1 hm hv]

theorem gfInv_isSome (m : Nat) (h0 : x ≠ 0) : ∃ v, gfInv m x = some v :=
  Option.ne_none_iff_exists'.1 (mt gfInv_eq_none.1 h0)

/-- Whatever multiplies x to 1 is what gf_inv gives (R125). -/
theorem gfInv_eq_some_of_gfMul_eq_one (h1 : 1 ≤ m) (hm : m ≤ 16) (hx : IsElem m x) (hy : IsElem m y)
    (h : gfMul m x y = 1) : gfInv m x = some y := by
  have h0 : x ≠ 0 := by
    rintro rfl
    rw [zero_gfMul] at h
    exact absurd h (by decide)
  obtain ⟨v, hv⟩ := gfInv_isSome m h0
  rw [hv, eq_of_gfMul_eq_one h1 hm (gfInv_lt h1 hm hv) hx hy (gfMul_gfInv h1 hm hx hv) h]

/-- There are no zero divisors (R127, law 6): a non-zero factor can be divided out. -/
theorem gfMul_eq_zero_iff (h1 : 1 ≤ m) (hm : m ≤ 16) (hx : IsElem m x) (hy : IsElem m y) :
    gfMul m x y = 0 ↔ x = 0 ∨ y = 0 := by
  constructor
  · intro h
    refine or_iff_not_imp_left.2 fun h0 => ?_
    obtain ⟨v, hv⟩ := gfInv_isSome m h0
    calc y = gfMul m (gfMul m v x) y := by rw [gfMul_gfInv h1 hm hx hv, one_gfMul h1 hm hy]
      _ = gfMul m v (gfMul m x y) := gfMul_assoc h1 hm (gfInv_lt h1 hm hv) hx hy
      _ = 0 := by rw [h, gfMul_zero]
  · rintro (rfl | rfl)
    · exact zero_gfMul m y
    · exact gfMul_zero m x

theorem gfPow_eq_one (h1 : 1 ≤ m) (hm : m ≤ 16) (hx : IsElem m x) (h0 : x ≠ 0) :
    gfPow m x (2 ^ m - 1) = 1 :=
  residue_injective h1 hm (gfPow_lt h1 hm x _) (isElem_one h1) (by
    rw [residue_gfPow h1 hm hx, residue_pow_eq_one h1 hm hx h0]
    exact residue_one.symm)

/-- The chain of squares that computes gf_inv is the power of R125. -/
theorem gfInv_eq_gfPow (h1 : 1 ≤ m) (hm : m ≤ 16) (hx : IsElem m x) (h0 : x ≠ 0) :
    gfInv m x = some (gfPow m x (2 ^ m - 2)) := by
  have hchain : squareChain m (m - 1) x 1 = gfPow m x (2 ^ m - 2) :=
    residue_injective h1 hm (squareChain_lt hm _ _ _ (isElem_one h1)) (gfPow_lt h1 hm x _) (by
      rw [residue_squareChain h1 hm _ hx (isElem_one h1), residue_gfPow h1 hm hx,
        Nat.sub_add_cancel h1]
      simp)
  rw [gfInv, if_neg h0, hchain]

/-- Settles O42: the inverse is the power 2^m - 2, and inverses are unique. -/
theorem fieldInverses : Obligations.FieldInverses := by
  intro m x y h1 hm hx hy
  have hone := isElem_one h1
  refine ⟨gfMul_eq_zero_iff h1 hm hx hy,
    gfInv_eq_some_of_gfMul_eq_one h1 hm hone hone (gfMul_one h1 hm hone), gfInv_eq_none.2 rfl,
    fun h0 => ⟨gfPow_eq_one h1 hm hx h0, _, gfInv_eq_gfPow h1 hm hx h0, gfPow_lt h1 hm x _, rfl, ?_⟩⟩
  have hv := gfPow_lt h1 hm x (2 ^ m - 2)
  have hinv := gfMul_gfInv h1 hm hx (gfInv_eq_gfPow h1 hm hx h0)
  exact ⟨(gfMul_comm h1 hm hx hv).trans hinv, gfInv_eq_some_of_gfMul_eq_one h1 hm hv hx hinv⟩

/-! #### Evaluation points -/

/-- The powers of ALPHA below its order are pairwise distinct (R126). -/
theorem gfPow_alpha_injOn (h1 : 1 ≤ m) (hm : m ≤ 16) :
    Set.InjOn (gfPow m (alpha m)) (Set.Iio (2 ^ m - 1)) := by
  intro i hi j hj h
  have hpow : residue m (alpha m) ^ i = residue m (alpha m) ^ j := by
    rw [← residue_gfPow h1 hm (isElem_alpha h1), h, residue_gfPow h1 hm (isElem_alpha h1)]
  rw [← orderOf_alpha h1 hm] at hi hj
  exact pow_injOn_Iio_orderOf hi hj hpow

/-- Settles O43: the first point is 0, and the others are distinct powers of ALPHA. -/
theorem evaluationPointsDistinct : Obligations.EvaluationPointsDistinct := by
  intro m r r' h1 hm hlt hr'
  obtain ⟨j, rfl⟩ : ∃ j, r' = j + 1 := Nat.exists_eq_add_one.2 (Nat.zero_lt_of_lt hlt)
  cases r with
  | zero => exact (gfPow_alpha_ne_zero h1 hm j).symm
  | succ i =>
    intro h
    have hij : i = j := gfPow_alpha_injOn h1 hm (Set.mem_Iio.2 (by omega)) (Set.mem_Iio.2 (by omega)) h
    omega

end Sys2Proof.Machine
end

section
/-! ### The scalar commands (40_field_arithmetic.md R128 to R130) -/

namespace Sys2Proof.Machine

variable {s : State} {m x y : Nat}

/-- A command whose checks pass runs its body. -/
theorem guarded_ite_of_passed {check : Option Status} {c : Prop} [Decidable c] {o : Status}
    {body : Host.Outcome State Fault Refusal} (hcheck : check = none) (hc : c) :
    guarded check s (if c then body else raise o s) = body := by
  rw [hcheck, guarded_none, if_pos hc]

theorem gfOperandsOk_iff {p : Params} :
    gfOperandsOk p m x y = true ↔ m ∈ p.mSet ∧ x < 2 ^ m ∧ y < 2 ^ m := by
  simp [gfOperandsOk, supportsM, isElement, and_assoc]

theorem gfInvOperandOk_iff {p : Params} :
    gfInvOperandOk p m x = true ↔ m ∈ p.mSet ∧ x < 2 ^ m ∧ x ≠ 0 := by
  simp [gfInvOperandOk, supportsM, isElement, and_assoc]

theorem exec_gfadd (hs : s.state ≠ .faulted) (hm : m ∈ s.inst.mSet) (hx : x < 2 ^ m) (hy : y < 2 ^ m) :
    exec (.gfadd m x y) s =
      .next ((s.setRes (resOfElem (gfAdd (elemOf x) (elemOf y)))).setStatus .ok) :=
  guarded_ite_of_passed (faultCheck_eq_none.2 hs) (gfOperandsOk_iff.2 ⟨hm, hx, hy⟩)

theorem exec_gfmul (hs : s.state ≠ .faulted) (hm : m ∈ s.inst.mSet) (hx : x < 2 ^ m) (hy : y < 2 ^ m) :
    exec (.gfmul m x y) s =
      .next ((s.setRes (resOfElem (gfMul m (elemOf x) (elemOf y)))).setStatus .ok) :=
  guarded_ite_of_passed (faultCheck_eq_none.2 hs) (gfOperandsOk_iff.2 ⟨hm, hx, hy⟩)

theorem exec_gfinv {v : Elem} (hs : s.state ≠ .faulted) (hm : m ∈ s.inst.mSet) (hx : x < 2 ^ m)
    (h0 : x ≠ 0) (hv : gfInv m (elemOf x) = some v) :
    exec (.gfinv m x) s = .next ((s.setRes (resOfElem v)).setStatus .ok) := by
  refine (guarded_ite_of_passed (faultCheck_eq_none.2 hs) (gfInvOperandOk_iff.2 ⟨hm, hx, h0⟩)).trans ?_
  rw [hv]
  rfl

/-- The supported m are exponents of fields (R7). -/
theorem field_of_supported {p : Params} (hp : paramsOk p = true) (hm : m ∈ p.mSet) : 1 ≤ m ∧ m ≤ 16 := by
  obtain ⟨-, hrange, -⟩ := paramsOk_iff.1 hp
  exact hrange m hm

/-- An operand in range is the value of its field element (R93). -/
theorem toNat_elemOf (hm : m ≤ 16) (hx : x < 2 ^ m) : (elemOf x).toNat = x :=
  Nat.mod_eq_of_lt (hx.trans_le (Nat.pow_le_pow_right two_pos hm))

theorem isElem_elemOf (hm : m ≤ 16) (hx : x < 2 ^ m) : IsElem m (elemOf x) :=
  (toNat_elemOf hm hx).trans_lt hx

theorem elemOf_ne_zero (hm : m ≤ 16) (hx : x < 2 ^ m) (h0 : x ≠ 0) : elemOf x ≠ 0 := fun h =>
  h0 ((toNat_elemOf hm hx).symm.trans (congrArg BitVec.toNat h))

/-- The register value of an element is its value as a number (10_state.md R32). -/
theorem resOfElem_eq_ofNat (e : Elem) : resOfElem e = BitVec.ofNat 32 e.toNat :=
  (BitVec.ofNat_toNat 32 e).symm

/-- Settles O32: an element's bits are its operand's bits. -/
theorem gfaddComputesSum : Obligations.GfaddComputesSum := by
  intro s m x y hs hp hmem hx hy
  obtain ⟨-, hm⟩ := field_of_supported hp hmem
  have hsum : (gfAdd (elemOf x) (elemOf y)).toNat = x ^^^ y := by
    rw [gfAdd, BitVec.toNat_xor, toNat_elemOf hm hx, toNat_elemOf hm hy]
  rw [exec_gfadd hs hmem hx hy, resOfElem_eq_ofNat, hsum]
  rfl

/-- The model's reduction polynomials are those of the table (R121). -/
theorem toNat_poly (h1 : 1 ≤ m) (hm : m ≤ 16) : (poly m).toNat = polynomialTable.getD (m - 1) 0 := by
  interval_cases m <;> rfl

/-- gf_mul is the product of polynomials up to a multiple of P_m (R123). -/
theorem exists_bitsPoly_mul_eq {a b : Elem} (h1 : 1 ≤ m) (hm : m ≤ 16) (ha : IsElem m a)
    (hb : IsElem m b) :
    ∃ q, bitsPoly a * bitsPoly b = bitsPoly (gfMul m a b) + q * bitsPoly (poly m) := by
  have hres : AdjoinRoot.mk (modulus m) (bitsPoly a * bitsPoly b) =
      AdjoinRoot.mk (modulus m) (bitsPoly (gfMul m a b)) := by
    rw [map_mul]
    exact (residue_gfMul h1 hm ha hb).symm
  obtain ⟨q, hq⟩ := AdjoinRoot.mk_eq_mk.1 hres
  exact ⟨q, by rw [← sub_eq_iff_eq_add', hq, mul_comm, modulus]⟩

/-- Settles O33: gf_mul keeps the class of the product of the operands' polynomials modulo P_m. -/
theorem gfmulComputesPolynomialProduct : Obligations.GfmulComputesPolynomialProduct := by
  intro s m x y hs hp hmem hx hy
  obtain ⟨h1, hm⟩ := field_of_supported hp hmem
  obtain ⟨q, hq⟩ := exists_bitsPoly_mul_eq h1 hm (isElem_elemOf hm hx) (isElem_elemOf hm hy)
  have hrx := represents_bitsPoly (elemOf x)
  have hry := represents_bitsPoly (elemOf y)
  have hrm := represents_bitsPoly (poly m)
  rw [toNat_elemOf hm hx] at hrx
  rw [toNat_elemOf hm hy] at hry
  rw [toNat_poly h1 hm] at hrm
  refine ⟨_, gfMul_lt hm (elemOf x) (elemOf y), ?_, _, _, _, _, q, hrx, hry, represents_bitsPoly _, hrm,
    hq⟩
  rw [exec_gfmul hs hmem hx hy, resOfElem_eq_ofNat]
  rfl

/-- Settles O34: what gf_inv gives is a left inverse, so it is the only right inverse. -/
theorem gfinvComputesInverse : Obligations.GfinvComputesInverse := by
  intro s m x hs hp hmem hx h0
  obtain ⟨h1, hm⟩ := field_of_supported hp hmem
  have hxe := isElem_elemOf hm hx
  obtain ⟨v, hv⟩ := gfInv_isSome m (elemOf_ne_zero hm hx h0)
  have hve : IsElem m v := gfInv_lt h1 hm hv
  have hvx := gfMul_gfInv h1 hm hxe hv
  exact ⟨v, hve, exec_gfinv hs hmem hx h0 hv, (gfMul_comm h1 hm hxe hve).trans hvx,
    fun y hy hxy => eq_of_gfMul_eq_one h1 hm hve hxe hy hvx hxy⟩

end Sys2Proof.Machine
end

section
/-! ### Symbols as bits (41_vector_ops.md R151 to R153)

A symbol's integer is a row of digits, 8 bits each in its bytes and m bits each in its elements. So unpack and
pack only regroup its bits, and every claim about them is one about a bit. -/

namespace Sys2Proof.Machine

variable {m size : Nat} {x : Elem} {a b s : List Byte} {e u v : List Elem}

/-- Bit p of a number with digits of w bits is bit p mod w of digit p / w. -/
theorem testBit_ofDigits {w : Nat} (hw : 0 < w) {l : List Nat} (hl : ∀ d ∈ l, d < 2 ^ w) (p : Nat) :
    (Nat.ofDigits (2 ^ w) l).testBit p = (l.getD (p / w) 0).testBit (p % w) := by
  induction l generalizing p with
  | nil => simp
  | cons d l ih =>
    have hd : d < 2 ^ w := hl d List.mem_cons_self
    rw [Nat.ofDigits_cons, Nat.add_comm, Nat.testBit_two_pow_mul_add _ hd]
    by_cases hp : p < w
    · rw [if_pos hp, Nat.div_eq_of_lt hp, Nat.mod_eq_of_lt hp, List.getD_cons_zero]
    · have hdiv : p / w = (p - w) / w + 1 := Nat.div_eq_sub_div hw (not_lt.1 hp)
      rw [if_neg hp, ih (fun x hx => hl x (List.mem_cons_of_mem d hx)), hdiv, List.getD_cons_succ,
        Nat.mod_eq_sub_mod (not_lt.1 hp)]

/-- The digits of a list of words, read off the words. -/
theorem testBit_getD_map_toNat {w : Nat} (l : List (BitVec w)) (i t : Nat) :
    ((l.map BitVec.toNat).getD i 0).testBit t = (l.getD i 0).getLsbD t := by
  have hzero : (0 : Nat) = (0 : BitVec w).toNat := rfl
  rw [hzero, List.getD_map]
  rfl

theorem bytesToNat_eq_ofDigits (s : List Byte) :
    bytesToNat s = Nat.ofDigits (2 ^ 8) (s.map BitVec.toNat) := by
  induction s with
  | nil => rfl
  | cons b s ih => simp [bytesToNat, Nat.ofDigits_cons, ih]

theorem elemsToNat_eq_ofDigits (m : Nat) (e : List Elem) :
    elemsToNat m e = Nat.ofDigits (2 ^ m) (e.map BitVec.toNat) := by
  induction e with
  | nil => rfl
  | cons x e ih => simp [elemsToNat, Nat.ofDigits_cons, ih]

/-- The bits of a symbol's integer are those of its bytes in order (R151). -/
theorem testBit_bytesToNat (s : List Byte) (p : Nat) :
    (bytesToNat s).testBit p = (s.getD (p / 8) 0).getLsbD (p % 8) := by
  rw [bytesToNat_eq_ofDigits, testBit_ofDigits (by decide), testBit_getD_map_toNat]
  exact List.forall_mem_map.2 fun b _ => b.isLt

/-- The bits of an integer of m-bit elements are those of the elements in order (R152). -/
theorem testBit_elemsToNat (h1 : 1 ≤ m) (he : ∀ x ∈ e, IsElem m x) (p : Nat) :
    (elemsToNat m e).testBit p = (e.getD (p / m) 0).getLsbD (p % m) := by
  rw [elemsToNat_eq_ofDigits, testBit_ofDigits h1 (List.forall_mem_map.2 he), testBit_getD_map_toNat]

/-- Bit t of element j of a symbol (R151). -/
theorem getLsbD_unpack (hm : m ≤ 16) {j : Nat} (hj : j < elementCount m s.length) (t : Nat) :
    ((unpack m s).getD j 0).getLsbD t =
      if t < m then (s.getD ((m * j + t) / 8) 0).getLsbD ((m * j + t) % 8) else false := by
  rw [← BitVec.testBit_toNat, getD_unpack hm s j hj, Nat.testBit_mod_two_pow, Nat.testBit_shiftRight,
    testBit_bytesToNat]
  by_cases ht : t < m <;> simp [ht]

/-- Bit t of byte i of a packed symbol (R152). -/
theorem getLsbD_pack (h1 : 1 ≤ m) (he : ∀ x ∈ e, IsElem m x) {i : Nat} (hi : i < size) {t : Nat}
    (ht : t < 8) :
    ((pack m e size).getD i 0).getLsbD t =
      (e.getD ((8 * i + t) / m) 0).getLsbD ((8 * i + t) % m) := by
  rw [getD_pack m e size i hi, BitVec.getLsbD_ofNat, show 256 = 2 ^ 8 from rfl, Nat.testBit_mod_two_pow,
    Nat.testBit_shiftRight, testBit_elemsToNat h1 he]
  simp [ht]

/-- Lists of words of one length whose words have the same bits are equal. -/
theorem eq_of_getLsbD_getD {w : Nat} {l l' : List (BitVec w)} (hlen : l.length = l'.length)
    (h : ∀ i < l.length, ∀ t < w, (l.getD i 0).getLsbD t = (l'.getD i 0).getLsbD t) : l = l' := by
  refine List.ext_getElem hlen fun i hi hi' => BitVec.eq_of_getLsbD_eq fun t ht => ?_
  have hbit := h i hi t ht
  rwa [List.getD_eq_getElem _ _ hi, List.getD_eq_getElem _ _ hi'] at hbit

theorem isElem_getD (h : ∀ x ∈ e, IsElem m x) {j : Nat} (hj : j < e.length) : IsElem m (e.getD j 0) := by
  rw [List.getD_eq_getElem e 0 hj]
  exact h _ (List.getElem_mem hj)

/-- The elements of a symbol are m-bit values (R151). -/
theorem isElem_unpack (hm : m ≤ 16) (s : List Byte) : ∀ x ∈ unpack m s, IsElem m x := by
  intro x hx
  obtain ⟨j, hj, rfl⟩ := List.mem_iff_getElem.1 hx
  rw [← List.getD_eq_getElem _ 0 hj, IsElem, getD_unpack hm s j (by simpa using hj)]
  exact Nat.mod_lt _ (Nat.two_pow_pos m)

/-- Where m divides 8S, the bits of a symbol are those of its elements (R150). -/
theorem mul_elementCount (hdvd : 8 * size % m = 0) : m * elementCount m size = 8 * size :=
  Nat.mul_div_cancel' (Nat.dvd_of_mod_eq_zero hdvd)

/-- Packing the elements of a symbol gives it back (R152). -/
theorem pack_unpack (h1 : 1 ≤ m) (hm : m ≤ 16) (hdvd : 8 * s.length % m = 0) :
    pack m (unpack m s) s.length = s := by
  refine eq_of_getLsbD_getD (length_pack ..) fun i hi t ht => ?_
  rw [length_pack] at hi
  have hlane : (8 * i + t) / m < elementCount m s.length :=
    Nat.div_lt_of_lt_mul (by rw [mul_elementCount hdvd]; omega)
  rw [getLsbD_pack h1 (isElem_unpack hm s) hi ht, getLsbD_unpack hm hlane, if_pos (Nat.mod_lt _ h1),
    Nat.div_add_mod]
  congr 2 <;> omega

/-- Unpacking packed m-bit elements gives them back (R152). -/
theorem unpack_pack (h1 : 1 ≤ m) (hm : m ≤ 16) (hdvd : 8 * size % m = 0)
    (hlen : e.length = elementCount m size) (he : ∀ x ∈ e, IsElem m x) :
    unpack m (pack m e size) = e := by
  refine eq_of_getLsbD_getD (by simp [hlen]) fun j hj t _ => ?_
  rw [length_unpack, length_pack, ← hlen] at hj
  rw [getLsbD_unpack hm (by simpa [← hlen] using hj)]
  split
  · rename_i ht
    have hin : m * (j + 1) ≤ 8 * size :=
      mul_elementCount hdvd ▸ Nat.mul_le_mul_left m (hlen ▸ hj)
    have hbyte : (m * j + t) / 8 < size := by
      rw [Nat.mul_succ] at hin
      omega
    rw [getLsbD_pack h1 he hbyte (Nat.mod_lt _ (by decide)), Nat.div_add_mod, Nat.mul_add_div h1,
      Nat.div_eq_of_lt ht, Nat.add_zero, Nat.mul_add_mod, Nat.mod_eq_of_lt ht]
  · rename_i ht
    exact (getLsbD_of_lt_two_pow (isElem_getD he hj) (not_lt.1 ht)).symm

theorem getD_zipWith_xor (hlen : a.length = b.length) (i : Nat) :
    (List.zipWith (· ^^^ ·) a b).getD i 0 = a.getD i 0 ^^^ b.getD i 0 := by
  by_cases hi : i < a.length <;> simp [List.getD_eq_getElem?_getD, ← hlen, hi]

/-- The elements of the bytewise exclusive or are the sums of the elements (R153). -/
theorem unpack_zipWith_xor (hm : m ≤ 16) (hlen : a.length = b.length) :
    unpack m (List.zipWith (· ^^^ ·) a b) = vecAdd (unpack m a) (unpack m b) := by
  refine eq_of_getLsbD_getD (by simp [hlen]) fun j hj t _ => ?_
  have hja : j < elementCount m a.length := by simpa [hlen] using hj
  have hjb : j < elementCount m b.length := hlen ▸ hja
  rw [getD_vecAdd _ _ _ (by simpa using hja) (by simpa using hjb), gfAdd, BitVec.getLsbD_xor,
    getLsbD_unpack hm (by simpa using hj), getLsbD_unpack hm hja, getLsbD_unpack hm hjb,
    getD_zipWith_xor hlen, BitVec.getLsbD_xor]
  split <;> rfl

/-- Settles O44: an element's bits are bits of the symbol's integer, and those are the bytes' bits. -/
theorem unpackTakesBitsInOrder : Obligations.UnpackTakesBitsInOrder := fun m s _ hm _ =>
  ⟨length_unpack m s, fun _ hj t _ => getLsbD_unpack hm hj t⟩

/-- Settles O45: both ways a bit comes back to where it was. -/
theorem packAndUnpackInverse : Obligations.PackAndUnpackInverse := by
  refine fun m size h1 hm hdvd => ⟨?_, fun e hlen he => unpack_pack h1 hm hdvd hlen he⟩
  rintro s rfl
  exact pack_unpack h1 hm hdvd

/-- Settles O46: the bytewise exclusive or has the summed elements, and packing gives it back from them. -/
theorem vecAddIsBytewiseXor : Obligations.VecAddIsBytewiseXor := by
  refine ⟨fun u v hlen => ⟨by simp [hlen], fun j hj => getD_vecAdd u v j hj (hlen ▸ hj)⟩,
    fun m a b h1 hm hlen hdvd => ?_⟩
  have hsize : (List.zipWith (· ^^^ ·) a b).length = a.length := by simp [hlen]
  rw [← unpack_zipWith_xor hm hlen, ← hsize]
  exact pack_unpack h1 hm (hsize ▸ hdvd)

/-! #### The laws of vec_mul and vec_addmul (R160) -/

@[simp] theorem getElem_vecMul (m : Nat) (c : Elem) (v : List Elem) {j : Nat}
    (hj : j < (vecMul m c v).length) :
    (vecMul m c v)[j] = gfMul m c (v[j]'(by simpa using hj)) :=
  List.getElem_map _

@[simp] theorem getElem_vecAdd (u v : List Elem) {j : Nat} (hj : j < (vecAdd u v).length) :
    (vecAdd u v)[j] = gfAdd (u[j]'(by simp at hj; omega)) (v[j]'(by simp at hj; omega)) :=
  List.getElem_zipWith

theorem gfAdd_gfMul (h1 : 1 ≤ m) (hm : m ≤ 16) {c d : Elem} (hc : IsElem m c) (hd : IsElem m d)
    (hx : IsElem m x) : gfMul m (gfAdd c d) x = gfAdd (gfMul m c x) (gfMul m d x) := by
  rw [gfMul_comm h1 hm (gfAdd_lt hc hd) hx, gfMul_gfAdd h1 hm hx hc hd, gfMul_comm h1 hm hx hc,
    gfMul_comm h1 hm hx hd]

theorem vecMul_vecAdd (h1 : 1 ≤ m) (hm : m ≤ 16) {c : Elem} (hc : IsElem m c)
    (hu : ∀ x ∈ u, IsElem m x) (hv : ∀ x ∈ v, IsElem m x) :
    vecMul m c (vecAdd u v) = vecAdd (vecMul m c u) (vecMul m c v) := by
  refine List.ext_getElem (by simp) fun j hj _ => ?_
  simp only [getElem_vecMul, getElem_vecAdd]
  exact gfMul_gfAdd h1 hm hc (hu _ (List.getElem_mem _)) (hv _ (List.getElem_mem _))

theorem vecMul_gfAdd (h1 : 1 ≤ m) (hm : m ≤ 16) {c d : Elem} (hc : IsElem m c) (hd : IsElem m d)
    (hv : ∀ x ∈ v, IsElem m x) :
    vecMul m (gfAdd c d) v = vecAdd (vecMul m c v) (vecMul m d v) := by
  refine List.ext_getElem (by simp) fun j hj _ => ?_
  simp only [getElem_vecMul, getElem_vecAdd]
  exact gfAdd_gfMul h1 hm hc hd (hv _ (List.getElem_mem _))

theorem vecMul_vecMul (h1 : 1 ≤ m) (hm : m ≤ 16) {c d : Elem} (hc : IsElem m c) (hd : IsElem m d)
    (hv : ∀ x ∈ v, IsElem m x) : vecMul m c (vecMul m d v) = vecMul m (gfMul m c d) v := by
  refine List.ext_getElem (by simp) fun j hj _ => ?_
  simp only [getElem_vecMul]
  exact (gfMul_assoc h1 hm hc hd (hv _ (List.getElem_mem _))).symm

/-- Settles O47, identity by identity: each is a law of the field in every lane. -/
theorem vectorMultiplyLinear : Obligations.VectorMultiplyLinear := fun _ _ _ _ _ h1 hm hc he _ hu hv =>
  ⟨vecMul_vecAdd h1 hm hc hu hv, vecMul_gfAdd h1 hm hc he hv, vecMul_vecMul h1 hm hc he hv⟩

theorem isElem_vecMul (hm : m ≤ 16) (c : Elem) (v : List Elem) : ∀ x ∈ vecMul m c v, IsElem m x :=
  List.forall_mem_map.2 fun y _ => gfMul_lt hm c y

theorem isElem_vecAddMul (hm : m ≤ 16) (hu : ∀ x ∈ u, IsElem m x) (c : Elem) (v : List Elem) :
    ∀ x ∈ vecAddMul m u c v, IsElem m x :=
  (rowFits_vecAddMul hm ⟨le_rfl, hu⟩ c v).2

/-- Adding the same multiple twice adds nothing: every element is its own negative (R127). -/
theorem vecAddMul_vecAddMul (m : Nat) (c : Elem) (hlen : u.length = v.length) :
    vecAddMul m (vecAddMul m u c v) c v = u := by
  refine List.ext_getElem (by simp [hlen]) fun j hj _ => ?_
  simp only [vecAddMul, getElem_vecAdd]
  rw [gfAdd_assoc, gfAdd_self, gfAdd_zero]

end Sys2Proof.Machine
end

section
/-! ### The symbol-vector commands (41_vector_ops.md R156 to R159) -/

namespace Sys2Proof.Machine

variable {s : State} {coef : Nat}

/-- A state other than IDLE and FAULTED passes the check of the symbol-vector commands (R282). -/
theorem sessionCheck_anySession (hi : s.state ≠ .idle) (hf : s.state ≠ .faulted) :
    sessionCheck anySession s = none := by
  refine sessionCheck_eq_none.2 ⟨hf, hi, ?_⟩
  cases h : s.state <;> simp_all [anySession]

theorem guarded_of_passed {check : Option Status} {body : Host.Outcome State Fault Refusal}
    (h : check = none) : guarded check s body = body := by
  rw [h, guarded_none]

theorem exec_vclr (hi : s.state ≠ .idle) (hf : s.state ≠ .faulted) :
    exec .vclr s = .next ((storeVacc (List.replicate (symszOf s) 0) s).setStatus .ok) :=
  guarded_of_passed (sessionCheck_anySession hi hf)

theorem exec_vout (hi : s.state ≠ .idle) (hf : s.state ≠ .faulted) :
    exec .vout s = .next ((s.setIobuf (s.iobuf.writeBytes 0 (vaccSymbol s))).setStatus .ok) :=
  guarded_of_passed (sessionCheck_anySession hi hf)

/-- The elements that VADDMUL leaves in VACC (R157). -/
def addmulLanes (s : State) (coef : Nat) : List Elem :=
  vecAddMul (mOf s) (unpack (mOf s) (vaccSymbol s)) (elemOf coef) (unpack (mOf s) (iobufSymbol s))

/-- The elements that VSCALE leaves in VACC (R158). -/
def scaleLanes (s : State) (coef : Nat) : List Elem :=
  vecMul (mOf s) (elemOf coef) (unpack (mOf s) (vaccSymbol s))

/-- The state that a command leaves which packs its elements into VACC. -/
def storeLanes (e : List Elem) (s : State) : State :=
  (storeVacc (pack (mOf s) e (symszOf s)) s).setStatus .ok

theorem exec_vaddmul (hi : s.state ≠ .idle) (hf : s.state ≠ .faulted) (hc : coef < 2 ^ mOf s) :
    exec (.vaddmul coef) s = .next (storeLanes (addmulLanes s coef) s) :=
  guarded_ite_of_passed (sessionCheck_anySession hi hf) (decide_eq_true hc)

theorem exec_vscale (hi : s.state ≠ .idle) (hf : s.state ≠ .faulted) (hc : coef < 2 ^ mOf s) :
    exec (.vscale coef) s = .next (storeLanes (scaleLanes s coef) s) :=
  guarded_ite_of_passed (sessionCheck_anySession hi hf) (decide_eq_true hc)

/-! #### VACC after a symbol is written into it -/

/-- Writing a symbol into VACC leaves the bytes at or beyond SYMSZ (R37). -/
theorem storeVacc_read_of_le (h : s.vacc.wf = true) {bs : List Byte} {o : Nat} (ho : bs.length ≤ o) :
    (storeVacc bs s).vacc.read o = s.vacc.read o := by
  rw [storeVacc_read h, if_neg (not_lt.2 ho)]

/-- The symbol in VACC is the one last written. -/
theorem vaccSymbol_storeVacc (h : s.vacc.wf = true) {bs : List Byte} (hbs : bs.length = symszOf s) :
    vaccSymbol (storeVacc bs s) = bs := by
  refine List.ext_getElem (by simp [hbs, symszOf, storeVacc]) fun o ho ho' => ?_
  have hsymsz : symszOf (storeVacc bs s) = symszOf s := rfl
  have hlt : o < symszOf s := hbs ▸ ho'
  rw [← List.getD_eq_getElem _ 0 ho, ← List.getD_eq_getElem _ 0 ho', getD_vaccSymbol, hsymsz,
    if_pos hlt, storeVacc_read h, if_pos ho']

/-- Writing back the symbol that VACC had restores the state. -/
theorem storeVacc_vaccSymbol (h : s.vacc.wf = true) {bs : List Byte} (hbs : bs.length = symszOf s) :
    storeVacc (vaccSymbol s) (storeVacc bs s) = s := by
  have hwf : (storeVacc bs s).vacc.wf = true := Memory.writeBytes_wf h 0 bs
  have hvacc : (storeVacc (vaccSymbol s) (storeVacc bs s)).vacc = s.vacc := by
    refine Memory.ext_read (Memory.writeBytes_wf hwf 0 _) h fun o => ?_
    rw [storeVacc_read hwf, length_vaccSymbol, getD_vaccSymbol]
    split
    · rfl
    · exact storeVacc_read_of_le h (by omega)
  calc storeVacc (vaccSymbol s) (storeVacc bs s)
      = s.setVacc (storeVacc (vaccSymbol s) (storeVacc bs s)).vacc := rfl
    _ = s := by rw [hvacc]; rfl

/-! #### What VADDMUL and VSCALE leave in VACC -/

/-- A session's M and SYMSZ as far as the symbol-vector commands need them (R150, R212). -/
structure LanesFit (s : State) : Prop where
  pos : 1 ≤ mOf s
  le : mOf s ≤ 16
  dvd : 8 * symszOf s % mOf s = 0
  vacc : s.vacc.wf = true

theorem length_addmulLanes (s : State) (coef : Nat) :
    (addmulLanes s coef).length = elementCount (mOf s) (symszOf s) := by
  simp [addmulLanes]

theorem isElem_addmulLanes (hm : mOf s ≤ 16) (coef : Nat) :
    ∀ x ∈ addmulLanes s coef, IsElem (mOf s) x :=
  isElem_vecAddMul hm (isElem_unpack hm _) _ _

theorem length_scaleLanes (s : State) (coef : Nat) :
    (scaleLanes s coef).length = elementCount (mOf s) (symszOf s) := by
  simp [scaleLanes]

theorem isElem_scaleLanes (hm : mOf s ≤ 16) (coef : Nat) : ∀ x ∈ scaleLanes s coef, IsElem (mOf s) x :=
  isElem_vecMul hm _ _

/-- The elements of the symbol in VACC are those stored. -/
theorem unpack_vaccSymbol_storeLanes (h : LanesFit s) {e : List Elem}
    (hlen : e.length = elementCount (mOf s) (symszOf s)) (he : ∀ x ∈ e, IsElem (mOf s) x) :
    unpack (mOf s) (vaccSymbol (storeLanes e s)) = e := by
  change unpack (mOf s) (vaccSymbol (storeVacc _ s)) = e
  rw [vaccSymbol_storeVacc h.vacc (length_pack ..), unpack_pack h.pos h.le h.dvd hlen he]

/-- Storing elements writes VACC below SYMSZ and STATUS, and nothing else. -/
theorem storeLanes_frame (h : s.vacc.wf = true) (e : List Elem) :
    storeLanes e s = { s with vacc := (storeLanes e s).vacc, status := .ok } ∧
      ∀ o, symszOf s ≤ o → (storeLanes e s).vacc.read o = s.vacc.read o :=
  ⟨rfl, fun _ ho => storeVacc_read_of_le h (by rwa [length_pack])⟩

/-- Storing back the elements that VACC had restores the state but STATUS. -/
theorem storeLanes_vaccSymbol_storeLanes (h : LanesFit s) (e : List Elem) :
    storeLanes (unpack (mOf s) (vaccSymbol s)) (storeLanes e s) = s.setStatus .ok := by
  have hpack : pack (mOf s) (unpack (mOf s) (vaccSymbol s)) (symszOf s) = vaccSymbol s := by
    have hback := pack_unpack (s := vaccSymbol s) h.pos h.le (by rw [length_vaccSymbol, h.dvd])
    rwa [length_vaccSymbol] at hback
  calc storeLanes (unpack (mOf s) (vaccSymbol s)) (storeLanes e s)
      = (storeVacc (pack (mOf s) (unpack (mOf s) (vaccSymbol s)) (symszOf s))
          (storeVacc (pack (mOf s) e (symszOf s)) s)).setStatus .ok := rfl
    _ = s.setStatus .ok := by rw [hpack, storeVacc_vaccSymbol h.vacc (length_pack ..)]

/-- After a VADDMUL, the same VADDMUL's elements are those VACC had at first (R157). -/
theorem addmulLanes_storeLanes (h : LanesFit s) (coef : Nat) :
    addmulLanes (storeLanes (addmulLanes s coef) s) coef = unpack (mOf s) (vaccSymbol s) := by
  change vecAddMul (mOf s) (unpack (mOf s) (vaccSymbol (storeLanes (addmulLanes s coef) s)))
    (elemOf coef) (unpack (mOf s) (iobufSymbol s)) = _
  rw [unpack_vaccSymbol_storeLanes h (length_addmulLanes s coef) (isElem_addmulLanes h.le coef)]
  exact vecAddMul_vecAddMul _ _ (by simp)

/-! #### The statements -/

/-- Settles O35: the bytes written are SYMSZ zeros. -/
theorem vclrClearsAccumulator : Obligations.VclrClearsAccumulator := by
  refine fun s hi hf hwf => ⟨_, exec_vclr hi hf, fun o => ?_, rfl⟩
  rw [State.setStatus_vacc, storeVacc_read hwf, List.length_replicate]
  split
  · exact List.getD_replicate 0 ‹_›
  · rfl

/-- Settles O39: the bytes written are VACC's symbol. -/
theorem voutCopiesAccumulator : Obligations.VoutCopiesAccumulator := by
  refine fun s hi hf hwf => ⟨_, exec_vout hi hf, fun o => ?_, rfl⟩
  rw [State.setStatus_iobuf, State.setIobuf_iobuf, Memory.read_writeBytes hwf, length_vaccSymbol,
    Nat.sub_zero, getD_vaccSymbol]
  by_cases ho : o < symszOf s <;> simp [ho]

/-- Settles O36: unpacking what was packed gives the elements stored, lane by lane. -/
theorem vaddmulAccumulatesLanes : Obligations.VaddmulAccumulatesLanes := by
  intro s coef hi hf hc h1 hm hdvd hwf
  obtain ⟨hframe, hbeyond⟩ := storeLanes_frame hwf (addmulLanes s coef)
  refine ⟨_, exec_vaddmul hi hf hc, hframe, hbeyond, fun l hl => ?_⟩
  rw [unpack_vaccSymbol_storeLanes ⟨h1, hm, hdvd, hwf⟩ (length_addmulLanes s coef)
    (isElem_addmulLanes hm coef)]
  exact getD_vecAddMul _ _ _ _ _ (by simpa using hl) (by simpa using hl)

/-- Settles O38: unpacking what was packed gives the elements stored, lane by lane. -/
theorem vscaleMultipliesLanes : Obligations.VscaleMultipliesLanes := by
  intro s coef hi hf hc h1 hm hdvd hwf
  obtain ⟨hframe, hbeyond⟩ := storeLanes_frame hwf (scaleLanes s coef)
  refine ⟨_, exec_vscale hi hf hc, hframe, hbeyond, fun l hl => ?_⟩
  rw [unpack_vaccSymbol_storeLanes ⟨h1, hm, hdvd, hwf⟩ (length_scaleLanes s coef)
    (isElem_scaleLanes hm coef)]
  exact getD_vecMul _ _ _ _ (by simpa using hl)

/-- Settles O37: the second VADDMUL stores the elements that VACC had before the first. -/
theorem vaddmulTwiceRestores : Obligations.VaddmulTwiceRestores := by
  intro s coef hi hf hc h1 hm hdvd hwf
  have hfit : LanesFit s := ⟨h1, hm, hdvd, hwf⟩
  refine ⟨_, exec_vaddmul hi hf hc, ?_⟩
  rw [exec_vaddmul (s := storeLanes (addmulLanes s coef) s) hi hf hc, addmulLanes_storeLanes hfit,
    storeLanes_vaccSymbol_storeLanes hfit]

end Sys2Proof.Machine
end

section
/-! ### Rows and matrices modulo P_m (42_matrix_ops.md R180, R182, R183)

A row of m-bit values is read as the vector of its classes modulo P_m, and a list of rows as the matrix of
them. The row operations and mat_mul are then those of linear algebra over a commutative ring. -/

namespace Sys2Proof.Machine

open Matrix

variable {m k r t : Nat} {u v row : List Elem} {a b : List (List Elem)} {f : Elem}

/-- A row of k m-bit values, as IsMatrix asks of each of its rows. -/
abbrev IsRow (m k : Nat) (row : List Elem) : Prop := row.length = k ∧ ∀ e ∈ row, IsElem m e

/-- The classes modulo P_m of the first k elements of a row. -/
noncomputable def residueRow (m k : Nat) (row : List Elem) : Fin k → AdjoinRoot (modulus m) :=
  fun j => residue m (rowElem row j)

/-- The classes modulo P_m of an r by k matrix. -/
noncomputable def residueMatrix (m r k : Nat) (a : List (List Elem)) :
    Matrix (Fin r) (Fin k) (AdjoinRoot (modulus m)) :=
  .of fun i => residueRow m k (a.getD i [])

theorem residueMatrix_row (a : List (List Elem)) (i : Fin r) :
    residueMatrix m r k a i = residueRow m k (a.getD i []) := rfl

theorem rowFits_of_isRow (h : IsRow m k row) : RowFits k m row := ⟨h.1.le, h.2⟩

theorem isElem_of_isRow (h : IsRow m k row) (c : Nat) : IsElem m (rowElem row c) :=
  isElem_rowElem (rowFits_of_isRow h) c

theorem isRow_getD (h : IsMatrix m r k a) {i : Nat} (hi : i < r) : IsRow m k (a.getD i []) := by
  obtain ⟨rfl, hrows⟩ := h
  rw [List.getD_eq_getElem _ _ hi]
  exact hrows _ (List.getElem_mem hi)

theorem getD_map_row (g : List Elem → List Elem) {i : Nat} (hi : i < a.length) :
    (a.map g).getD i [] = g (a.getD i []) := by
  simp [List.getD_eq_getElem?_getD, hi]

/-- A row of m-bit values is fixed by its classes. -/
theorem residueRow_injective (h1 : 1 ≤ m) (hm : m ≤ 16) (hu : IsRow m k u) (hv : IsRow m k v)
    (h : residueRow m k u = residueRow m k v) : u = v := by
  refine List.ext_getElem (hu.1.trans hv.1.symm) fun j hj hj' => ?_
  have hres : residue m (rowElem u j) = residue m (rowElem v j) := congrFun h ⟨j, hu.1 ▸ hj⟩
  have helem := residue_injective h1 hm (isElem_of_isRow hu j) (isElem_of_isRow hv j) hres
  rwa [rowElem, rowElem, List.getD_eq_getElem _ _ hj, List.getD_eq_getElem _ _ hj'] at helem

/-- A matrix of m-bit values is fixed by its classes. -/
theorem residueMatrix_injective (h1 : 1 ≤ m) (hm : m ≤ 16) (ha : IsMatrix m r k a)
    (hb : IsMatrix m r k b) (h : residueMatrix m r k a = residueMatrix m r k b) : a = b := by
  refine List.ext_getElem (ha.1.trans hb.1.symm) fun i hi hi' => ?_
  have hir : i < r := ha.1 ▸ hi
  have hrow := residueRow_injective h1 hm (isRow_getD ha hir) (isRow_getD hb hir) (congrFun h ⟨i, hir⟩)
  rwa [List.getD_eq_getElem _ _ hi, List.getD_eq_getElem _ _ hi'] at hrow

theorem one_ne_zero_modulo (h1 : 1 ≤ m) (hm : m ≤ 16) : (1 : AdjoinRoot (modulus m)) ≠ 0 := by
  intro h
  have hone : (1 : Elem) = 0 := residue_injective h1 hm (isElem_one h1) (isElem_zero m)
    ((residue_one.trans h).trans residue_zero.symm)
  exact absurd hone (by decide)

/-! #### The row operations -/

theorem isRow_zeroVec (m k : Nat) : IsRow m k (zeroVec k) := by
  refine ⟨length_zeroVec k, fun e he => ?_⟩
  rw [List.eq_of_mem_replicate he]
  exact isElem_zero m

theorem residueRow_zeroVec (m k : Nat) : residueRow m k (zeroVec k) = 0 := by
  funext j
  simp [residueRow, rowElem, zeroVec, List.getD_eq_getElem?_getD]

theorem isRow_vecMul (hm : m ≤ 16) (hv : IsRow m k v) (f : Elem) : IsRow m k (vecMul m f v) :=
  ⟨(length_vecMul m f v).trans hv.1, isElem_vecMul hm f v⟩

theorem isRow_vecAddMul (hm : m ≤ 16) (hu : IsRow m k u) (hv : IsRow m k v) (f : Elem) :
    IsRow m k (vecAddMul m u f v) :=
  ⟨by simp [hu.1, hv.1], isElem_vecAddMul hm hu.2 f v⟩

theorem residueRow_vecMul (h1 : 1 ≤ m) (hm : m ≤ 16) (hf : IsElem m f) (hv : IsRow m k v) :
    residueRow m k (vecMul m f v) = residue m f • residueRow m k v := by
  funext j
  simp [residueRow, rowElem_vecMul, residue_gfMul h1 hm hf (isElem_of_isRow hv j)]

theorem residueRow_vecAddMul (h1 : 1 ≤ m) (hm : m ≤ 16) (hf : IsElem m f) (hu : IsRow m k u)
    (hv : IsRow m k v) :
    residueRow m k (vecAddMul m u f v) = residueRow m k u + residue m f • residueRow m k v := by
  funext j
  have hju : (j : Nat) < u.length := hu.1.symm ▸ j.isLt
  have hjv : (j : Nat) < v.length := hv.1.symm ▸ j.isLt
  simp [residueRow, rowElem_vecAddMul f hju hjv, residue_gfAdd,
    residue_gfMul h1 hm hf (isElem_of_isRow hv j)]

/-! #### Products -/

/-- The loop of a row times a matrix adds the product to what it starts with (R183). -/
theorem foldl_vecAddMul_spec (h1 : 1 ≤ m) (hm : m ≤ 16) (hrow : IsRow m r row) (hb : IsMatrix m r k b)
    (hu : IsRow m k u) :
    IsRow m k ((row.zip b).foldl (fun acc tb => vecAddMul m acc tb.1 tb.2) u) ∧
      residueRow m k ((row.zip b).foldl (fun acc tb => vecAddMul m acc tb.1 tb.2) u) =
        residueRow m k u + ∑ i : Fin r, residueRow m r row i • residueRow m k (b.getD i []) := by
  induction row generalizing r b u with
  | nil =>
    obtain ⟨rfl, -⟩ := hrow
    exact ⟨hu, by simp⟩
  | cons x row ih =>
    obtain ⟨rfl, hx⟩ := hrow
    obtain ⟨hlen, hrows⟩ := hb
    cases b with
    | nil => simp at hlen
    | cons y b =>
      have hxe : IsElem m x := hx x List.mem_cons_self
      have hy : IsRow m k y := hrows y List.mem_cons_self
      obtain ⟨hfits, hval⟩ := ih (r := row.length) (b := b) (u := vecAddMul m u x y)
        ⟨rfl, fun e he => hx e (List.mem_cons_of_mem _ he)⟩
        ⟨by simpa using hlen, fun z hz => hrows z (List.mem_cons_of_mem _ hz)⟩
        (isRow_vecAddMul hm hu hy x)
      refine ⟨hfits, hval.trans ?_⟩
      rw [residueRow_vecAddMul h1 hm hxe hu hy, add_assoc]
      exact congrArg (residueRow m k u + ·) (Fin.sum_univ_succ (n := row.length) fun i =>
        residueRow m (row.length + 1) (x :: row) i • residueRow m k ((y :: b).getD i [])).symm

/-- A row times a matrix (R183). -/
theorem rowMul_spec (h1 : 1 ≤ m) (hm : m ≤ 16) (hrow : IsRow m r row) (hb : IsMatrix m r k b) :
    IsRow m k (rowMul m k row b) ∧
      residueRow m k (rowMul m k row b) = residueRow m r row ᵥ* residueMatrix m r k b := by
  obtain ⟨hfits, hval⟩ := foldl_vecAddMul_spec h1 hm hrow hb (isRow_zeroVec m k)
  rw [residueRow_zeroVec, zero_add] at hval
  exact ⟨hfits, hval.trans (vecMul_eq_sum _ _).symm⟩

theorem isMatrix_matMul (h1 : 1 ≤ m) (hm : m ≤ 16) (ha : IsMatrix m r t a) (hb : IsMatrix m t k b) :
    IsMatrix m r k (matMul m k a b) := by
  refine ⟨(List.length_map _).trans ha.1, fun row hrow => ?_⟩
  obtain ⟨row', hrow', rfl⟩ := List.mem_map.1 hrow
  exact (rowMul_spec h1 hm (ha.2 row' hrow') hb).1

/-- mat_mul is the product of matrices (R183). -/
theorem residueMatrix_matMul (h1 : 1 ≤ m) (hm : m ≤ 16) (ha : IsMatrix m r t a)
    (hb : IsMatrix m t k b) :
    residueMatrix m r k (matMul m k a b) = residueMatrix m r t a * residueMatrix m t k b := by
  funext i
  rw [residueMatrix_row, matMul, getD_map_row _ (ha.1.symm ▸ i.isLt), mul_apply_eq_vecMul,
    (rowMul_spec h1 hm (isRow_getD ha i.isLt) hb).2]
  rfl

/-! #### The identity and the Vandermonde matrices -/

theorem rowElem_identityRow {c : Nat} (e : Nat) (hc : c < k) :
    rowElem (identityRow k e) c = if e = c then 1 else 0 := by
  simp [rowElem, identityRow, List.getD_eq_getElem?_getD, hc]

theorem isRow_identityRow (h1 : 1 ≤ m) (k e : Nat) : IsRow m k (identityRow k e) := by
  refine ⟨length_identityRow k e, fun x hx => ?_⟩
  obtain ⟨c, -, rfl⟩ := List.mem_map.1 hx
  split
  · exact isElem_one h1
  · exact isElem_zero m

theorem residueRow_identityRow (m : Nat) (i : Fin k) :
    residueRow m k (identityRow k i) = (1 : Matrix (Fin k) (Fin k) (AdjoinRoot (modulus m))) i := by
  funext j
  rw [residueRow, rowElem_identityRow _ j.isLt, one_apply]
  by_cases hij : i = j
  · simp [hij]
  · simp [hij, Fin.val_inj]

theorem isMatrix_identityMatrix (h1 : 1 ≤ m) (k : Nat) : IsMatrix m k k (identityMatrix k) := by
  refine ⟨length_identityMatrix k, fun row hrow => ?_⟩
  obtain ⟨e, -, rfl⟩ := List.mem_map.1 hrow
  exact isRow_identityRow h1 k e

theorem getD_identityMatrix {i : Nat} (hi : i < k) : (identityMatrix k).getD i [] = identityRow k i := by
  simp [identityMatrix, List.getD_eq_getElem?_getD, hi]

theorem residueMatrix_identityMatrix (m k : Nat) : residueMatrix m k k (identityMatrix k) = 1 := by
  funext i
  rw [residueMatrix_row, getD_identityMatrix i.isLt, residueRow_identityRow]

/-- The class of evaluation point e (R181). -/
noncomputable def pointClass (m e : Nat) : AdjoinRoot (modulus m) := residue m (point m e)

/-- Different evaluation points differ by a unit (R181; R127, law 6). -/
theorem isUnit_pointClass_sub (h1 : 1 ≤ m) (hm : m ≤ 16) {e e' : Nat} (he : e < 2 ^ m)
    (he' : e' < 2 ^ m) (hne : e ≠ e') : IsUnit (pointClass m e - pointClass m e') := by
  have hx := point_lt h1 hm e
  have hy := point_lt h1 hm e'
  have hpoints : point m e ≠ point m e' := by
    rcases Nat.lt_or_gt_of_ne hne with hlt | hlt
    · exact evaluationPointsDistinct m e e' h1 hm hlt he'
    · exact (evaluationPointsDistinct m e' e h1 hm hlt he).symm
  have hsub : residue m (gfAdd (point m e) (point m e')) = pointClass m e - pointClass m e' := by
    rw [eq_sub_iff_add_eq, pointClass, ← residue_gfAdd, gfAdd_assoc, gfAdd_self, gfAdd_zero]
    rfl
  obtain ⟨v, hv⟩ := gfInv_isSome (x := gfAdd (point m e) (point m e')) m fun h =>
    hpoints (BitVec.xor_eq_zero_iff.1 h)
  have hmul := gfMul_gfInv h1 hm (gfAdd_lt hx hy) hv
  rw [← hsub]
  refine IsUnit.of_mul_eq_one_right (residue m v) ?_
  rw [← residue_gfMul h1 hm (gfInv_lt h1 hm hv) (gfAdd_lt hx hy), hmul]
  exact residue_one

/-- The Vandermonde matrix of distinct evaluation points is invertible (R186). -/
theorem isUnit_vandermonde (h1 : 1 ≤ m) (hm : m ≤ 16) {e : Fin k → Nat} (he : Function.Injective e)
    (hlt : ∀ i, e i < 2 ^ m) : IsUnit (vandermonde fun i => pointClass m (e i)) := by
  rw [isUnit_iff_isUnit_det, det_vandermonde]
  refine IsUnit.prod_iff.2 fun i _ => IsUnit.prod_iff.2 fun j hj => ?_
  exact isUnit_pointClass_sub h1 hm (hlt j) (hlt i) fun h =>
    (Finset.mem_Ioi.1 hj).ne' (he h)

theorem isRow_vdmRow (h1 : 1 ≤ m) (hm : m ≤ 16) (k e : Nat) : IsRow m k (vdmRow m k e) := by
  refine ⟨length_vdmRow m k e, fun x hx => ?_⟩
  obtain ⟨c, -, rfl⟩ := List.mem_map.1 hx
  exact gfPow_lt h1 hm _ c

/-- Row e of a Vandermonde matrix is the powers of point e (R182). -/
theorem residueRow_vdmRow (h1 : 1 ≤ m) (hm : m ≤ 16) (e : Nat) (j : Fin k) :
    residueRow m k (vdmRow m k e) j = pointClass m e ^ (j : Nat) := by
  have helem : rowElem (vdmRow m k e) j = gfPow m (point m e) j := by
    simp [rowElem, vdmRow, List.getD_eq_getElem?_getD]
  rw [residueRow, helem, residue_gfPow h1 hm (point_lt h1 hm e), pointClass]

theorem isMatrix_vdm (h1 : 1 ≤ m) (hm : m ≤ 16) (r k : Nat) : IsMatrix m r k (vdm m r k) := by
  refine ⟨length_vdm m r k, fun row hrow => ?_⟩
  obtain ⟨e, -, rfl⟩ := List.mem_map.1 hrow
  exact isRow_vdmRow h1 hm k e

theorem getD_vdm {e : Nat} (he : e < r) : (vdm m r k).getD e [] = vdmRow m k e := by
  simp [vdm, List.getD_eq_getElem?_getD, he]

theorem residueMatrix_vdm (h1 : 1 ≤ m) (hm : m ≤ 16) (k : Nat) :
    residueMatrix m k k (vdm m k k) = vandermonde fun i => pointClass m i := by
  ext i j
  rw [residueMatrix_row, getD_vdm i.isLt, residueRow_vdmRow h1 hm, vandermonde_apply]

end Sys2Proof.Machine
end

section
/-! ### Gauss-Jordan elimination (42_matrix_ops.md R184)

The turns of mat_inv are row operations on the pair (W, U), and so they keep the linear relations among the
pair's columns. Read at the start, where U is the identity, and at the end, where W is, the relations say that
the last U inverts the matrix; read at a turn without a pivot, they give a vector that the matrix kills. -/

namespace Sys2Proof.Machine

open Matrix

variable {m k c : Nat} {rows : List AugRow} {row piv : AugRow} {a u : List (List Elem)} {f : Elem}
  {x y : Fin k → AdjoinRoot (modulus m)}

/-- Both halves of a row of the pair (W, U) are rows of k m-bit values. -/
def AugFits (m k : Nat) (row : AugRow) : Prop := IsRow m k row.1 ∧ IsRow m k row.2

/-- The value that coefficients x for the columns of W and y for those of U give a row. -/
noncomputable def relation (m : Nat) {k : Nat} (x y : Fin k → AdjoinRoot (modulus m)) (row : AugRow) :
    AdjoinRoot (modulus m) :=
  residueRow m k row.1 ⬝ᵥ x + residueRow m k row.2 ⬝ᵥ y

/-- A linear relation among the columns of W and U: coefficients that give every row the value 0. -/
def Related (m : Nat) {k : Nat} (x y : Fin k → AdjoinRoot (modulus m)) (rows : List AugRow) : Prop :=
  ∀ r < k, relation m x y (augRow rows r) = 0

/-- The pair (W, U) before the turn for column c: k rows of m-bit values, the first c columns of W those of
the identity. -/
structure Reduced (m k c : Nat) (rows : List AugRow) : Prop where
  length : rows.length = k
  fits : ∀ r < k, AugFits m k (augRow rows r)
  columns : ∀ r < k, ∀ j < c, rowElem (augRow rows r).1 j = if r = j then 1 else 0

/-! #### The row operations -/

theorem augFits_augScale (hm : m ≤ 16) (h : AugFits m k row) (f : Elem) : AugFits m k (augScale m f row) :=
  ⟨isRow_vecMul hm h.1 f, isRow_vecMul hm h.2 f⟩

theorem augFits_augAddMul (hm : m ≤ 16) (h : AugFits m k row) (hp : AugFits m k piv) (f : Elem) :
    AugFits m k (augAddMul m row f piv) :=
  ⟨isRow_vecAddMul hm h.1 hp.1 f, isRow_vecAddMul hm h.2 hp.2 f⟩

theorem relation_augScale (h1 : 1 ≤ m) (hm : m ≤ 16) (hf : IsElem m f) (h : AugFits m k row) :
    relation m x y (augScale m f row) = residue m f * relation m x y row := by
  simp [relation, augScale, residueRow_vecMul h1 hm hf h.1, residueRow_vecMul h1 hm hf h.2, mul_add]

theorem relation_augAddMul (h1 : 1 ≤ m) (hm : m ≤ 16) (hf : IsElem m f) (h : AugFits m k row)
    (hp : AugFits m k piv) : relation m x y (augAddMul m row f piv) =
      relation m x y row + residue m f * relation m x y piv := by
  simp only [relation, augAddMul, residueRow_vecAddMul h1 hm hf h.1 hp.1,
    residueRow_vecAddMul h1 hm hf h.2 hp.2, add_dotProduct, smul_dotProduct, smul_eq_mul]
  ring

/-- Adding a multiple with factor 0 changes nothing. -/
theorem vecAddMul_zero {v w : List Elem} (h : v.length ≤ w.length) : vecAddMul m v 0 w = v := by
  refine List.ext_getElem (by simpa using h) fun j hj _ => ?_
  simp only [vecAddMul, getElem_vecAdd, getElem_vecMul, zero_gfMul, gfAdd_zero]

theorem augAddMul_zero (h : AugFits m k row) (hp : AugFits m k piv) : augAddMul m row 0 piv = row := by
  obtain ⟨⟨hw, -⟩, ⟨hu, -⟩⟩ := h
  obtain ⟨⟨hw', -⟩, ⟨hu', -⟩⟩ := hp
  rw [augAddMul, vecAddMul_zero (hw.trans hw'.symm).le, vecAddMul_zero (hu.trans hu'.symm).le]

/-! #### The exchange of two rows -/

theorem length_swapRows (rows : List AugRow) (i j : Nat) : (swapRows rows i j).length = rows.length := by
  simp [swapRows]

theorem augRow_swapRows {i j : Nat} (hi : i < rows.length) (hj : j < rows.length) (r : Nat) :
    augRow (swapRows rows i j) r = augRow rows (Equiv.swap i j r) := by
  simp only [swapRows, augRow, List.getD_eq_getElem?_getD, List.getElem?_set, List.length_set]
  by_cases hrj : j = r
  · subst hrj
    simp [hj]
  · by_cases hri : i = r
    · subst hri
      simp [hrj, hi]
    · simp [hrj, hri, Equiv.swap_apply_of_ne_of_ne (Ne.symm hri) (Ne.symm hrj)]

theorem swap_lt_iff {i j r : Nat} (hi : i < k) (hj : j < k) : Equiv.swap i j r < k ↔ r < k := by
  rw [Equiv.swap_apply_def]
  split
  · omega
  · split <;> omega

/-- What holds of all rows holds of them after an exchange. -/
theorem forall_augRow_swapRows {P : AugRow → Prop} {i j : Nat} (hlen : rows.length = k) (hi : i < k)
    (hj : j < k) : (∀ r < k, P (augRow (swapRows rows i j) r)) ↔ ∀ r < k, P (augRow rows r) := by
  simp only [augRow_swapRows (hlen ▸ hi) (hlen ▸ hj)]
  rw [← (Equiv.swap i j).forall_congr_right (q := fun r => r < k → P (augRow rows r))]
  simp only [swap_lt_iff hi hj]

/-- An exchange of two rows at or below the diagonal keeps the columns that are done. -/
theorem reduced_swapRows {i j : Nat} (h : Reduced m k c rows) (hci : c ≤ i) (hi : i < k) (hcj : c ≤ j)
    (hj : j < k) : Reduced m k c (swapRows rows i j) := by
  refine ⟨(length_swapRows rows i j).trans h.length,
    (forall_augRow_swapRows (P := AugFits m k) h.length hi hj).2 h.fits, fun r hr l hl => ?_⟩
  have hfixed : Equiv.swap i j l = l := Equiv.swap_apply_of_ne_of_ne (by omega) (by omega)
  rw [augRow_swapRows (h.length ▸ hi) (h.length ▸ hj), h.columns _ ((swap_lt_iff hi hj).2 hr) l hl]
  simp only [Equiv.swap_apply_eq_iff, hfixed]

/-! #### One turn -/

/-- A turn fails only where there is no pivot: the pivot is not 0, so it has an inverse. -/
theorem gaussJordanColumn_eq_none (h : gaussJordanColumn m rows c = none) (hc : c < rows.length) :
    pivotIndex rows c = none := by
  unfold gaussJordanColumn at h
  split at h
  · assumption
  · rename_i p hp
    obtain ⟨-, hplen, hne⟩ := pivotIndex_some hp
    split at h
    · rename_i hinv
      rw [gfInv_eq_none, augRow_swapRows hc hplen, Equiv.swap_apply_left] at hinv
      exact absurd hinv hne
    · cases h

/-- A turn brings the pivot's row to the diagonal and clears the column with its multiple. -/
theorem gaussJordanColumn_eq_some {rows' : List AugRow} (h : gaussJordanColumn m rows c = some rows') :
    ∃ p v, c ≤ p ∧ p < rows.length ∧ gfInv m (rowElem (augRow (swapRows rows c p) c).1 c) = some v ∧
      rows' = clearColumn m c (augScale m v (augRow (swapRows rows c p) c)) (swapRows rows c p) := by
  unfold gaussJordanColumn at h
  split at h
  · cases h
  · rename_i p hp
    obtain ⟨hcp, hplen, -⟩ := pivotIndex_some hp
    split at h
    · cases h
    · exact ⟨p, _, hcp, hplen, ‹_›, (Option.some.inj h).symm⟩

theorem length_clearColumn (m c : Nat) (piv : AugRow) (rows : List AugRow) :
    (clearColumn m c piv rows).length = rows.length := by
  simp [clearColumn]

/-- The rows after a column is cleared: the pivot's, and each other row plus its multiple of it. -/
theorem augRow_clearColumn {r : Nat} (hlen : rows.length = k) (hr : r < k)
    (hfits : AugFits m k (augRow rows r)) (hp : AugFits m k piv) :
    augRow (clearColumn m c piv rows) r = if r = c then piv
      else augAddMul m (augRow rows r) (rowElem (augRow rows r).1 c) piv := by
  have hrow : augRow (clearColumn m c piv rows) r = if r = c then piv
      else if rowElem (augRow rows r).1 c = 0 then augRow rows r
      else augAddMul m (augRow rows r) (rowElem (augRow rows r).1 c) piv := by
    simp [clearColumn, augRow, List.getD_eq_getElem?_getD, hlen ▸ hr]
  rw [hrow]
  by_cases hzero : rowElem (augRow rows r).1 c = 0
  · rw [if_pos hzero, hzero, augAddMul_zero hfits hp]
  · rw [if_neg hzero]

/-- Clearing column c with a row that leads with a 1 there. -/
theorem reduced_clearColumn (h1 : 1 ≤ m) (hm : m ≤ 16) (h : Reduced m k c rows) (hc : c < k)
    (hp : AugFits m k piv) (hone : rowElem piv.1 c = 1) (hbelow : ∀ j < c, rowElem piv.1 j = 0) :
    Reduced m k (c + 1) (clearColumn m c piv rows) := by
  refine ⟨(length_clearColumn ..).trans h.length, fun r hr => ?_, fun r hr j hj => ?_⟩ <;>
    rw [augRow_clearColumn h.length hr (h.fits r hr) hp]
  · split
    · exact hp
    · exact augFits_augAddMul hm (h.fits r hr) hp _
  · have hlen : ∀ {w : List Elem}, w.length = k → j < w.length := fun hw => by omega
    have helem := isElem_of_isRow (h.fits r hr).1 c
    by_cases hrc : r = c
    · rw [if_pos hrc, hrc]
      rcases Nat.lt_succ_iff_lt_or_eq.1 hj with hlt | rfl
      · rw [hbelow j hlt, if_neg hlt.ne']
      · rw [hone, if_pos rfl]
    · rw [if_neg hrc, augAddMul, rowElem_vecAddMul _ (hlen (h.fits r hr).1.1) (hlen hp.1.1)]
      rcases Nat.lt_succ_iff_lt_or_eq.1 hj with hlt | rfl
      · rw [hbelow j hlt, gfMul_zero, gfAdd_zero, h.columns r hr j hlt]
      · rw [hone, gfMul_one h1 hm helem, gfAdd_self, if_neg hrc]

/-- Clearing a column keeps the relations: the row of the pivot comes back times an inverse. -/
theorem related_clearColumn {v : Elem} (h1 : 1 ≤ m) (hm : m ≤ 16) (h : Reduced m k c rows) (hc : c < k)
    (hv : gfInv m (rowElem (augRow rows c).1 c) = some v) :
    Related m x y (clearColumn m c (augScale m v (augRow rows c)) rows) ↔ Related m x y rows := by
  have hve := gfInv_lt h1 hm hv
  have hpivot := h.fits c hc
  have hscale := relation_augScale (x := x) (y := y) h1 hm hve hpivot
  have hunit : IsUnit (residue m v) := by
    have hw := isElem_of_isRow hpivot.1 c
    refine IsUnit.of_mul_eq_one (residue m (rowElem (augRow rows c).1 c)) ?_
    rw [← residue_gfMul h1 hm hve hw, gfMul_gfInv h1 hm hw hv]
    exact residue_one
  have hrow : ∀ r < k, relation m x y (augRow (clearColumn m c (augScale m v (augRow rows c)) rows) r) =
      if r = c then residue m v * relation m x y (augRow rows c)
      else relation m x y (augRow rows r) + residue m (rowElem (augRow rows r).1 c) *
        (residue m v * relation m x y (augRow rows c)) := fun r hr => by
    have hp := augFits_augScale hm hpivot v
    rw [augRow_clearColumn h.length hr (h.fits r hr) hp, ← hscale]
    split
    · rfl
    · exact relation_augAddMul h1 hm (isElem_of_isRow (h.fits r hr).1 c) (h.fits r hr) hp
  constructor
  · intro hrel r hr
    have hzero : relation m x y (augRow rows c) = 0 := by
      have hcc := hrel c hc
      rwa [hrow c hc, if_pos rfl, hunit.mul_right_eq_zero] at hcc
    by_cases hrc : r = c
    · rw [hrc, hzero]
    · have hrr := hrel r hr
      rwa [hrow r hr, if_neg hrc, hzero, mul_zero, mul_zero, add_zero] at hrr
  · intro hrel r hr
    rw [hrow r hr, hrel c hc, hrel r hr]
    simp

/-- A turn finishes one more column and keeps the relations (R184). -/
theorem gaussJordanColumn_spec {rows' : List AugRow} (h1 : 1 ≤ m) (hm : m ≤ 16)
    (h : Reduced m k c rows) (hc : c < k) (hturn : gaussJordanColumn m rows c = some rows') :
    Reduced m k (c + 1) rows' ∧
      ∀ x y : Fin k → AdjoinRoot (modulus m), Related m x y rows' ↔ Related m x y rows := by
  obtain ⟨p, v, hcp, hp, hv, rfl⟩ := gaussJordanColumn_eq_some hturn
  have hpk : p < k := h.length ▸ hp
  have hswap := reduced_swapRows h le_rfl hc hcp hpk
  have hpivot := hswap.fits c hc
  refine ⟨reduced_clearColumn h1 hm hswap hc (augFits_augScale hm hpivot v) ?_ fun j hj => ?_,
    fun x y => (related_clearColumn h1 hm hswap hc hv).trans
      (forall_augRow_swapRows (P := fun row => relation m x y row = 0) h.length hc hpk)⟩
  · rw [augScale, rowElem_vecMul, gfMul_gfInv h1 hm (isElem_of_isRow hpivot.1 c) hv]
  · rw [augScale, rowElem_vecMul, hswap.columns c hc j hj, if_neg hj.ne', gfMul_zero]

/-- The vector that a column without a pivot gives: -1 at the column, and what the columns that are done need
to cancel it. -/
noncomputable def kernelVector (m k c : Nat) (rows : List AugRow) : Fin k → AdjoinRoot (modulus m) :=
  fun j => if (j : Nat) = c then -1 else if (j : Nat) < c then residue m (rowElem (augRow rows j).1 c) else 0

/-- Where there is no pivot, W kills that vector. -/
theorem related_kernelVector (h : Reduced m k c rows) (hc : c < k) (hnone : pivotIndex rows c = none) :
    Related m (kernelVector m k c rows) (0 : Fin k → AdjoinRoot (modulus m)) rows := by
  intro r hr
  rw [relation, dotProduct_zero, add_zero, dotProduct]
  have hterm : ∀ j : Fin k, residueRow m k (augRow rows r).1 j * kernelVector m k c rows j =
      (if j = ⟨r, hr⟩ then (if r < c then residue m (rowElem (augRow rows r).1 c) else 0) else 0) -
        if j = ⟨c, hc⟩ then residue m (rowElem (augRow rows r).1 c) else 0 := fun j => by
    simp only [kernelVector, residueRow, Fin.ext_iff]
    rcases lt_trichotomy (j : Nat) c with hlt | heq | hgt
    · rw [if_neg hlt.ne, if_pos hlt, h.columns r hr j hlt, if_neg hlt.ne]
      by_cases hjr : (j : Nat) = r
      · rw [if_pos hjr.symm, if_pos hjr, if_pos (hjr ▸ hlt), ← hjr, sub_zero]
        exact (congrArg (· * _) residue_one).trans (one_mul _)
      · rw [if_neg (Ne.symm hjr), if_neg hjr, sub_zero]
        exact (congrArg (· * _) residue_zero).trans (zero_mul _)
    · rw [heq, if_pos rfl, if_pos rfl, mul_neg_one]
      split
      · rw [if_neg (by omega), zero_sub]
      · rw [zero_sub]
    · rw [if_neg hgt.ne', if_neg hgt.not_gt, if_neg hgt.ne', mul_zero, sub_zero]
      split
      · rw [if_neg (by omega)]
      · rfl
  simp only [hterm, Finset.sum_sub_distrib, Finset.sum_ite_eq', Finset.mem_univ, if_true]
  by_cases hrc : r < c
  · rw [if_pos hrc, sub_self]
  · rw [if_neg hrc, pivotIndex_none hnone r (not_lt.1 hrc) (h.length ▸ hr)]
    simp

/-! #### All turns, and mat_inv -/

/-- The turns from column c on: either all succeed, W becomes the identity and the relations stay, or one
fails, and W kills a vector that is not zero. -/
theorem gaussJordan_spec (h1 : 1 ≤ m) (hm : m ≤ 16) (n : Nat) (hk : c + n = k) (h : Reduced m k c rows) :
    (∀ rows', gaussJordan m (List.range' c n) rows = some rows' → Reduced m k k rows' ∧
      ∀ x y : Fin k → AdjoinRoot (modulus m), Related m x y rows' ↔ Related m x y rows) ∧
    (gaussJordan m (List.range' c n) rows = none →
      ∃ x : Fin k → AdjoinRoot (modulus m), (∃ j, x j = -1) ∧ Related m x 0 rows) := by
  induction n generalizing c rows with
  | zero =>
    obtain rfl : c = k := hk
    refine ⟨fun rows' hrows => ?_, nofun⟩
    obtain rfl := Option.some.inj hrows
    exact ⟨h, fun _ _ => Iff.rfl⟩
  | succ n ih =>
    have hc : c < k := by omega
    rw [List.range'_succ, gaussJordan]
    cases hturn : gaussJordanColumn m rows c with
    | none =>
      have hnone := gaussJordanColumn_eq_none hturn (h.length ▸ hc)
      exact ⟨nofun, fun _ => ⟨_, ⟨⟨c, hc⟩, if_pos rfl⟩, related_kernelVector h hc hnone⟩⟩
    | some rows₁ =>
      obtain ⟨hred, hrel⟩ := gaussJordanColumn_spec h1 hm h hc hturn
      obtain ⟨hsome, hnone⟩ := ih (by omega) hred
      refine ⟨fun rows' hrows => ?_, fun hrows => ?_⟩
      · obtain ⟨hred', hrel'⟩ := hsome rows' hrows
        exact ⟨hred', fun x y => (hrel' x y).trans (hrel x y)⟩
      · obtain ⟨x, hx, hkill⟩ := hnone hrows
        exact ⟨x, hx, (hrel x 0).1 hkill⟩

/-- Row r of the pair that mat_inv starts with. -/
theorem augRow_zip_identityMatrix {r : Nat} (ha : a.length = k) (hr : r < k) :
    augRow (a.zip (identityMatrix k)) r = (a.getD r [], identityRow k r) := by
  simp [augRow, identityMatrix, List.getD_eq_getElem?_getD, ha ▸ hr, hr]

theorem reduced_zip_identityMatrix (h1 : 1 ≤ m) (ha : IsMatrix m k k a) :
    Reduced m k 0 (a.zip (identityMatrix k)) := by
  refine ⟨by simp [ha.1], fun r hr => ?_, nofun⟩
  rw [augRow_zip_identityMatrix ha.1 hr]
  exact ⟨isRow_getD ha hr, isRow_identityRow h1 k r⟩

/-- The relations of the pair that mat_inv starts with. -/
theorem related_zip_identityMatrix (ha : IsMatrix m k k a) :
    Related m x y (a.zip (identityMatrix k)) ↔ residueMatrix m k k a *ᵥ x + y = 0 := by
  have hrow : ∀ r : Fin k, relation m x y (augRow (a.zip (identityMatrix k)) r) =
      (residueMatrix m k k a *ᵥ x + y) r := fun r => by
    rw [augRow_zip_identityMatrix ha.1 r.isLt, relation, residueRow_identityRow]
    exact congrArg (_ + ·) (congrFun (one_mulVec y) r)
  exact ⟨fun h => funext fun r => (hrow r).symm.trans (h r r.isLt),
    fun h r hr => (hrow ⟨r, hr⟩).trans (congrFun h ⟨r, hr⟩)⟩

theorem getD_map_snd {r : Nat} (hr : r < rows.length) :
    (rows.map Prod.snd).getD r [] = (augRow rows r).2 := by
  simp [augRow, List.getD_eq_getElem?_getD, hr]

/-- The relations of the pair that mat_inv ends with. -/
theorem mulVec_of_related (h : Reduced m k k rows) (hrel : Related m x y rows) :
    x + residueMatrix m k k (rows.map Prod.snd) *ᵥ y = 0 := by
  funext r
  have hleft : residueRow m k (augRow rows r).1 =
      (1 : Matrix (Fin k) (Fin k) (AdjoinRoot (modulus m))) r := by
    rw [← residueRow_identityRow]
    funext j
    rw [residueRow, residueRow, h.columns r r.isLt j j.isLt, rowElem_identityRow _ j.isLt]
  have hright : residueRow m k (augRow rows r).2 = residueMatrix m k k (rows.map Prod.snd) r := by
    rw [residueMatrix_row, getD_map_snd (h.length.symm ▸ r.isLt)]
  have hr := hrel r r.isLt
  rw [relation, hleft, hright] at hr
  exact (congrArg (· + _) (congrFun (one_mulVec x) r).symm).trans hr

/-- What mat_inv answers is a left inverse (R184). -/
theorem matInv_eq_some (h1 : 1 ≤ m) (hm : m ≤ 16) (ha : IsMatrix m k k a) (hu : matInv m a = some u) :
    IsMatrix m k k u ∧ residueMatrix m k k u * residueMatrix m k k a = 1 := by
  rw [matInv, ha.1, Option.map_eq_some_iff, List.range_eq_range'] at hu
  obtain ⟨rows, hrows, rfl⟩ := hu
  obtain ⟨hred, hrel⟩ := (gaussJordan_spec h1 hm k (Nat.zero_add k) (reduced_zip_identityMatrix h1 ha)).1
    rows hrows
  refine ⟨⟨(List.length_map _).trans hred.length, fun row hrow => ?_⟩, ext_of_mulVec_single fun i => ?_⟩
  · obtain ⟨r, hr, rfl⟩ := List.mem_iff_getElem.1 hrow
    rw [List.length_map] at hr
    rw [← List.getD_eq_getElem _ [] (by simpa using hr), getD_map_snd hr]
    exact (hred.fits r (hred.length ▸ hr)).2
  · have hstart := (hrel (Pi.single i 1) (-(residueMatrix m k k a *ᵥ Pi.single i 1))).2
      ((related_zip_identityMatrix ha).2 (add_neg_cancel _))
    have hend := mulVec_of_related hred hstart
    rw [mulVec_neg, mulVec_mulVec, ← sub_eq_add_neg, sub_eq_zero] at hend
    rw [← hend, one_mulVec]

/-- Where mat_inv reports singular, the matrix kills a vector that is not zero (R184). -/
theorem matInv_eq_none (h1 : 1 ≤ m) (hm : m ≤ 16) (ha : IsMatrix m k k a) (hu : matInv m a = none) :
    ∃ x : Fin k → AdjoinRoot (modulus m), (∃ j, x j = -1) ∧ residueMatrix m k k a *ᵥ x = 0 := by
  rw [matInv, ha.1, Option.map_eq_none_iff, List.range_eq_range'] at hu
  obtain ⟨x, hx, hkill⟩ :=
    (gaussJordan_spec h1 hm k (Nat.zero_add k) (reduced_zip_identityMatrix h1 ha)).2 hu
  exact ⟨x, hx, by simpa using (related_zip_identityMatrix ha).1 hkill⟩

/-- mat_inv inverts every invertible matrix (R184). -/
theorem exists_matInv_eq_some (h1 : 1 ≤ m) (hm : m ≤ 16) (ha : IsMatrix m k k a)
    (hunit : IsUnit (residueMatrix m k k a)) : ∃ u, matInv m a = some u := by
  refine Option.ne_none_iff_exists'.1 fun hnone => ?_
  obtain ⟨x, ⟨j, hj⟩, hkill⟩ := matInv_eq_none h1 hm ha hnone
  have hx : x = 0 := mulVec_injective_of_isUnit hunit (hkill.trans (mulVec_zero _).symm)
  refine one_ne_zero_modulo h1 hm ?_
  rw [← neg_eq_zero, ← hj, hx]
  rfl

/-- Settles O48: over a commutative ring a left inverse of a square matrix is a right inverse too, and an
invertible matrix is inverted. -/
theorem matInvInvertsOrSingular : Obligations.MatInvInvertsOrSingular := by
  intro m k a h1 hm ha
  refine ⟨fun u hu => ?_, fun hnone u hu hmul => ?_⟩
  · obtain ⟨hmat, hleft⟩ := matInv_eq_some h1 hm ha hu
    have hright := mul_eq_one_comm.1 hleft
    have hid := isMatrix_identityMatrix h1 k
    refine ⟨hmat, residueMatrix_injective h1 hm (isMatrix_matMul h1 hm ha hmat) hid ?_,
      residueMatrix_injective h1 hm (isMatrix_matMul h1 hm hmat ha) hid ?_⟩
    · rw [residueMatrix_matMul h1 hm ha hmat, hright, residueMatrix_identityMatrix]
    · rw [residueMatrix_matMul h1 hm hmat ha, hleft, residueMatrix_identityMatrix]
  · have hres := residueMatrix_matMul h1 hm ha hu
    rw [hmul, residueMatrix_identityMatrix] at hres
    obtain ⟨w, hw⟩ := exists_matInv_eq_some h1 hm ha (IsUnit.of_mul_eq_one _ hres.symm)
    rw [hnone] at hw
    cases hw

end Sys2Proof.Machine
end

section
/-! ### The generator (42_matrix_ops.md R185 to R187)

Row e of the generator is the one row whose product with the Vandermonde matrix of the first k points is the
powers of point e. So it gives the value at point e of every polynomial of degree below k from its values at
the first k points, and the properties of R186 and R187 follow. -/

namespace Sys2Proof.Machine

open Matrix Polynomial

variable {m k n : Nat} {g : List (List Elem)}

/-- The powers below k of the class of evaluation point e. -/
noncomputable def pointPowers (m k e : Nat) : Fin k → AdjoinRoot (modulus m) :=
  fun j => pointClass m e ^ (j : Nat)

/-- The Vandermonde matrix of the first k evaluation points, modulo P_m. -/
noncomputable def pointMatrix (m k : Nat) : Matrix (Fin k) (Fin k) (AdjoinRoot (modulus m)) :=
  vandermonde fun i => pointClass m i

theorem isUnit_pointMatrix (h1 : 1 ≤ m) (hm : m ≤ 16) (hk : k ≤ 2 ^ m) : IsUnit (pointMatrix m k) :=
  isUnit_vandermonde h1 hm Fin.val_injective fun i => i.isLt.trans_le hk

/-- Every row of the generator exists, and is what gives the powers of its point (R185, R186). -/
theorem genRow_spec (h1 : 1 ≤ m) (hm : m ≤ 16) (hk : k ≤ 2 ^ m) (e : Nat) :
    ∃ row, genRow m k e = some row ∧ IsRow m k row ∧
      residueRow m k row ᵥ* pointMatrix m k = pointPowers m k e := by
  have hvdm := isMatrix_vdm h1 hm k k
  have hpoints : residueMatrix m k k (vdm m k k) = pointMatrix m k := residueMatrix_vdm h1 hm k
  obtain ⟨ti, hti⟩ := exists_matInv_eq_some h1 hm hvdm (hpoints ▸ isUnit_pointMatrix h1 hm hk)
  obtain ⟨hmat, hinv⟩ := matInv_eq_some h1 hm hvdm hti
  obtain ⟨hfits, hval⟩ := rowMul_spec h1 hm (isRow_vdmRow h1 hm k e) hmat
  refine ⟨_, by simp only [genRow, hti], hfits, ?_⟩
  rw [hval, Matrix.vecMul_vecMul, ← hpoints, hinv, vecMul_one]
  exact funext (residueRow_vdmRow h1 hm e)

theorem genRow_eq_some (h1 : 1 ≤ m) (hm : m ≤ 16) (hk : k ≤ 2 ^ m) {e : Nat} {row : List Elem}
    (h : genRow m k e = some row) :
    IsRow m k row ∧ residueRow m k row ᵥ* pointMatrix m k = pointPowers m k e := by
  obtain ⟨row', hrow', hspec⟩ := genRow_spec h1 hm hk e
  obtain rfl := Option.some.inj (hrow'.symm.trans h)
  exact hspec

/-- The rows of gen, as rows of the generator (R185). -/
theorem gen_getD_spec (h1 : 1 ≤ m) (hm : m ≤ 16) (hk : k ≤ 2 ^ m) (hg : gen m k n = some g) {e : Nat}
    (he : e < n) : IsRow m k (g.getD e []) ∧
      residueRow m k (g.getD e []) ᵥ* pointMatrix m k = pointPowers m k e :=
  genRow_eq_some h1 hm hk (gen_row hg he)

/-- Settles O49: the points are distinct, so the Vandermonde matrix is invertible and mat_inv inverts it. -/
theorem generatorNeverSingular : Obligations.GeneratorNeverSingular := by
  intro m k n h1 hm _ hkn hn
  have hk := hkn.trans hn
  obtain ⟨row, hrow, -⟩ := genRow_spec h1 hm hk 0
  obtain ⟨g, hg⟩ := Option.ne_none_iff_exists'.1 fun hnone => by
    rw [(gen_eq_none_iff m k n 0).1 hnone] at hrow
    cases hrow
  refine ⟨g, hg, gen_length hg, fun row hrow => ?_⟩
  obtain ⟨e, he, rfl⟩ := List.mem_iff_getElem.1 hrow
  rw [← List.getD_eq_getElem _ [] he]
  exact (gen_getD_spec h1 hm hk hg (gen_length hg ▸ he)).1

/-- Settles O50: the identity's row e gives the powers of point e too, and only one row does. -/
theorem generatorSystematic : Obligations.GeneratorSystematic := by
  intro m k n g h1 hm _ hkn hn hg e he
  have hk := hkn.trans hn
  obtain ⟨hrow, hval⟩ := gen_getD_spec h1 hm hk hg (he.trans_le hkn)
  refine residueRow_injective h1 hm hrow (isRow_identityRow h1 k e)
    (vecMul_injective_of_isUnit (isUnit_pointMatrix h1 hm hk) (hval.trans ?_))
  rw [residueRow_identityRow m ⟨e, he⟩]
  exact (congrFun (Matrix.one_mul (pointMatrix m k)) ⟨e, he⟩).symm

/-! #### The generator extrapolates polynomials -/

/-- Row e gives the value at point e of a polynomial of degree below k from its values at the first k points
(R187). -/
theorem eval_pointClass (h1 : 1 ≤ m) (hm : m ≤ 16) (hk : k ≤ 2 ^ m) (hg : gen m k n = some g) {e : Nat}
    (he : e < n) {p : (AdjoinRoot (modulus m))[X]} (hp : p.natDegree < k) :
    p.eval (pointClass m e) =
      ∑ i : Fin k, residueRow m k (g.getD e []) i * p.eval (pointClass m i) := by
  have heval : ∀ e, p.eval (pointClass m e) = pointPowers m k e ⬝ᵥ fun j => p.coeff j := fun e => by
    rw [eval_eq_sum_range' hp, ← Fin.sum_univ_eq_sum_range fun j => p.coeff j * pointClass m e ^ j]
    exact Finset.sum_congr rfl fun j _ => mul_comm _ _
  obtain ⟨-, hval⟩ := gen_getD_spec h1 hm hk hg he
  rw [heval, ← hval, ← dotProduct_mulVec]
  exact Finset.sum_congr rfl fun i _ => congrArg _ (heval i).symm

/-- The polynomial with a root at each of the first k points but point j (R187). -/
noncomputable def basisNumerator (m k j : Nat) : (AdjoinRoot (modulus m))[X] :=
  ∏ t ∈ (Finset.range k).erase j, (X + C (pointClass m t))

theorem eval_basisNumerator (k j e : Nat) : (basisNumerator m k j).eval (pointClass m e) =
    ∏ t ∈ (Finset.range k).erase j, (pointClass m e + pointClass m t) := by
  simp [basisNumerator, eval_prod]

theorem natDegree_basisNumerator {j : Nat} (hj : j < k) : (basisNumerator m k j).natDegree < k := by
  have hle : ∀ t ∈ (Finset.range k).erase j,
      (X + C (pointClass m t) : (AdjoinRoot (modulus m))[X]).natDegree ≤ 1 := fun t _ =>
    (natDegree_add_C ..).le.trans natDegree_X_le
  have hcard : ((Finset.range k).erase j).card = k - 1 := by
    rw [Finset.card_erase_of_mem (Finset.mem_range.2 hj), Finset.card_range]
  calc (basisNumerator m k j).natDegree
      ≤ ∑ t ∈ (Finset.range k).erase j,
          (X + C (pointClass m t) : (AdjoinRoot (modulus m))[X]).natDegree := natDegree_prod_le _ _
    _ ≤ ∑ _t ∈ (Finset.range k).erase j, 1 := Finset.sum_le_sum hle
    _ = k - 1 := by rw [Finset.sum_const, hcard, smul_eq_mul, mul_one]
    _ < k := Nat.sub_lt (Nat.zero_lt_of_lt hj) one_pos

theorem eval_basisNumerator_of_ne {i j : Nat} (hi : i < k) (hij : i ≠ j) :
    (basisNumerator m k j).eval (pointClass m i) = 0 := by
  rw [eval_basisNumerator]
  refine Finset.prod_eq_zero (Finset.mem_erase.2 ⟨hij, Finset.mem_range.2 hi⟩) ?_
  rw [pointClass, ← residue_gfAdd, gfAdd_self]
  exact residue_zero

/-- The loop of a product multiplies what it starts with by the classes of the factors. -/
theorem residue_foldl_gfMul (h1 : 1 ≤ m) (hm : m ≤ 16) {f : Nat → Elem} (hf : ∀ t, IsElem m (f t))
    (l : List Nat) {acc : Elem} (hacc : IsElem m acc) :
    IsElem m (l.foldl (fun acc t => gfMul m acc (f t)) acc) ∧
      residue m (l.foldl (fun acc t => gfMul m acc (f t)) acc) =
        residue m acc * (l.map fun t => residue m (f t)).prod := by
  induction l generalizing acc with
  | nil => exact ⟨hacc, by simp⟩
  | cons t l ih =>
    obtain ⟨helem, hval⟩ := ih (gfMul_lt hm acc (f t))
    refine ⟨helem, hval.trans ?_⟩
    rw [residue_gfMul h1 hm hacc (hf t), List.map_cons, List.prod_cons, mul_assoc]

/-- The product of the points' differences is the value of that polynomial. -/
theorem residue_productExcept (h1 : 1 ≤ m) (hm : m ≤ 16) (k j e : Nat) :
    IsElem m (productExcept m k j fun t => gfAdd (point m e) (point m t)) ∧
      residue m (productExcept m k j fun t => gfAdd (point m e) (point m t)) =
        (basisNumerator m k j).eval (pointClass m e) := by
  obtain ⟨helem, hval⟩ := residue_foldl_gfMul h1 hm
    (fun t => gfAdd_lt (point_lt h1 hm e) (point_lt h1 hm t)) ((List.range k).filter fun t => t != j)
    (isElem_one h1)
  refine ⟨helem, hval.trans ?_⟩
  have hset : ((List.range k).filter fun t => t != j).toFinset = (Finset.range k).erase j := by
    ext t
    simp [and_comm]
  rw [eval_basisNumerator, ← hset, List.prod_toFinset _ (List.nodup_range.filter _)]
  simp only [residue_gfAdd]
  exact (congrArg (· * _) residue_one).trans (one_mul _)

/-- Settles O51: row e gives the polynomial with the roots t ≠ j from its values at the first k points, of
which only the one at point j is not zero. -/
theorem generatorIsLagrange : Obligations.GeneratorIsLagrange := by
  intro m k n g h1 hm _ hkn hn hg e he j hj
  have hk := hkn.trans hn
  obtain ⟨hrow, -⟩ := gen_getD_spec h1 hm hk hg he
  obtain ⟨hje, hjval⟩ := residue_productExcept h1 hm k j j
  obtain ⟨hee, heval⟩ := residue_productExcept h1 hm k j e
  refine residue_injective h1 hm (gfMul_lt hm _ _) hee ?_
  rw [residue_gfMul h1 hm (isElem_of_isRow hrow j) hje, hjval, heval,
    eval_pointClass h1 hm hk hg he (natDegree_basisNumerator hj)]
  have hother : ∀ i : Fin k, i ≠ ⟨j, hj⟩ →
      residueRow m k (g.getD e []) i * (basisNumerator m k j).eval (pointClass m i) = 0 := fun i hij => by
    rw [eval_basisNumerator_of_ne i.isLt fun h => hij (Fin.ext h), mul_zero]
  rw [Fintype.sum_eq_single _ hother]
  rfl

/-! #### Independence of the rows -/

/-- Settles O52: the rows times the Vandermonde matrix of the first k points are the Vandermonde matrix of the
points chosen. -/
theorem anyRowsOfGeneratorIndependent : Obligations.AnyRowsOfGeneratorIndependent := by
  intro m k n g es h1 hm _ hkn hn hg hlen hnodup hes
  have hk := hkn.trans hn
  have hrow : ∀ e ∈ es, IsRow m k (g.getD e []) := fun e he => (gen_getD_spec h1 hm hk hg (hes e he)).1
  have hmat : IsMatrix m k k (es.map fun e => g.getD e []) := by
    refine ⟨(List.length_map _).trans hlen, fun row hr => ?_⟩
    obtain ⟨e, he, rfl⟩ := List.mem_map.1 hr
    exact hrow e he
  subst hlen
  have hprod : residueMatrix m es.length es.length (es.map fun e => g.getD e []) * pointMatrix m es.length =
      vandermonde fun i => pointClass m (es.get i) := by
    funext i
    have hget : (es.map fun e => g.getD e []).getD i [] = g.getD (es.get i) [] := by
      simp [List.getD_eq_getElem?_getD]
    rw [mul_apply_eq_vecMul, residueMatrix_row, hget]
    exact (gen_getD_spec h1 hm hk hg (hes _ (es.get_mem i))).2
  obtain ⟨unit, hunit⟩ := isUnit_pointMatrix h1 hm hk
  refine exists_matInv_eq_some h1 hm hmat ((Units.isUnit_mul_units _ unit).1 ?_)
  rw [hunit, hprod]
  exact isUnit_vandermonde h1 hm (List.nodup_iff_injective_get.1 hnodup) fun i =>
    (hes _ (es.get_mem i)).trans_le hn

end Sys2Proof.Machine
end

section
/-! ### The generator in a session (42_matrix_ops.md R189; 60_exceptions.md R285)

The parameters of a session are admissible, so its generator exists: no command meets the internal fault. -/

namespace Sys2Proof.Machine

variable {s t : State}

/-- GGET with its operands in range reads the one row of the generator (R189; log 8). -/
theorem exec_gget {esi col : Nat} {row : List Elem} (hi : s.state ≠ .idle) (hf : s.state ≠ .faulted)
    (hesi : esi < nOf s) (hcol : col < kOf s) (hrow : genRow (mOf s) (kOf s) esi = some row) :
    exec (.gget esi col) s = .next ((s.setRes (resOfElem (rowElem row col))).setStatus .ok) := by
  change guarded (sessionCheck anySession s) s _ = _
  rw [guarded_of_passed (sessionCheck_anySession hi hf), if_pos hesi, if_pos hcol, hrow]
  rfl

/-- Settles O40: the row that GGET computes is that of the whole matrix. -/
theorem ggetReadsGeneratorEntry : Obligations.GgetReadsGeneratorEntry :=
  fun _ _ _ _ hi hf hesi hcol hg => exec_gget hi hf hesi hcol (gen_row hg hesi)

/-! #### The internal fault -/

/-- In a session there are evaluation points for all N symbols (R212). -/
theorem runInv_le_points (h : RunInv s) (hs : s.state ≠ .idle) :
    nOf s ≤ 2 ^ mOf s ∧ kOf s ≤ 2 ^ mOf s := by
  obtain ⟨-, -, hkn, -, hn, -⟩ := runInv_paramsAccepted h hs
  exact ⟨hn, hkn.trans hn⟩

/-- In a session every row of the generator exists (R186). -/
theorem runInv_genRow (h : RunInv s) (hs : s.state ≠ .idle) (e : Nat) :
    genRow (mOf s) (kOf s) e ≠ none := by
  obtain ⟨h1, hm⟩ := runInv_field h hs
  obtain ⟨row, hrow, -⟩ := genRow_spec h1 hm (runInv_le_points h hs).2 e
  rw [hrow]
  nofun

theorem execEncode_ne_faulted (h : RunInv s) (hf : s.state ≠ .faulted) (ht : execEncode s = .next t) :
    t.state ≠ .faulted := by
  rcases execEncode_next ht with
    ⟨o, -, rfl⟩ | ⟨-, rfl⟩ | ⟨-, -, rfl⟩ | ⟨hs, -, hnone, -⟩ | ⟨-, -, g, -, rfl⟩
  · exact hf
  · exact hf
  · exact hf
  · exact absurd ((gen_eq_none_iff _ _ _ 0).1 hnone) (runInv_genRow h (by simp [hs]) 0)
  · nofun

theorem execGget_ne_faulted {esi col : Nat} (h : RunInv s) (hf : s.state ≠ .faulted)
    (ht : execGget esi col s = .next t) : t.state ≠ .faulted := by
  rcases execGget_next ht with ⟨o, -, rfl⟩ |
    ⟨hc, ⟨-, rfl⟩ | ⟨-, -, rfl⟩ | ⟨-, -, hnone, -⟩ | ⟨-, -, row, -, rfl⟩⟩
  · exact hf
  · exact hf
  · exact hf
  · exact absurd hnone (runInv_genRow h (ne_idle_of_sessionCheck hc) esi)
  · exact hf

theorem execAccept_ne_faulted {esi : Nat} (h : RunInv s) (hf : s.state ≠ .faulted)
    (ht : execAccept esi s = .next t) : t.state ≠ .faulted := by
  rcases execAccept_next ht with
    ⟨o, -, rfl⟩ | ⟨-, -, rfl⟩ | ⟨-, -, rfl⟩ | ⟨-, -, -, rfl⟩ | ⟨hs, -, -, hnew⟩
  · exact hf
  · exact hf
  · exact hf
  · exact hf
  · rcases acceptNew_next hnew with ⟨hnone, -⟩ | ⟨row, u, -, hu, hout⟩
    · exact absurd hnone (runInv_genRow h (by simp [hs]) esi)
    · rcases (accept_frame hu hout).1 with hdone | hsame
      · rw [hdone]
        nofun
      · rwa [hsame]

/-- No command enters FAULTED: the three that could compute the generator, which exists. -/
theorem exec_ne_faulted {i : Instr} (h : RunInv s) (hf : s.state ≠ .faulted) (hi : exec i s = .next t) :
    t.state ≠ .faulted := by
  cases exec_effect hi with
  | status i o _ => exact hf
  | result i v _ => exact hf
  | output i bs _ _ _ => exact hf
  | accumulate i bs _ _ _ => exact hf
  | fault i hcmd =>
    rcases hcmd with ⟨rfl, -⟩ | ⟨⟨esi, col, rfl⟩, -⟩
    · exact execEncode_ne_faulted h hf hi
    · exact execGget_ne_faulted h hf hi
  | reset => nofun
  | openEnc m k n z _ _ => nofun
  | openDec m k n z _ _ => nofun
  | load slot _ _ => exact hf
  | encode g _ _ => nofun
  | acceptFault esi _ _ => exact execAccept_ne_faulted h hf hi
  | accept esi row u t _ _ _ _ _ _ => exact execAccept_ne_faulted h hf hi

/-- Settles O57: only a command can enter FAULTED, and none does. -/
theorem faultedNeverEntered : Obligations.FaultedNeverEntered := fun _ _ hs hf h =>
  (step_keeps (I := fun s => RunInv s ∧ s.state ≠ .faulted) (fun _ _ h => h) (fun _ _ h => h)
    (fun _ _ h => h) (fun _ _ v h ho => ⟨runInv_write h.1 v ho, h.2⟩)
    (fun _ _ _ h hi => ⟨exec_runInv h.1 hi, exec_ne_faulted h.1 h.2 hi⟩) ⟨hs, hf⟩ h).2

end Sys2Proof.Machine
end

section
/-! ### Combinations of generator rows (42_matrix_ops.md R186; 44_session_decode.md R244, R253)

A row is spanned by a set of ESIs when it is a combination of their generator rows. At most k such rows are
independent, so the row of a further ESI is spanned by fewer than k others never. -/

namespace Sys2Proof.Machine

open Matrix

variable {m k : Nat} {es : List Nat} {c row row' : Nat → Elem} {f : Elem}

/-- Row e of the generator, element by element, as `combination` reads it. -/
def generatorRow (m k e : Nat) : Nat → Elem := rowElem ((genRow m k e).getD [])

theorem isElem_generatorRow (hm : m ≤ 16) (e j : Nat) : IsElem m (generatorRow m k e j) := by
  rw [generatorRow]
  cases hrow : genRow m k e with
  | none => exact isElem_zero m
  | some row => exact isElem_rowElem (rowFits_genRow hm hrow) j

/-- The classes of the generator rows of a list of ESIs. -/
noncomputable def generatorMatrix (m k : Nat) (es : List Nat) :
    Matrix (Fin es.length) (Fin k) (AdjoinRoot (modulus m)) :=
  .of fun i j => residue m (generatorRow m k (es.get i) j)

theorem generatorMatrix_mul_pointMatrix (h1 : 1 ≤ m) (hm : m ≤ 16) (hk : k ≤ 2 ^ m) :
    generatorMatrix m k es * pointMatrix m k = .of fun i => pointPowers m k (es.get i) := by
  funext i
  obtain ⟨row, hrow, -, hval⟩ := genRow_spec h1 hm hk (es.get i)
  have hget : generatorMatrix m k es i = residueRow m k row := by
    funext j
    simp only [generatorMatrix, of_apply, generatorRow, hrow, Option.getD_some, residueRow]
  rw [mul_apply_eq_vecMul, hget, hval]
  rfl

/-- At most k rows of the generator are independent (R186, property 3). -/
theorem generatorRows_independent (h1 : 1 ≤ m) (hm : m ≤ 16) (hk : k ≤ 2 ^ m) (hlen : es.length ≤ k)
    (hnodup : es.Nodup) (hes : ∀ e ∈ es, e < 2 ^ m) {x : Fin es.length → AdjoinRoot (modulus m)}
    (hx : x ᵥ* generatorMatrix m k es = 0) : x = 0 := by
  have hpowers : x ᵥ* .of (fun i => pointPowers m k (es.get i)) = 0 := by
    rw [← generatorMatrix_mul_pointMatrix h1 hm hk, ← Matrix.vecMul_vecMul, hx, zero_vecMul]
  have hsquare : x ᵥ* vandermonde (fun i => pointClass m (es.get i)) = 0 :=
    funext fun j => congrFun hpowers (Fin.castLE hlen j)
  exact vecMul_injective_of_isUnit (isUnit_vandermonde h1 hm (List.nodup_iff_injective_get.1 hnodup)
    fun i => hes _ (es.get_mem i)) (hsquare.trans (zero_vecMul _).symm)

/-! #### The classes of a combination -/

/-- The loop of a sum adds to what it starts with the classes of the terms. -/
theorem residue_foldl_gfAdd {g : Nat → Elem} (hg : ∀ e, IsElem m (g e)) (l : List Nat) {acc : Elem}
    (hacc : IsElem m acc) :
    IsElem m (l.foldl (fun acc e => gfAdd acc (g e)) acc) ∧
      residue m (l.foldl (fun acc e => gfAdd acc (g e)) acc) =
        residue m acc + (l.map fun e => residue m (g e)).sum := by
  induction l generalizing acc with
  | nil => exact ⟨hacc, by simp⟩
  | cons e l ih =>
    obtain ⟨helem, hval⟩ := ih (gfAdd_lt hacc (hg e))
    refine ⟨helem, hval.trans ?_⟩
    rw [residue_gfAdd, List.map_cons, List.sum_cons, add_assoc]

/-- A combination of generator rows, modulo P_m. -/
theorem residue_combination (h1 : 1 ≤ m) (hm : m ≤ 16) (hc : ∀ e, IsElem m (c e)) (es : List Nat)
    (j : Nat) :
    IsElem m (combination m k es c j) ∧ residue m (combination m k es c j) =
      (es.map fun e => residue m (c e) * residue m (generatorRow m k e j)).sum := by
  obtain ⟨helem, hval⟩ := residue_foldl_gfAdd (g := fun e => gfMul m (c e) (generatorRow m k e j))
    (fun e => gfMul_lt hm _ _) es (isElem_zero m)
  refine ⟨helem, hval.trans ?_⟩
  simp only [residue_gfMul h1 hm (hc _) (isElem_generatorRow hm _ j)]
  exact (congrArg (· + _) residue_zero).trans (zero_add _)

theorem indexInsert_perm {l : List Nat} {i : Nat} (hi : i ∉ l) : (indexInsert l i).Perm (i :: l) := by
  induction l with
  | nil => exact .refl _
  | cons j l ih =>
    simp only [List.mem_cons, not_or] at hi
    simp only [indexInsert]
    split
    · exact .refl _
    · rw [if_neg hi.1]
      exact ((ih hi.2).cons j).trans (.swap i j l)

/-! #### Spanned rows -/

/-- The first k elements of a row are a combination of the generator rows of the ESIs. -/
def Spanned (m k : Nat) (es : List Nat) (row : Nat → Elem) : Prop :=
  ∃ c : Nat → Elem, (∀ e, IsElem m (c e)) ∧ ∀ j < k, row j = combination m k es c j

theorem spanned_congr (h : Spanned m k es row) (heq : ∀ j < k, row' j = row j) : Spanned m k es row' := by
  obtain ⟨c, hc, hrow⟩ := h
  exact ⟨c, hc, fun j hj => (heq j hj).trans (hrow j hj)⟩

/-- A row of m-bit values is spanned where its classes are a combination of those of the generator rows. -/
theorem spanned_iff (h1 : 1 ≤ m) (hm : m ≤ 16) : Spanned m k es row ↔
    ∃ c : Nat → Elem, (∀ e, IsElem m (c e)) ∧ ∀ j < k, IsElem m (row j) ∧
      residue m (row j) = (es.map fun e => residue m (c e) * residue m (generatorRow m k e j)).sum := by
  refine exists_congr fun c => and_congr_right fun hc => forall₂_congr fun j _ => ?_
  obtain ⟨helem, hval⟩ := residue_combination (k := k) h1 hm hc es j
  rw [← hval]
  constructor
  · intro h
    rw [h]
    exact ⟨helem, rfl⟩
  · rintro ⟨hrow, h⟩
    exact residue_injective h1 hm hrow helem h

theorem spanned_zero (h1 : 1 ≤ m) (hm : m ≤ 16) (k : Nat) (es : List Nat) :
    Spanned m k es fun _ => 0 := by
  have hzero : residue m (0 : Elem) = 0 := residue_zero
  refine (spanned_iff h1 hm).2 ⟨fun _ => 0, fun _ => isElem_zero m, fun j _ => ⟨isElem_zero m, ?_⟩⟩
  simp only [hzero, zero_mul, List.map_const', List.sum_replicate, smul_zero]

/-- Spanned rows are closed under adding a multiple. -/
theorem spanned_gfAdd_gfMul (h1 : 1 ≤ m) (hm : m ≤ 16) (hf : IsElem m f) (h : Spanned m k es row)
    (h' : Spanned m k es row') : Spanned m k es fun j => gfAdd (row j) (gfMul m f (row' j)) := by
  obtain ⟨c, hc, hrow⟩ := (spanned_iff h1 hm).1 h
  obtain ⟨c', hc', hrow'⟩ := (spanned_iff h1 hm).1 h'
  refine (spanned_iff h1 hm).2 ⟨fun e => gfAdd (c e) (gfMul m f (c' e)),
    fun e => gfAdd_lt (hc e) (gfMul_lt hm _ _), fun j hj => ?_⟩
  obtain ⟨helem, hval⟩ := hrow j hj
  obtain ⟨helem', hval'⟩ := hrow' j hj
  refine ⟨gfAdd_lt helem (gfMul_lt hm _ _), ?_⟩
  simp only [residue_gfAdd, residue_gfMul h1 hm hf helem', residue_gfMul h1 hm hf (hc' _), hval, hval',
    ← List.sum_map_mul_left, ← List.sum_map_add, add_mul, mul_assoc]

/-- A further ESI brings in any multiple of its row. -/
theorem spanned_indexInsert {i : Nat} (h1 : 1 ≤ m) (hm : m ≤ 16) (hf : IsElem m f) (hi : i ∉ es)
    (h : Spanned m k es row) :
    Spanned m k (indexInsert es i) fun j => gfAdd (row j) (gfMul m f (generatorRow m k i j)) := by
  obtain ⟨c, hc, hrow⟩ := (spanned_iff h1 hm).1 h
  refine (spanned_iff h1 hm).2 ⟨Function.update c i f,
    (Function.forall_update_iff c fun _ x => IsElem m x).2 ⟨hf, fun e _ => hc e⟩, fun j hj => ?_⟩
  · obtain ⟨helem, hval⟩ := hrow j hj
    refine ⟨gfAdd_lt helem (gfMul_lt hm _ _), ?_⟩
    have hsum : es.map (fun e => residue m (Function.update c i f e) * residue m (generatorRow m k e j)) =
        es.map fun e => residue m (c e) * residue m (generatorRow m k e j) :=
      List.map_congr_left fun e he => by rw [Function.update_of_ne (ne_of_mem_of_not_mem he hi)]
    rw [((indexInsert_perm hi).map _).sum_eq, List.map_cons, List.sum_cons, Function.update_self, hsum,
      residue_gfAdd, residue_gfMul h1 hm hf (isElem_generatorRow hm i j), hval, add_comm]

theorem spanned_indexInsert_of_spanned {i : Nat} (h1 : 1 ≤ m) (hm : m ≤ 16) (hi : i ∉ es)
    (h : Spanned m k es row) : Spanned m k (indexInsert es i) row :=
  spanned_congr (spanned_indexInsert h1 hm (isElem_zero m) hi h) fun j _ => by
    rw [zero_gfMul, gfAdd_zero]

/-- Fewer than k other ESIs do not span the row of an ESI. -/
theorem not_spanned_generatorRow {i : Nat} (h1 : 1 ≤ m) (hm : m ≤ 16) (hk : k ≤ 2 ^ m)
    (hlen : es.length < k) (hnodup : (i :: es).Nodup) (hlt : ∀ e ∈ i :: es, e < 2 ^ m) :
    ¬Spanned m k es (generatorRow m k i) := by
  intro h
  obtain ⟨c, -, hrow⟩ := (spanned_iff h1 hm).1 h
  have hkill : (Fin.cons 1 fun a => residue m (c (es.get a)) : Fin (es.length + 1) → _) ᵥ*
      generatorMatrix m k (i :: es) = 0 := by
    funext j
    obtain ⟨-, hval⟩ := hrow j j.isLt
    rw [← Fin.sum_univ_fun_getElem] at hval
    have hsum := Fin.sum_univ_succ fun a : Fin (es.length + 1) =>
      (Fin.cons 1 fun a => residue m (c (es.get a)) : Fin (es.length + 1) → AdjoinRoot (modulus m)) a *
        residue m (generatorRow m k ((i :: es).get a) j)
    refine hsum.trans ?_
    simp only [Fin.cons_zero, Fin.cons_succ, one_mul, List.get_cons_zero, List.get_cons_succ']
    refine (congrArg (_ + ·) hval.symm).trans ?_
    rw [← residue_gfAdd, gfAdd_self]
    exact residue_zero
  have hzero := generatorRows_independent h1 hm hk (es := i :: es) hlen hnodup hlt hkill
  exact one_ne_zero_modulo h1 hm (congrFun hzero 0)

end Sys2Proof.Machine
end

section
/-! ### Every new symbol raises the rank (44_session_decode.md R243, R244, R253) -/

namespace Sys2Proof.Machine

variable {s t u : State} {es : List Nat}

/-- What SpanInv says of a decode session: as many stored rows as ESIs seen, each a combination of the
generator rows of these. -/
def RowsSpanned (s : State) : Prop :=
  s.piv.length = s.seen.length ∧ ∀ p ∈ s.piv, Spanned (mOf s) (kOf s) s.seen (matrixGet s.d p)

theorem spanInv_iff : SpanInv s ↔ (s.state = .decAcc ∨ s.state = .decDone → RowsSpanned s) := Iff.rfl

theorem spanInv_of_state (h : s.state ≠ .decAcc) (h' : s.state ≠ .decDone) : SpanInv s :=
  fun hs => absurd hs (not_or.2 ⟨h, h'⟩)

/-- Step a changes a row by a combination of the stored rows (R243). -/
theorem spanned_reduceEquation (h1 : 1 ≤ mOf s) (hm : mOf s ≤ 16) {e : Equation}
    (he : IsRow (mOf s) (kOf s) e.1)
    (hrows : ∀ p ∈ s.piv, Spanned (mOf s) (kOf s) es (matrixGet s.d p)) :
    Spanned (mOf s) (kOf s) es fun j => gfAdd (rowElem e.1 j) (rowElem (reduceEquation s e).1 j) := by
  suffices hfold : ∀ n, IsRow (mOf s) (kOf s) ((List.range n).foldl (reduceBy s) e).1 ∧
      Spanned (mOf s) (kOf s) es fun j =>
        gfAdd (rowElem e.1 j) (rowElem ((List.range n).foldl (reduceBy s) e).1 j) from
    (hfold (kOf s)).2
  intro n
  induction n with
  | zero => exact ⟨he, spanned_congr (spanned_zero h1 hm _ _) fun j _ => gfAdd_self _⟩
  | succ n ih =>
    rw [List.range_succ, List.foldl_append]
    generalize (List.range n).foldl (reduceBy s) e = r at ih
    obtain ⟨hr, hspan⟩ := ih
    have hfits := rowFits_of_isRow hr
    have hr' : IsRow (mOf s) (kOf s) (reduceBy s r n).1 :=
      ⟨(length_reduceBy hfits n).trans hr.1, (rowFits_reduceBy hm hfits n).2⟩
    refine ⟨hr', ?_⟩
    change Spanned _ _ es fun j => gfAdd (rowElem e.1 j) (rowElem (reduceBy s r n).1 j)
    by_cases hn : n ∈ s.piv
    · refine spanned_congr (spanned_gfAdd_gfMul h1 hm (isElem_of_isRow hr n) hspan (hrows n hn))
        fun j hj => ?_
      rw [rowElem_reduceBy hfits hn (hr.1.symm ▸ hj), gfAdd_assoc]
    · rwa [reduceBy, if_neg fun hh => hn hh.1]

/-- Storing a spanned row at a new column keeps every stored row spanned (R243, steps d and e). -/
theorem rowsSpanned_insertEquation (h : RunInv s) (hs : s.state = .decAcc) (hech : Echelon s) {q : Nat}
    {r : Equation} (hr : RowFits (kOf s) (mOf s) r.1) (hq : q < kOf s) (hnew : q ∉ s.piv)
    (hrows : ∀ p ∈ s.piv, Spanned (mOf s) (kOf s) s.seen (matrixGet s.d p))
    (hrow : Spanned (mOf s) (kOf s) s.seen (rowElem r.1)) (hlen : s.piv.length + 1 = s.seen.length) :
    RowsSpanned (insertEquation q r s) := by
  obtain ⟨h1, hm⟩ := runInv_field h (by simp [hs])
  have helim := elimInside_of_runInv h hs
  obtain ⟨hnewrow, holdrow⟩ := rows_insertEquation helim hm hr hq (runInv_piv_lt h) hech.1 hnew
  have hall : ∀ p ∈ indexInsert s.piv q,
      Spanned (mOf s) (kOf s) s.seen (matrixGet (insertEquation q r s).d p) := fun p hp => by
    rcases mem_indexInsert.1 hp with rfl | hp
    · exact spanned_congr hrow fun j _ => hnewrow j
    · exact spanned_congr (spanned_gfAdd_gfMul h1 hm (isElem_matrixGet helim.rows p q) (hrows p hp) hrow)
        fun j _ => holdrow p hp j
  rw [insertEquation_frame]
  exact ⟨(length_indexInsert hnew).trans hlen, hall⟩

/-- Strictly rising lists hold no index twice. -/
theorem nodup_of_indexSetWf {l : List Nat} (h : indexSetWf l = true) : l.Nodup :=
  (of_decide_eq_true h).imp fun hab => hab.ne

theorem runInv_seen (h : RunInv s) : s.seen.Nodup ∧ ∀ e ∈ s.seen, e < nOf s := by
  obtain ⟨-, ⟨-, -, -, -, -, -, hwf⟩, ⟨-, -, -, -, -, -, hin⟩, -⟩ := h
  exact ⟨nodup_of_indexSetWf hwf, hin⟩

/-- The elimination step stores a row that the stored rows do not give: at a new column, a multiple of the row
plus a combination of them. -/
theorem decInsert_of_not_spanned (h : RunInv s) (hs : s.state = .decAcc) (hech : Echelon s) {e : Equation}
    (he : IsRow (mOf s) (kOf s) e.1)
    (hrows : ∀ p ∈ s.piv, Spanned (mOf s) (kOf s) es (matrixGet s.d p))
    (hnot : ¬Spanned (mOf s) (kOf s) es (rowElem e.1)) (hu : decInsert e s = some u) :
    ∃ q r, u = insertEquation q r s ∧ RowFits (kOf s) (mOf s) r.1 ∧ q < kOf s ∧ q ∉ s.piv ∧
      ∃ v w, IsElem (mOf s) v ∧ Spanned (mOf s) (kOf s) es w ∧
        ∀ j, rowElem r.1 j = gfMul (mOf s) v (gfAdd (w j) (rowElem e.1 j)) := by
  obtain ⟨h1, hm⟩ := runInv_field h (by simp [hs])
  have hchange := spanned_reduceEquation h1 hm he hrows
  obtain ⟨hfits, hclear⟩ := reduceEquation_spec h1 hm (rowFits_of_isRow he)
  rcases decInsert_some hu with ⟨hnone, -⟩ | ⟨q, v, hq, hv, rfl⟩
  · refine absurd (spanned_congr hchange fun j _ => ?_) hnot
    rw [leadingColumn_none hnone, gfAdd_zero]
  · obtain ⟨hqlen, hlead, -⟩ := leadingColumn_some hq
    refine ⟨q, _, rfl, rowFits_vecMul hm hfits v, hqlen.trans_le hfits.1,
      fun hmem => hlead (hclear hech q hmem (runInv_piv_lt h q hmem)), v, _, gfInv_lt h1 hm hv, hchange,
      fun j => ?_⟩
    rw [rowElem_vecMul, gfAdd_comm, ← gfAdd_assoc, gfAdd_self, zero_gfAdd]

/-- In a decode session the row of a new ESI is not a combination of the fewer than K rows seen (R253). -/
theorem not_spanned_new (h : RunInv s) (hdec : DecodeInv s) (hspan : RowsSpanned s) (hs : s.state = .decAcc)
    {esi : Nat} (hesi : esi < nOf s) (hnew : esi ∉ s.seen) :
    ¬Spanned (mOf s) (kOf s) s.seen (generatorRow (mOf s) (kOf s) esi) := by
  obtain ⟨-, -, -, hlt, -⟩ := hdec (.inl hs)
  obtain ⟨h1, hm⟩ := runInv_field h (by simp [hs])
  obtain ⟨hn, hk⟩ := runInv_le_points h (by simp [hs])
  obtain ⟨hnodup, hseen⟩ := runInv_seen h
  refine not_spanned_generatorRow h1 hm hk (hspan.1 ▸ hlt hs) (List.nodup_cons.2 ⟨hnew, hnodup⟩)
    fun e he => ?_
  rcases List.mem_cons.1 he with rfl | he
  · exact hesi.trans_le hn
  · exact (hseen e he).trans_le hn

/-- The elimination step of a new ESI stores one more row, and all of them are combinations of the rows seen
(R243, R253). -/
theorem rowsSpanned_decInsert (h : RunInv s) (hdec : DecodeInv s) (hspan : RowsSpanned s)
    (hs : s.state = .decAcc) {esi : Nat} (hesi : esi < nOf s) (hnew : esi ∉ s.seen) {row : List Elem}
    (hrow : genRow (mOf s) (kOf s) esi = some row) {data : List Elem}
    (hu : decInsert (row, data) (s.setSeen (indexInsert s.seen esi)) = some u) : RowsSpanned u := by
  have hnot := not_spanned_new h hdec hspan hs hesi hnew
  obtain ⟨hech, -⟩ := hdec (.inl hs)
  obtain ⟨hcount, hrows⟩ := hspan
  obtain ⟨h1, hm⟩ := runInv_field h (by simp [hs])
  obtain ⟨hisrow, -⟩ := genRow_eq_some h1 hm (runInv_le_points h (by simp [hs])).2 hrow
  have hgen : generatorRow (mOf s) (kOf s) esi = rowElem row := by rw [generatorRow, hrow, Option.getD_some]
  have hseen := runInv_setSeen h hs hesi
  obtain ⟨q, r, rfl, hr, hq, hqnew, v, w, hv, hw, hrw⟩ :=
    decInsert_of_not_spanned (es := s.seen) (e := (row, data)) hseen hs hech hisrow hrows (hgen ▸ hnot) hu
  have hold : ∀ p ∈ s.piv, Spanned (mOf s) (kOf s) (indexInsert s.seen esi) (matrixGet s.d p) :=
    fun p hp => spanned_indexInsert_of_spanned h1 hm hnew (hrows p hp)
  have hstored : Spanned (mOf s) (kOf s) (indexInsert s.seen esi) (rowElem r.1) := by
    refine spanned_congr (spanned_gfAdd_gfMul h1 hm hv (spanned_zero h1 hm _ _)
      (spanned_indexInsert h1 hm (isElem_one h1) hnew hw)) fun j _ => (hrw j).trans ?_
    rw [zero_gfAdd, one_gfMul h1 hm (isElem_generatorRow hm esi j), hgen]
    rfl
  have hlen : s.piv.length + 1 = (indexInsert s.seen esi).length := by
    rw [hcount, length_indexInsert hnew]
  exact rowsSpanned_insertEquation hseen hs hech hr hq hqnew hold hstored hlen

/-- Every command keeps the rows spanned. -/
theorem exec_spanInv {i : Instr} (h : RunInv s) (hdec : DecodeInv s) (hspan : SpanInv s)
    (hi : exec i s = .next t) : SpanInv t := by
  cases exec_effect hi with
  | status i o _ => exact hspan
  | result i v _ => exact hspan
  | output i bs _ _ _ => exact hspan
  | accumulate i bs _ _ _ => exact hspan
  | fault i _ => exact spanInv_of_state nofun nofun
  | reset => exact spanInv_of_state nofun nofun
  | openEnc m k n z _ _ => exact spanInv_of_state nofun nofun
  | openDec m k n z _ _ => exact fun _ => ⟨rfl, nofun⟩
  | load slot hs _ => exact spanInv_of_state (by simp [storeSlot, hs]) (by simp [storeSlot, hs])
  | encode g _ _ => exact spanInv_of_state nofun nofun
  | acceptFault esi _ _ => exact spanInv_of_state nofun nofun
  | accept esi row u t hs hn hnew hrow hu ht =>
    have hrows := rowsSpanned_decInsert h hdec (hspan (.inl hs)) hs hn hnew hrow hu
    rcases acceptOutcome_next ht with ⟨-, rfl⟩ | ⟨-, rfl⟩
    · exact fun _ => hrows
    · exact fun _ => hrows

/-- Settles O56: INIT_DEC starts with nothing seen, and ACCEPT of a new ESI counts it and stores one more row.
-/
theorem everyNewSymbolRaisesRank : Obligations.EveryNewSymbolRaisesRank := fun _ _ hs hdec hspan h =>
  (step_keeps (I := fun s => RunInv s ∧ DecodeInv s ∧ SpanInv s) (fun _ _ h => h) (fun _ _ h => h)
    (fun _ _ h => h) (fun _ _ v h ho => ⟨runInv_write h.1 v ho, h.2⟩)
    (fun _ _ _ ⟨h, hdec, hspan⟩ hi => ⟨exec_runInv h hi, exec_decodeInv h hdec hi,
      exec_spanInv h hdec hspan hi⟩) ⟨hs, hdec, hspan⟩ h).2.2

end Sys2Proof.Machine
end

section
/-! ### Control and the encode session (43_session_encode.md R210 to R217; 44_session_decode.md R240, R249) -/

namespace Sys2Proof.Machine

variable {s : State} {m k n z slot esi j : Nat}

/-- A state in which a session command is permitted passes its check (R282). -/
theorem sessionCheck_of_state {l : List SessionState} {st : SessionState} (hs : s.state = st)
    (hl : st ≠ .faulted ∧ st ≠ .idle ∧ st ∈ l) : sessionCheck l s = none := by
  subst hs
  exact sessionCheck_eq_none.2 hl

theorem exec_nop (hf : s.state ≠ .faulted) : exec .nop s = .next (s.setStatus .ok) :=
  guarded_of_passed (faultCheck_eq_none.2 hf)

theorem exec_initEnc (hs : s.state = .idle) (hacc : ParamsAccepted s.inst m k n z) :
    exec (.initEnc m k n z) s = .next
      (((((s.setSession m k n z).setSym []).setSrcset []).setState .encLoad).setStatus .ok) :=
  guarded_ite_of_passed (idleCheck_eq_none.2 hs) (validParams_iff.2 hacc)

theorem exec_initDec (hs : s.state = .idle) (hacc : ParamsAccepted s.inst m k n z) :
    exec (.initDec m k n z) s = .next
      ((((((s.setSession m k n z).setSym []).setElim [] [] 0).setSeen []).setState .decAcc).setStatus
        .ok) :=
  guarded_ite_of_passed (idleCheck_eq_none.2 hs) (validParams_iff.2 hacc)

theorem exec_put (hs : s.state = .encLoad) (hslot : slot < kOf s) :
    exec (.put slot) s =
      .next (((storeSlot slot s).setSrcset (indexInsert s.srcset slot)).setStatus .ok) :=
  guarded_ite_of_passed (sessionCheck_of_state hs (by decide)) hslot

theorem exec_get (hs : s.state = .encReady) (hesi : esi < nOf s) :
    exec (.get esi) s = .next ((outputSlot esi s).setStatus .ok) :=
  guarded_ite_of_passed (sessionCheck_of_state hs (by decide)) hesi

theorem exec_getsrc (hs : s.state = .decDone) (hj : j < kOf s) :
    exec (.getsrc j) s = .next ((outputSlot j s).setStatus .ok) :=
  guarded_ite_of_passed (sessionCheck_of_state hs (by decide)) hj

/-- Settles O23: outside FAULTED the check passes, and the body is empty. -/
theorem nopCompletes : Obligations.NopCompletes := fun _ hf => exec_nop hf

/-- Settles O24: accepted parameters fit the registers that latch them. -/
theorem initEncOpensSession : Obligations.InitEncOpensSession := by
  intro s m k n z hs hp hacc
  obtain ⟨hm, hk, hn, hz⟩ := latched_eq hp hacc
  exact ⟨_, exec_initEnc hs hacc, hm, hk, hn, hz, fun _ _ => rfl, rfl⟩

/-- Settles O28: accepted parameters fit the registers that latch them. -/
theorem initDecOpensSession : Obligations.InitDecOpensSession := by
  intro s m k n z hs hp hacc
  obtain ⟨hm, hk, hn, hz⟩ := latched_eq hp hacc
  exact ⟨_, exec_initDec hs hacc, hm, hk, hn, hz, fun _ _ => rfl, fun _ _ => rfl, rfl⟩

/-- The size of SRCSET, SEEN or PIV after an index is added: one more only if the index is new (R33). -/
theorem length_indexInsert_eq {l : List Nat} (h : indexSetWf l = true) (i : Nat) :
    (indexInsert l i).length = l.length + (if i ∈ l then 0 else 1) := by
  split
  · rw [indexInsert_of_mem h ‹_›, Nat.add_zero]
  · exact length_indexInsert ‹_›

/-- Settles O25: PUT is the store of one slot and one insertion into SRCSET. -/
theorem putStoresSymbol : Obligations.PutStoresSymbol := fun _ slot hs hslot hsym hsrc =>
  ⟨_, exec_put hs hslot, fun i o => storeSlot_read hsym slot i o, fun _ => mem_indexInsert,
    length_indexInsert_eq hsrc slot, rfl, rfl⟩

/-- Settles O27: GET and GETSRC run the same move of a slot into IOBUF. -/
theorem getAndGetsrcCopySymbol : Obligations.GetAndGetsrcCopySymbol :=
  ⟨fun _ esi hs hesi hwf => ⟨_, exec_get hs hesi, fun o => outputSlot_read hwf esi o, rfl⟩,
    fun _ j hs hj hwf => ⟨_, exec_getsrc hs hj, fun o => outputSlot_read hwf j o, rfl⟩⟩

end Sys2Proof.Machine
end

section
/-! ### ENCODE (43_session_encode.md R215, R217)

ENCODE writes the slots from K up and reads those below K, so every repair symbol is computed from the source
symbols that stood there before. -/

namespace Sys2Proof.Machine

variable {s : State} {m k size : Nat} {grow : List Elem} {g : List (List Elem)} {sym sym' : Sparse Memory}
  {is : List Nat}

/-! #### The inner loop: one repair symbol -/

theorem combineSlots_succ (m k size : Nat) (grow : List Elem) (sym : Sparse Memory) :
    combineSlots m (k + 1) size grow sym =
      vecAddMul m (combineSlots m k size grow sym) (rowElem grow k) (unpack m (slotBytes sym k size)) := by
  simp only [combineSlots, List.range_succ, List.foldl_append, List.foldl_cons, List.foldl_nil]

theorem dot_succ (m k : Nat) (row x : Nat → Elem) :
    dot m (k + 1) row x = gfAdd (dot m k row x) (gfMul m (row k) (x k)) := by
  simp only [dot, List.range_succ, List.foldl_append, List.foldl_cons, List.foldl_nil]

@[simp] theorem length_slotBytes (sym : Sparse Memory) (i size : Nat) :
    (slotBytes sym i size).length = size :=
  Memory.length_readBytes _ 0 size

@[simp] theorem length_combineSlots (m k size : Nat) (grow : List Elem) (sym : Sparse Memory) :
    (combineSlots m k size grow sym).length = elementCount m size := by
  induction k with
  | zero => exact length_zeroVec _
  | succ k ih => simp [combineSlots_succ, ih]

theorem isElem_combineSlots (hm : m ≤ 16) (k size : Nat) (grow : List Elem) (sym : Sparse Memory) :
    ∀ x ∈ combineSlots m k size grow sym, IsElem m x := by
  induction k with
  | zero =>
    intro x hx
    rw [List.eq_of_mem_replicate hx]
    exact isElem_zero m
  | succ k ih =>
    rw [combineSlots_succ]
    exact isElem_vecAddMul hm ih _ _

/-- Lane l of a repair symbol is the generator row's combination of lane l of the source symbols (R215). -/
theorem getD_combineSlots {l : Nat} (hl : l < elementCount m size) (k : Nat) (grow : List Elem)
    (sym : Sparse Memory) : (combineSlots m k size grow sym).getD l 0 =
      dot m k (rowElem grow) fun j => (unpack m (slotBytes sym j size)).getD l 0 := by
  induction k with
  | zero => exact List.getD_replicate 0 hl
  | succ k ih =>
    rw [combineSlots_succ, getD_vecAddMul _ _ _ _ _ (by simpa using hl) (by simpa using hl), ih, dot_succ]

/-- A repair symbol depends on the source slots only. -/
theorem combineSlots_congr (h : ∀ j < k, slotOf sym' j = slotOf sym j) :
    combineSlots m k size grow sym' = combineSlots m k size grow sym := by
  induction k with
  | zero => rfl
  | succ k ih =>
    rw [combineSlots_succ, combineSlots_succ, ih fun j hj => h j (by omega), slotBytes, slotBytes,
      h k (Nat.lt_succ_self k)]

/-! #### The outer loop: the repair slots -/

/-- Each slot of the loop, none of them a source slot, gets the repair symbol of its row over the source
symbols before the loop; every other slot stays. -/
theorem slotOf_encodeSlots (h : symWf sym = true) (hnodup : is.Nodup) (his : ∀ i ∈ is, k ≤ i) (a : Nat) :
    slotOf (encodeSlots m k size g is sym) a =
      if a ∈ is then
        (slotOf sym a).writeBytes 0 (pack m (combineSlots m k size (g.getD a []) sym) size)
      else slotOf sym a := by
  induction is generalizing sym with
  | nil => rfl
  | cons i is ih =>
    obtain ⟨hi, hnodup⟩ := List.nodup_cons.1 hnodup
    have hki : k ≤ i := his i List.mem_cons_self
    rw [encodeSlots, ih (writeSlot_wf h i _) hnodup fun j hj => his j (List.mem_cons_of_mem i hj)]
    by_cases hai : a = i
    · subst hai
      rw [if_neg hi, if_pos List.mem_cons_self, slotOf_writeSlot h, if_pos rfl]
    · have hsource : ∀ bs, ∀ j < k, slotOf (writeSlot sym i bs) j = slotOf sym j := fun bs j hj => by
        rw [slotOf_writeSlot h, if_neg (by omega)]
      rw [combineSlots_congr (hsource _), slotOf_writeSlot h, if_neg hai]
      simp [hai]

/-- The repair slots. -/
theorem mem_repairSlots {n i : Nat} : i ∈ List.range' k (n - k) ↔ k ≤ i ∧ i < n := by
  rw [List.mem_range'_1]
  omega

/-! #### The command -/

/-- The symbol store that ENCODE leaves, with generator g. -/
def encodedSlots (s : State) (g : List (List Elem)) : Sparse Memory :=
  encodeSlots (mOf s) (kOf s) (symszOf s) g (List.range' (kOf s) (nOf s - kOf s)) s.sym

theorem exec_encode (hs : s.state = .encLoad) (hl : s.loaded = s.k)
    (hg : gen (mOf s) (kOf s) (nOf s) = some g) :
    exec .encode s = .next (((s.setSym (encodedSlots s g)).setState .encReady).setStatus .ok) := by
  change guarded (sessionCheck [.encLoad, .encReady] s) s _ = _
  rw [guarded_of_passed (sessionCheck_of_state hs (by decide)), if_neg (by simp [hs]), if_pos hl, hg]
  rfl

theorem slotOf_encodedSlots (h : symWf s.sym = true) (g : List (List Elem)) (i : Nat) :
    slotOf (encodedSlots s g) i =
      if kOf s ≤ i ∧ i < nOf s then
        (slotOf s.sym i).writeBytes 0
          (pack (mOf s) (combineSlots (mOf s) (kOf s) (symszOf s) (g.getD i []) s.sym) (symszOf s))
      else slotOf s.sym i := by
  rw [encodedSlots, slotOf_encodeSlots h List.nodup_range' fun j hj => (mem_repairSlots.1 hj).1]
  simp only [mem_repairSlots]

/-- ENCODE leaves the source slots, the slots from N up, and in a repair slot the bytes from SYMSZ up. -/
theorem read_encodedSlots_of_outside (h : symWf s.sym = true) (g : List (List Elem)) {i o : Nat}
    (hio : i < kOf s ∨ nOf s ≤ i ∨ symszOf s ≤ o) :
    (slotOf (encodedSlots s g) i).read o = (slotOf s.sym i).read o := by
  rw [slotOf_encodedSlots h]
  split
  · rw [Memory.read_writeBytes (slotOf_wf h i), length_pack, if_neg (by omega)]
  · rfl

/-- The symbol read back after a symbol is written. -/
theorem readBytes_writeBytes {mem : Memory} (h : mem.wf = true) (bs : List Byte) :
    (mem.writeBytes 0 bs).readBytes 0 bs.length = bs := by
  refine List.ext_getElem (by simp) fun o ho ho' => ?_
  rw [← List.getD_eq_getElem _ 0 ho, ← List.getD_eq_getElem _ 0 ho', Memory.getD_readBytes, if_pos ho',
    Memory.read_writeBytes h, if_pos (by omega)]
  simp

/-- The bytes of a repair slot after ENCODE. -/
theorem slotBytes_encodedSlots (h : symWf s.sym = true) (g : List (List Elem)) {i : Nat}
    (hk : kOf s ≤ i) (hn : i < nOf s) : slotBytes (encodedSlots s g) i (symszOf s) =
      pack (mOf s) (combineSlots (mOf s) (kOf s) (symszOf s) (g.getD i []) s.sym) (symszOf s) := by
  have hread := readBytes_writeBytes (slotOf_wf h i)
    (pack (mOf s) (combineSlots (mOf s) (kOf s) (symszOf s) (g.getD i []) s.sym) (symszOf s))
  rw [slotBytes, slotOf_encodedSlots h, if_pos ⟨hk, hn⟩]
  rwa [length_pack] at hread

/-- Settles O26: unpacking a repair slot gives back the elements that the inner loop computed. -/
theorem encodeComputesRepairSymbols : Obligations.EncodeComputesRepairSymbols := by
  intro s g hs hl hp hacc hsym hg
  obtain ⟨⟨h1, hm⟩, -⟩ := paramsAccepted_bounds hp hacc
  obtain ⟨-, -, -, -, -, hdvd, -⟩ := hacc
  refine ⟨_, exec_encode hs hl hg, rfl, fun i o hio => read_encodedSlots_of_outside hsym g hio,
    fun i hk hn l hlane => ?_⟩
  change (unpack (mOf s) (slotBytes (encodedSlots s g) i (symszOf s))).getD l 0 = _
  rw [slotBytes_encodedSlots hsym g hk hn, unpack_pack h1 hm hdvd (length_combineSlots ..)
    (isElem_combineSlots hm _ _ _ _), getD_combineSlots hlane]
  rfl

end Sys2Proof.Machine
end

section
/-! ### The data of the stored equations (44_session_decode.md R241, R243)

What the elimination does to the slots is what it does to the rows of D, lane by lane. So each stored row with
its data is one equation, and the elimination step is a few operations on whole equations. -/

namespace Sys2Proof.Machine

variable {s t u : State} {p q : Nat} {e g : Equation}

/-- A session's M and SYMSZ as far as the data of its equations needs them (R150, R212). -/
structure DataFits (s : State) : Prop where
  pos : 1 ≤ mOf s
  le : mOf s ≤ 16
  dvd : 8 * symszOf s % mOf s = 0

theorem dataFits_of_runInv (h : RunInv s) (hs : s.state ≠ .idle) : DataFits s := by
  obtain ⟨h1, hm⟩ := runInv_field h hs
  obtain ⟨-, -, -, -, -, hdvd, -⟩ := runInv_paramsAccepted h hs
  exact ⟨h1, hm, hdvd⟩

/-- The number of lanes of a symbol. -/
def lanesOf (s : State) : Nat := elementCount (mOf s) (symszOf s)

/-- The data of stored row p: the elements of slot p. -/
def slotLanes (s : State) (p : Nat) : List Elem := unpack (mOf s) (slotSymbol s p)

/-- An equation of a session: K coefficients, and one value for each lane of a symbol (R241). -/
structure EquationFits (s : State) (e : Equation) : Prop where
  row : IsRow (mOf s) (kOf s) e.1
  data : IsRow (mOf s) (lanesOf s) e.2

/-- Both halves of an equation times v (step c of R243). -/
def scaleEquation (m : Nat) (v : Elem) (e : Equation) : Equation := (vecMul m v e.1, vecMul m v e.2)

theorem isRow_slotLanes (hm : mOf s ≤ 16) (p : Nat) : IsRow (mOf s) (lanesOf s) (slotLanes s p) :=
  ⟨by simp [slotLanes, lanesOf], isElem_unpack hm _⟩

theorem isRow_iobufLanes (hm : mOf s ≤ 16) :
    IsRow (mOf s) (lanesOf s) (unpack (mOf s) (iobufSymbol s)) :=
  ⟨by simp [lanesOf], isElem_unpack hm _⟩

theorem equationFits_stored (hm : mOf s ≤ 16) (h : RowsInside (kOf s) (mOf s) s.d) (p : Nat) :
    EquationFits s (storedEquation s p) :=
  ⟨⟨length_matrixRow .., (rowFits_matrixRow h p).2⟩, isRow_slotLanes hm p⟩

theorem equationFits_eqnAddMul (hm : mOf s ≤ 16) (he : EquationFits s e) (hg : EquationFits s g)
    (f : Elem) : EquationFits s (eqnAddMul (mOf s) e f g) :=
  ⟨isRow_vecAddMul hm he.row hg.row f, isRow_vecAddMul hm he.data hg.data f⟩

theorem equationFits_scale (hm : mOf s ≤ 16) (he : EquationFits s e) (v : Elem) :
    EquationFits s (scaleEquation (mOf s) v e) :=
  ⟨isRow_vecMul hm he.row v, isRow_vecMul hm he.data v⟩

/-! #### Step a -/

/-- What holds of an equation, and still holds after a multiple of a stored equation is added, holds of the
reduced equation. -/
theorem reduceEquation_induction {P : Equation → Prop} (h : P e) (hstep : ∀ r, ∀ p ∈ s.piv, P r →
    P (eqnAddMul (mOf s) r (rowElem r.1 p) (storedEquation s p))) : P (reduceEquation s e) := by
  refine List.foldlRecOn _ (reduceBy s) h fun r hr p _ => ?_
  unfold reduceBy
  split
  · exact hstep r p (by tauto) hr
  · exact hr

theorem equationFits_reduce (hm : mOf s ≤ 16) (h : RowsInside (kOf s) (mOf s) s.d)
    (he : EquationFits s e) : EquationFits s (reduceEquation s e) :=
  reduceEquation_induction he fun _ p _ hr => equationFits_eqnAddMul hm hr (equationFits_stored hm h p) _

/-! #### Steps d and e -/

/-- The bytes of the slots after an equation is stored. -/
theorem read_storeEquation (h : symWf s.sym = true) (p i o : Nat) (e : Equation) :
    (slotOf (storeEquation p e s).sym i).read o =
      if i = p ∧ o < symszOf s then (pack (mOf s) e.2 (symszOf s)).getD o 0
      else (slotOf s.sym i).read o := by
  have hread := read_writeSlot h p i o (pack (mOf s) e.2 (symszOf s))
  rwa [length_pack] at hread

/-- The symbols of the slots after an equation is stored. -/
theorem slotSymbol_storeEquation (h : symWf s.sym = true) (p i : Nat) (e : Equation) :
    slotSymbol (storeEquation p e s) i =
      if i = p then pack (mOf s) e.2 (symszOf s) else slotSymbol s i := by
  change slotBytes (writeSlot s.sym p _) i (symszOf s) = _
  rw [slotBytes, slotOf_writeSlot h]
  split
  · simpa using readBytes_writeBytes (slotOf_wf h p) (pack (mOf s) e.2 (symszOf s))
  · rfl

theorem slotLanes_storeEquation (hd : DataFits s) (h : symWf s.sym = true)
    (he : IsRow (mOf s) (lanesOf s) e.2) (p i : Nat) :
    slotLanes (storeEquation p e s) i = if i = p then e.2 else slotLanes s i := by
  change unpack (mOf s) (slotSymbol (storeEquation p e s) i) = _
  rw [slotSymbol_storeEquation h]
  split
  · exact unpack_pack hd.pos hd.le hd.dvd he.1 he.2
  · rfl

/-- Clearing column q of stored row p adds D[p][q] times the new data to its data. -/
theorem slotLanes_clearStored (hd : DataFits s) (h : symWf s.sym = true)
    (he : IsRow (mOf s) (lanesOf s) e.2) (p q i : Nat) :
    slotLanes (clearStored q e s p) i =
      if i = p ∧ p ≠ q ∧ p ∈ s.piv then vecAddMul (mOf s) (slotLanes s i) (matrixGet s.d i q) e.2
      else slotLanes s i := by
  have hlanes := isRow_slotLanes (s := s) hd.le
  by_cases hcond : p ≠ q ∧ p ∈ s.piv
  · by_cases hzero : matrixGet s.d p q = 0
    · rw [clearStored, if_neg fun hh => hh.2.2 hzero]
      split
      · rename_i hi
        rw [hi.1, hzero, vecAddMul_zero ((hlanes p).1.trans he.1.symm).le]
      · rfl
    · rw [clearStored, if_pos ⟨hcond.1, hcond.2, hzero⟩,
        slotLanes_storeEquation hd h (isRow_vecAddMul hd.le (hlanes p) he _)]
      by_cases hi : i = p
      · subst hi
        rw [if_pos rfl, if_pos ⟨rfl, hcond⟩]
        rfl
      · rw [if_neg hi, if_neg fun hh => hi hh.1]
  · rw [clearStored_of_not hcond, if_neg fun hh => hcond hh.2]

/-- Step d: the data of the stored rows below n. -/
theorem slotLanes_foldl_clearStored (hd : DataFits s) (h : ElimInside s) (he : EquationFits s e)
    (q : Nat) {n : Nat} (hn : n ≤ kOf s) (i : Nat) :
    slotLanes ((List.range n).foldl (clearStored q e) s) i =
      if i < n ∧ i ≠ q ∧ i ∈ s.piv then vecAddMul (mOf s) (slotLanes s i) (matrixGet s.d i q) e.2
      else slotLanes s i := by
  induction n with
  | zero => simp
  | succ n ih =>
    have ih := ih (by omega)
    obtain ⟨hin, -, hget⟩ := foldl_clearStored_spec h hd.le he.row.1.le (l := s.piv) (fun _ => id) q
      (n := n) (by omega)
    have hframe := foldl_clearStored_frame q e (List.range n) s
    rw [List.range_succ, List.foldl_append]
    generalize (List.range n).foldl (clearStored q e) s = u at *
    have hpiv : u.piv = s.piv := hframe ▸ rfl
    have hm : mOf u = mOf s := hframe ▸ rfl
    have hz : symszOf u = symszOf s := hframe ▸ rfl
    have hlanes : lanesOf u = lanesOf s := by rw [lanesOf, hm, hz, lanesOf]
    change slotLanes (clearStored q e u n) i = _
    rw [slotLanes_clearStored ⟨hm ▸ hd.pos, hm ▸ hd.le, by rw [hm, hz, hd.dvd]⟩ hin.canonicalSym
      (by rw [hm, hlanes]; exact he.data), hpiv, hm, ih, hget]
    by_cases hi : i = n
    · subst hi
      simp
    · simp [hi, show i < n + 1 ↔ i < n by omega]

/-- Steps d and e: slot q gets the new data, and the data of each other stored row gains D[p][q] times it. -/
theorem slotLanes_insertEquation (hd : DataFits s) (h : ElimInside s) (he : EquationFits s e) (q i : Nat) :
    slotLanes (insertEquation q e s) i =
      if i = q then e.2
      else if i < kOf s ∧ i ∈ s.piv then
        vecAddMul (mOf s) (slotLanes s i) (matrixGet s.d i q) e.2
      else slotLanes s i := by
  have hfold := slotLanes_foldl_clearStored hd h he q le_rfl i
  obtain ⟨hin, -⟩ := foldl_clearStored_spec h hd.le he.row.1.le (l := s.piv) (fun _ => id) q le_rfl
  have hframe := foldl_clearStored_frame q e (List.range (kOf s)) s
  change slotLanes (storeEquation q e ((List.range (kOf s)).foldl (clearStored q e) s)) i = _
  generalize (List.range (kOf s)).foldl (clearStored q e) s = u at *
  have hm : mOf u = mOf s := hframe ▸ rfl
  have hz : symszOf u = symszOf s := hframe ▸ rfl
  have hlanes : lanesOf u = lanesOf s := by rw [lanesOf, hm, hz, lanesOf]
  rw [slotLanes_storeEquation ⟨hm ▸ hd.pos, hm ▸ hd.le, by rw [hm, hz, hd.dvd]⟩ hin.canonicalSym
    (by rw [hm, hlanes]; exact he.data), hfold]
  by_cases hi : i = q
  · rw [if_pos hi, if_pos hi]
  · simp [hi]

/-! #### The stored equations after an insertion -/

/-- The first k elements of a row of D are those of a list. -/
theorem matrixRow_eq_of_elem {d : Sparse (Sparse Elem)} {k r : Nat} {row : List Elem} (hlen : row.length = k)
    (h : ∀ c < k, matrixGet d r c = rowElem row c) : matrixRow d r k = row := by
  refine List.ext_getElem (by simp [hlen]) fun c hc hc' => ?_
  rw [← List.getD_eq_getElem _ 0 hc, ← List.getD_eq_getElem _ 0 hc', getD_matrixRow, if_pos (hlen ▸ hc'),
    h c (hlen ▸ hc')]
  rfl

/-- Inserting an equation at a new column q stores it there and adds D[p][q] times it to each equation stored
before (R243, steps d and e). -/
theorem storedEquation_insertEquation (hd : DataFits s) (h : ElimInside s) (he : EquationFits s e)
    (hq : q < kOf s) (hpiv : ∀ p ∈ s.piv, p < kOf s) (hlist : ∀ x ∈ s.d, x.1 ∈ s.piv) (hnew : q ∉ s.piv) :
    storedEquation (insertEquation q e s) q = e ∧
      ∀ p ∈ s.piv, storedEquation (insertEquation q e s) p =
        eqnAddMul (mOf s) (storedEquation s p) (matrixGet s.d p q) e := by
  obtain ⟨hrow, hrows⟩ := rows_insertEquation h hd.le (rowFits_of_isRow he.row) hq hpiv hlist hnew
  have hk : kOf (insertEquation q e s) = kOf s := by rw [insertEquation_frame]; rfl
  refine ⟨Prod.ext ?_ ?_, fun p hp => Prod.ext ?_ ?_⟩
  · exact matrixRow_eq_of_elem (hk ▸ he.row.1) fun c _ => hrow c
  · change slotLanes (insertEquation q e s) q = _
    rw [slotLanes_insertEquation hd h he, if_pos rfl]
  · refine matrixRow_eq_of_elem (by simp [eqnAddMul, storedEquation, he.row.1, hk]) fun c hc => ?_
    rw [hk] at hc
    rw [hrows p hp, eqnAddMul, rowElem_vecAddMul _ (by simpa [storedEquation] using hc)
      (he.row.1.symm ▸ hc), storedEquation, rowElem_matrixRow _ _ hc]
  · change slotLanes (insertEquation q e s) p = _
    rw [slotLanes_insertEquation hd h he, if_neg (ne_of_mem_of_not_mem hp hnew), if_pos ⟨hpiv p hp, hp⟩]
    rfl

end Sys2Proof.Machine
end

section
/-! ### Valid equations (44_session_decode.md R241, R244)

An equation holds of the source symbols when its data are the combination of their lanes that its row says.
Sums and multiples of equations that hold are equations that hold, and the elimination step forms no others. -/

namespace Sys2Proof.Machine

variable {s t u : State} {m k : Nat} {row row' y : Nat → Elem} {f : Elem}

/-! #### Combinations of source symbols -/

theorem isElem_dot (hm : m ≤ 16) (k : Nat) (row y : Nat → Elem) : IsElem m (dot m k row y) := by
  induction k with
  | zero => exact isElem_zero m
  | succ k ih =>
    rw [dot_succ]
    exact gfAdd_lt ih (gfMul_lt hm _ _)

theorem dot_congr (h : ∀ j < k, row j = row' j) : dot m k row y = dot m k row' y := by
  induction k with
  | zero => rfl
  | succ k ih => rw [dot_succ, dot_succ, ih fun j hj => h j (by omega), h k (by omega)]

/-- A combination, modulo P_m. -/
theorem residue_dot (h1 : 1 ≤ m) (hm : m ≤ 16) (hrow : ∀ j, IsElem m (row j)) (hy : ∀ j, IsElem m (y j))
    (k : Nat) : residue m (dot m k row y) =
      ∑ j ∈ Finset.range k, residue m (row j) * residue m (y j) := by
  induction k with
  | zero => exact residue_zero
  | succ k ih =>
    rw [dot_succ, residue_gfAdd, ih, residue_gfMul h1 hm (hrow k) (hy k), Finset.sum_range_succ]

/-- Combinations are linear in the coefficients. -/
theorem dot_gfAdd_gfMul (h1 : 1 ≤ m) (hm : m ≤ 16) (hrow : ∀ j, IsElem m (row j))
    (hrow' : ∀ j, IsElem m (row' j)) (hy : ∀ j, IsElem m (y j)) (hf : IsElem m f) :
    dot m k (fun j => gfAdd (row j) (gfMul m f (row' j))) y =
      gfAdd (dot m k row y) (gfMul m f (dot m k row' y)) := by
  refine residue_injective h1 hm (isElem_dot hm ..) (gfAdd_lt (isElem_dot hm ..) (gfMul_lt hm ..)) ?_
  rw [residue_dot h1 hm (fun j => gfAdd_lt (hrow j) (gfMul_lt hm ..)) hy, residue_gfAdd,
    residue_gfMul h1 hm hf (isElem_dot hm ..), residue_dot h1 hm hrow hy, residue_dot h1 hm hrow' hy,
    Finset.mul_sum, ← Finset.sum_add_distrib]
  refine Finset.sum_congr rfl fun j _ => ?_
  rw [residue_gfAdd, residue_gfMul h1 hm hf (hrow' j), add_mul, mul_assoc]

theorem dot_gfMul (h1 : 1 ≤ m) (hm : m ≤ 16) (hrow : ∀ j, IsElem m (row j)) (hy : ∀ j, IsElem m (y j))
    (hf : IsElem m f) : dot m k (fun j => gfMul m f (row j)) y = gfMul m f (dot m k row y) := by
  have hzero : dot m k (fun _ => 0) y = 0 := by
    induction k with
    | zero => rfl
    | succ k ih => rw [dot_succ, ih, zero_gfMul, gfAdd_zero]
  have hlin := dot_gfAdd_gfMul (k := k) h1 hm (fun _ => isElem_zero m) hrow hy hf
  simpa only [zero_gfAdd, hzero] using hlin

/-! #### Equations that hold -/

/-- An equation holds of the source symbols `x j`, lane by lane (R241). -/
def EquationHolds (s : State) (x : Nat → Nat → Elem) (e : Equation) : Prop :=
  ∀ l < lanesOf s, e.2.getD l 0 = dot (mOf s) (kOf s) (rowElem e.1) fun j => x j l

variable {x : Nat → Nat → Elem} {e g : Equation}

theorem equationsHold_iff : EquationsHold s x ↔ ∀ p ∈ s.piv, EquationHolds s x (storedEquation s p) := by
  refine forall₄_congr fun p _ l _ => ?_
  have hrow : dot (mOf s) (kOf s) (rowElem (storedEquation s p).1) (fun j => x j l) =
      dot (mOf s) (kOf s) (fun j => matrixGet s.d p j) fun j => x j l :=
    dot_congr fun j hj => rowElem_matrixRow s.d p hj
  rw [hrow]
  rfl

theorem symbolMatches_iff {esi : Nat} : SymbolMatches s esi x ↔
    ∀ row, genRow (mOf s) (kOf s) esi = some row →
      EquationHolds s x (row, unpack (mOf s) (iobufSymbol s)) := Iff.rfl

theorem equationHolds_eqnAddMul (hd : DataFits s) (hx : ∀ j l, IsElem (mOf s) (x j l))
    (he : EquationFits s e) (hg : EquationFits s g) (hf : IsElem (mOf s) f)
    (hhe : EquationHolds s x e) (hhg : EquationHolds s x g) :
    EquationHolds s x (eqnAddMul (mOf s) e f g) := by
  intro l hl
  have hrow : dot (mOf s) (kOf s) (rowElem (eqnAddMul (mOf s) e f g).1) (fun j => x j l) =
      dot (mOf s) (kOf s) (fun j => gfAdd (rowElem e.1 j) (gfMul (mOf s) f (rowElem g.1 j)))
        fun j => x j l :=
    dot_congr fun j hj => rowElem_vecAddMul f (he.row.1.symm ▸ hj) (hg.row.1.symm ▸ hj)
  rw [hrow, dot_gfAdd_gfMul hd.pos hd.le (isElem_of_isRow he.row) (isElem_of_isRow hg.row)
    (fun j => hx j l) hf, ← hhe l hl, ← hhg l hl]
  exact getD_vecAddMul _ _ _ _ _ (he.data.1.symm ▸ hl) (hg.data.1.symm ▸ hl)

theorem equationHolds_scale (hd : DataFits s) (hx : ∀ j l, IsElem (mOf s) (x j l))
    (he : EquationFits s e) (hf : IsElem (mOf s) f) (hhe : EquationHolds s x e) :
    EquationHolds s x (scaleEquation (mOf s) f e) := by
  intro l hl
  have hrow : dot (mOf s) (kOf s) (rowElem (scaleEquation (mOf s) f e).1) (fun j => x j l) =
      dot (mOf s) (kOf s) (fun j => gfMul (mOf s) f (rowElem e.1 j)) fun j => x j l :=
    dot_congr fun j _ => rowElem_vecMul f e.1 j
  rw [hrow, dot_gfMul hd.pos hd.le (isElem_of_isRow he.row) (fun j => hx j l) hf, ← hhe l hl]
  exact getD_vecMul _ _ _ _ (he.data.1.symm ▸ hl)

/-- Step a keeps an equation valid (R244, item 4). -/
theorem equationHolds_reduce (hd : DataFits s) (h : RowsInside (kOf s) (mOf s) s.d)
    (hx : ∀ j l, IsElem (mOf s) (x j l)) (hstored : EquationsHold s x) (he : EquationFits s e)
    (hhe : EquationHolds s x e) : EquationHolds s x (reduceEquation s e) := by
  refine (reduceEquation_induction (P := fun r => EquationFits s r ∧ EquationHolds s x r) ⟨he, hhe⟩
    fun r p hp ⟨hr, hhr⟩ => ?_).2
  have hfits := equationFits_stored hd.le h p
  exact ⟨equationFits_eqnAddMul hd.le hr hfits _,
    equationHolds_eqnAddMul hd hx hr hfits (isElem_of_isRow hr.row p) hhr (equationsHold_iff.1 hstored p hp)⟩

/-! #### The elimination step -/

/-- What the elimination step does to the stored equations: nothing, where the new one reduces to zero; else
the reduced one, times the inverse v of its leading element, is stored at a new column q, and each equation
stored before gains D[p][q] times it. -/
theorem decInsert_equations (h : RunInv s) (hs : s.state = .decAcc) (hech : Echelon s)
    (he : EquationFits s e) (hu : decInsert e s = some u) :
    (u = s ∧ ∀ c, rowElem (reduceEquation s e).1 c = 0) ∨
      ∃ q v, u = insertEquation q (scaleEquation (mOf s) v (reduceEquation s e)) s ∧ q < kOf s ∧
        q ∉ s.piv ∧ gfInv (mOf s) (rowElem (reduceEquation s e).1 q) = some v ∧
        storedEquation u q = scaleEquation (mOf s) v (reduceEquation s e) ∧
        ∀ p ∈ s.piv, storedEquation u p = eqnAddMul (mOf s) (storedEquation s p) (matrixGet s.d p q)
          (scaleEquation (mOf s) v (reduceEquation s e)) := by
  have hd := dataFits_of_runInv h (by simp [hs])
  have helim := elimInside_of_runInv h hs
  have hfits := equationFits_reduce hd.le helim.rows he
  obtain ⟨-, hclear⟩ := reduceEquation_spec hd.pos hd.le (rowFits_of_isRow he.row)
  rcases decInsert_some hu with ⟨hnone, rfl⟩ | ⟨q, v, hq, hv, rfl⟩
  · exact .inl ⟨rfl, leadingColumn_none hnone⟩
  · obtain ⟨hqlen, hlead, -⟩ := leadingColumn_some hq
    have hqk : q < kOf s := hfits.row.1 ▸ hqlen
    have hnew : q ∉ s.piv := fun hmem => hlead (hclear hech q hmem hqk)
    obtain ⟨hrow, hrows⟩ := storedEquation_insertEquation hd helim (equationFits_scale hd.le hfits v) hqk
      (runInv_piv_lt h) hech.1 hnew
    exact .inr ⟨q, v, rfl, hqk, hnew, hv, hrow, hrows⟩

/-- The elimination step keeps the stored equations valid (R244, item 4). -/
theorem equationsHold_decInsert (h : RunInv s) (hs : s.state = .decAcc) (hech : Echelon s)
    (hx : ∀ j l, IsElem (mOf s) (x j l)) (he : EquationFits s e) (hstored : EquationsHold s x)
    (hhe : EquationHolds s x e) (hu : decInsert e s = some u) : EquationsHold u x := by
  have hd := dataFits_of_runInv h (by simp [hs])
  have helim := elimInside_of_runInv h hs
  rcases decInsert_equations h hs hech he hu with ⟨rfl, -⟩ | ⟨q, v, hins, -, -, hv, hrow, hrows⟩
  · exact hstored
  · have hfits := equationFits_reduce hd.le helim.rows he
    have hnew : EquationHolds s x (scaleEquation (mOf s) v (reduceEquation s e)) :=
      equationHolds_scale hd hx hfits (gfInv_lt hd.pos hd.le hv)
        (equationHolds_reduce hd helim.rows hx hstored he hhe)
    have hall : ∀ p ∈ indexInsert s.piv q, EquationHolds s x (storedEquation u p) := fun p hp => by
      rcases mem_indexInsert.1 hp with rfl | hp
      · rwa [hrow]
      · rw [hrows p hp]
        exact equationHolds_eqnAddMul hd hx (equationFits_stored hd.le helim.rows p)
          (equationFits_scale hd.le hfits v) (isElem_matrixGet helim.rows p q)
          (equationsHold_iff.1 hstored p hp) hnew
    rw [hins, insertEquation_frame] at hall ⊢
    exact equationsHold_iff.2 hall

/-- The equation that ACCEPT forms of a generator row and the symbol in IOBUF (R241, R242). -/
theorem equationFits_accept (h : RunInv s) (hs : s.state ≠ .idle) {esi : Nat} {row : List Elem}
    (hrow : genRow (mOf s) (kOf s) esi = some row) :
    EquationFits s (row, unpack (mOf s) (iobufSymbol s)) := by
  obtain ⟨h1, hm⟩ := runInv_field h hs
  exact ⟨(genRow_eq_some h1 hm (runInv_le_points h hs).2 hrow).1, isRow_iobufLanes hm⟩

/-- Settles O58: only ACCEPT of a new ESI touches the stored equations, by one elimination step. -/
theorem acceptKeepsEquations : Obligations.AcceptKeepsEquations := by
  intro s t esi x h hdec hx hstored hmatch ht
  rcases execAccept_next ht with
    ⟨o, -, rfl⟩ | ⟨-, -, rfl⟩ | ⟨-, -, rfl⟩ | ⟨-, -, -, rfl⟩ | ⟨hs, hesi, -, hnew⟩
  · exact hstored
  · exact hstored
  · exact hstored
  · exact hstored
  · rcases acceptNew_next hnew with ⟨-, rfl⟩ | ⟨row, u, hrow, hu, hout⟩
    · exact hstored
    · obtain ⟨hech, -⟩ := hdec (.inl hs)
      have hseen := runInv_setSeen h hs hesi
      have hkept : EquationsHold u x := equationsHold_decInsert hseen hs hech hx
        (equationFits_accept hseen (by simp [hs]) hrow) hstored (symbolMatches_iff.1 hmatch row hrow) hu
      rcases acceptOutcome_next hout with ⟨-, rfl⟩ | ⟨-, rfl⟩
      · exact hkept
      · exact hkept

end Sys2Proof.Machine
end

section
/-! ### Queries and completion of the decode session (44_session_decode.md R245, R248 to R252) -/

namespace Sys2Proof.Machine

variable {s t : State} {row col esi j : Nat}

/-- Both states of a decode session pass the check of its queries and of ACCEPT (R282). -/
theorem sessionCheck_decode (hs : s.state = .decAcc ∨ s.state = .decDone) :
    sessionCheck [.decAcc, .decDone] s = none := by
  rcases hs with hs | hs <;> exact sessionCheck_of_state hs (by decide)

theorem exec_dget (hs : s.state = .decAcc ∨ s.state = .decDone) (hrow : row < kOf s) (hcol : col < kOf s) :
    exec (.dget row col) s = .next ((s.setRes (resOfElem (matrixGet s.d row col))).setStatus .ok) :=
  guarded_ite_of_passed (sessionCheck_decode hs) ⟨hrow, hcol⟩

theorem exec_dpiv (hs : s.state = .decAcc ∨ s.state = .decDone) (hrow : row < kOf s) :
    exec (.dpiv row) s = .next ((s.setRes (resOfFlag (s.piv.contains row))).setStatus .ok) :=
  guarded_ite_of_passed (sessionCheck_decode hs) hrow

theorem exec_seenq (hs : s.state = .decAcc ∨ s.state = .decDone) (hesi : esi < nOf s) :
    exec (.seenq esi) s = .next ((s.setRes (resOfFlag (s.seen.contains esi))).setStatus .ok) :=
  guarded_ite_of_passed (sessionCheck_decode hs) hesi

theorem resOfFlag_contains (l : List Nat) (i : Nat) :
    resOfFlag (l.contains i) = if i ∈ l then 1 else 0 := by
  simp [resOfFlag]

/-- Settles O30: the queries pass their checks, and a flag is read as membership in its set. -/
theorem decodeQueriesReadState : Obligations.DecodeQueriesReadState := by
  intro s hs
  refine ⟨fun _ _ hrow hcol => exec_dget hs hrow hcol, fun row hrow => ?_, fun esi hesi => ?_⟩
  · rw [exec_dpiv hs hrow, resOfFlag_contains]
    rfl
  · rw [exec_seenq hs hesi, resOfFlag_contains]
    rfl

/-! #### DEC_DONE -/

/-- In DEC_DONE an ACCEPT in range has nothing to do (R242, R248). -/
theorem exec_accept_decDone (hs : s.state = .decDone) (hesi : esi < nOf s) :
    exec (.accept esi) s = .next (s.setStatus .complete) :=
  (guarded_ite_of_passed (sessionCheck_decode (.inr hs)) hesi).trans (if_pos hs)

/-- The internal fault of GGET is that of the whole generator (R189, R285). -/
theorem gen_eq_none_of_execGget (h : execGget esi col s = .next t) (ht : t.state ≠ s.state) :
    gen (mOf s) (kOf s) (nOf s) = none := by
  rcases execGget_next h with ⟨o, -, rfl⟩ |
    ⟨-, ⟨-, rfl⟩ | ⟨-, -, rfl⟩ | ⟨-, -, hnone, -⟩ | ⟨-, -, row, -, rfl⟩⟩
  · exact absurd rfl ht
  · exact absurd rfl ht
  · exact absurd rfl ht
  · exact (gen_eq_none_iff _ _ _ esi).2 hnone
  · exact absurd rfl ht

/-- Settles O31, effect by effect: those that write the session's data need another state. -/
theorem decodeDoneIsTerminal : Obligations.DecodeDoneIsTerminal := by
  intro i s t hs hi h
  rw [← and_assoc]
  refine ⟨?_, fun esi hacc hesi => ?_⟩
  · cases exec_effect h with
    | status i o _ => exact ⟨by simp, .inl hs⟩
    | result i v _ => exact ⟨by simp, .inl hs⟩
    | output i bs _ _ _ => exact ⟨by simp, .inl hs⟩
    | accumulate i bs _ _ _ => exact ⟨by simp [storeVacc], .inl hs⟩
    | fault i hf =>
      rcases hf with ⟨-, henc⟩ | ⟨⟨esi, col, rfl⟩, -⟩
      · simp [hs] at henc
      · exact ⟨by simp, .inr ⟨rfl, rfl, gen_eq_none_of_execGget h (by simp [hs])⟩⟩
    | reset => exact absurd rfl hi
    | openEnc m k n z hidle => simp [hs] at hidle
    | openDec m k n z hidle => simp [hs] at hidle
    | load slot henc => simp [hs] at henc
    | encode g henc => simp [hs] at henc
    | acceptFault esi hacc => simp [hs] at hacc
    | accept esi row u t hacc => simp [hs] at hacc
  · subst hacc
    rw [exec_accept_decDone hs hesi, Host.Outcome.next.injEq] at h
    rw [← h, State.setStatus_status]

/-! #### Completion -/

/-- With K stored rows every column below K has one (R244, R245). -/
theorem mem_piv_of_decDone (h : RunInv s) (hdec : DecodeInv s) (hs : s.state = .decDone) (hj : j < kOf s) :
    j ∈ s.piv := by
  have ⟨_, ⟨_, _, _, _, _, hwf, _⟩, _⟩ := h
  obtain ⟨-, -, -, -, hfull⟩ := hdec (.inr hs)
  have hsub : s.piv.Subperm (List.range (kOf s)) :=
    (nodup_of_indexSetWf hwf).subperm fun p hp => List.mem_range.2 (runInv_piv_lt h p hp)
  exact (hsub.perm_of_length_le (by simp [hfull hs])).mem_iff.2 (List.mem_range.2 hj)

/-- In DEC_DONE the echelon form is the identity (R245). -/
theorem matrixGet_of_decDone (h : RunInv s) (hdec : DecodeInv s) (hs : s.state = .decDone) (hj : j < kOf s)
    {c : Nat} (hc : c < kOf s) : matrixGet s.d j c = if c = j then 1 else 0 := by
  obtain ⟨⟨-, -, hrows⟩, -⟩ := hdec (.inr hs)
  obtain ⟨hone, hother, -⟩ := hrows j (mem_piv_of_decDone h hdec hs hj)
  split
  · rename_i hcj
    rw [hcj, hone]
  · exact hother c (mem_piv_of_decDone h hdec hs hc) ‹_›

/-- The combination that row j of the identity says is lane j. -/
theorem dot_unit {m k : Nat} {y : Nat → Elem} (h1 : 1 ≤ m) (hm : m ≤ 16) (hy : ∀ c, IsElem m (y c))
    (hj : j < k) : dot m k (fun c => if c = j then 1 else 0) y = y j := by
  have hunit : ∀ c, IsElem m (if c = j then 1 else 0) := fun c => by
    split
    · exact isElem_one h1
    · exact isElem_zero m
  refine residue_injective h1 hm (isElem_dot hm ..) (hy j) ?_
  rw [residue_dot h1 hm hunit hy, Finset.sum_eq_single j (fun c _ hc => ?_)
    fun hout => absurd (Finset.mem_range.2 hj) hout, if_pos rfl]
  · exact (congrArg (· * _) residue_one).trans (one_mul _)
  · rw [if_neg hc]
    exact (congrArg (· * _) residue_zero).trans (zero_mul _)

/-- The symbol in IOBUF after a slot is copied into it. -/
theorem iobufSymbol_outputSlot (h : s.iobuf.wf = true) (j : Nat) :
    iobufSymbol (outputSlot j s) = slotSymbol s j := by
  change (s.iobuf.writeBytes 0 (slotSymbol s j)).readBytes 0 (symszOf s) = _
  simpa using readBytes_writeBytes h (slotSymbol s j)

/-- Settles O59: over the identity the stored equations are the source symbols themselves. -/
theorem completionSolvesSources : Obligations.CompletionSolvesSources := by
  intro s x h hdec hs hx hstored j hj
  obtain ⟨h1, hm⟩ := runInv_field h (by simp [hs])
  have ⟨_, ⟨hwf, _⟩, _⟩ := h
  have hslot : ∀ l < elementCount (mOf s) (symszOf s),
      (unpack (mOf s) (slotSymbol s j)).getD l 0 = x j l := fun l hl =>
    calc (unpack (mOf s) (slotSymbol s j)).getD l 0
        = dot (mOf s) (kOf s) (fun c => matrixGet s.d j c) (fun c => x c l) :=
          hstored j (mem_piv_of_decDone h hdec hs hj) l hl
      _ = dot (mOf s) (kOf s) (fun c => if c = j then 1 else 0) (fun c => x c l) :=
          dot_congr fun c hc => matrixGet_of_decDone h hdec hs hj hc
      _ = x j l := dot_unit h1 hm (fun c => hx c l) hj
  refine ⟨fun c hc => matrixGet_of_decDone h hdec hs hj hc, hslot, _, exec_getsrc hs hj, fun l hl => ?_⟩
  change (unpack (mOf s) (iobufSymbol (outputSlot j s))).getD l 0 = x j l
  rw [iobufSymbol_outputSlot hwf, hslot l hl]

end Sys2Proof.Machine
end

section
/-! ### ACCEPT of a new ESI (44_session_decode.md R242, R243) -/

namespace Sys2Proof.Machine

variable {s t u : State} {q : Nat} {e : Equation}

/-! #### What the elimination step leaves of the slots -/

theorem symWf_clearStored (h : symWf s.sym = true) (q p : Nat) (e : Equation) :
    symWf (clearStored q e s p).sym = true := by
  unfold clearStored
  split
  · exact writeSlot_wf h p _
  · exact h

/-- Clearing a column from stored row p writes the first SYMSZ bytes of slot p only, and that only if p is in
PIV. -/
theorem read_clearStored (h : symWf s.sym = true) (q : Nat) (e : Equation) {p i o : Nat}
    (hi : i ≠ p ∨ i ∉ s.piv ∨ symszOf s ≤ o) :
    (slotOf (clearStored q e s p).sym i).read o = (slotOf s.sym i).read o := by
  unfold clearStored
  split
  · rename_i hcond
    refine (read_storeEquation h p i o _).trans (if_neg ?_)
    rintro ⟨rfl, ho⟩
    rcases hi with hi | hi | hi
    · exact hi rfl
    · exact hi hcond.2.1
    · omega
  · rfl

theorem read_foldl_clearStored (q : Nat) (e : Equation) (l : List Nat) (h : symWf s.sym = true) :
    symWf (l.foldl (clearStored q e) s).sym = true ∧
      ∀ i o, i ∉ l ∨ i ∉ s.piv ∨ symszOf s ≤ o →
        (slotOf (l.foldl (clearStored q e) s).sym i).read o = (slotOf s.sym i).read o := by
  induction l generalizing s with
  | nil => exact ⟨h, fun _ _ _ => rfl⟩
  | cons p l ih =>
    have hframe := clearStored_frame q e s p
    have hpiv : (clearStored q e s p).piv = s.piv := hframe ▸ rfl
    have hsymsz : symszOf (clearStored q e s p) = symszOf s := by rw [hframe]; rfl
    obtain ⟨hwf, hread⟩ := ih (symWf_clearStored h q p e)
    refine ⟨hwf, fun i o hi => (hread i o ?_).trans (read_clearStored h q e ?_)⟩
    · rw [hpiv, hsymsz]
      exact hi.imp_left fun hl hmem => hl (List.mem_cons_of_mem _ hmem)
    · exact hi.imp_left fun hl heq => hl (heq ▸ List.mem_cons_self)

/-- An insertion at index q writes the first SYMSZ bytes of slot q and of the slots in PIV below K only. -/
theorem read_insertEquation (h : symWf s.sym = true) (q : Nat) (e : Equation) {i o : Nat}
    (hi : (i ≠ q ∧ (kOf s ≤ i ∨ i ∉ s.piv)) ∨ symszOf s ≤ o) :
    (slotOf (insertEquation q e s).sym i).read o = (slotOf s.sym i).read o := by
  obtain ⟨hwf, hread⟩ := read_foldl_clearStored q e (List.range (kOf s)) h
  have hsymsz : symszOf ((List.range (kOf s)).foldl (clearStored q e) s) = symszOf s := by
    rw [foldl_clearStored_frame]
    rfl
  refine (read_storeEquation hwf q i o e).trans ((if_neg ?_).trans (hread i o ?_))
  · rw [hsymsz]
    omega
  · rw [List.mem_range]
    rcases hi with ⟨-, hk | hp⟩ | ho
    · exact .inl (by omega)
    · exact .inr (.inl hp)
    · exact .inr (.inr ho)

/-! #### The two cases of the elimination step -/

theorem decInsert_of_leadingColumn_none (h : leadingColumn (reduceEquation s e).1 = none) :
    decInsert e s = some s := by
  simp only [decInsert, h]

theorem decInsert_of_leadingColumn_some (h : leadingColumn (reduceEquation s e).1 = some q) :
    ∃ v, gfInv (mOf s) (rowElem (reduceEquation s e).1 q) = some v ∧
      decInsert e s = some (insertEquation q (scaleEquation (mOf s) v (reduceEquation s e)) s) := by
  obtain ⟨v, hv⟩ := gfInv_isSome (mOf s) (leadingColumn_some h).2.1
  refine ⟨v, hv, ?_⟩
  simp only [decInsert, h, hv, scaleEquation]

theorem length_genRow_le {m k esi : Nat} {row : List Elem} (h : genRow m k esi = some row) :
    row.length ≤ k := by
  simp only [genRow] at h
  split at h
  · cases h
  · obtain rfl := Option.some.inj h
    exact List.foldlRecOn (motive := fun acc : List Elem => acc.length ≤ k) _ _ (length_zeroVec k).le
      fun acc hacc tb _ => by simp [hacc]

/-- The leading column of a reduced row is a column of the row. -/
theorem leadingColumn_reduceEquation_lt (h : leadingColumn (reduceEquation s e).1 = some q)
    (hlen : e.1.length ≤ kOf s) : q < kOf s := by
  have hred : (reduceEquation s e).1.length ≤ kOf s :=
    reduceEquation_induction (P := fun r => r.1.length ≤ kOf s) hlen fun r p _ hr => by
      simp [eqnAddMul, hr]
  exact (leadingColumn_some h).1.trans_le hred

/-- The elimination step writes the first SYMSZ bytes of slots below K only. -/
theorem read_decInsert (h : symWf s.sym = true) (hlen : e.1.length ≤ kOf s) (hu : decInsert e s = some u)
    {i o : Nat} (hio : kOf s ≤ i ∨ symszOf s ≤ o) :
    (slotOf u.sym i).read o = (slotOf s.sym i).read o := by
  rcases decInsert_some hu with ⟨-, rfl⟩ | ⟨q, v, hq, -, rfl⟩
  · rfl
  · have hqk := leadingColumn_reduceEquation_lt hq hlen
    exact read_insertEquation h q _ (hio.imp_left fun hk => ⟨by omega, .inl hk⟩)

/-- An insertion of a scaled equation, element by element (R243, steps c to e). -/
theorem rowInserted_insertEquation (h : RunInv s) (hs : s.state = .decAcc) (he : EquationFits s e)
    (hq : q < kOf s) (v : Elem) :
    RowInserted s (insertEquation q (scaleEquation (mOf s) v e) s) q v e := by
  have hd := dataFits_of_runInv h (by simp [hs])
  have helim := elimInside_of_runInv h hs
  have hfits := equationFits_scale hd.le he v
  obtain ⟨-, -, hget⟩ := insertEquation_spec helim hd.le (rowFits_of_isRow hfits.row) hq
  have hrow : ∀ c, rowElem (scaleEquation (mOf s) v e).1 c = gfMul (mOf s) v (rowElem e.1 c) :=
    fun c => rowElem_vecMul v e.1 c
  have hlane : ∀ l < lanesOf s,
      (scaleEquation (mOf s) v e).2.getD l 0 = gfMul (mOf s) v (e.2.getD l 0) :=
    fun l hl => getD_vecMul _ v e.2 l (he.data.1.symm ▸ hl)
  refine ⟨fun p c => ?_, fun p l hl => ?_⟩
  · rw [hget, hrow, hfits.row.1]
    by_cases hp : p = q ∧ c < kOf s
    · rw [if_pos hp, if_pos hp]
    · rw [if_neg hp, if_neg hp]
      by_cases hc : c < kOf s
      · have hpq : p ≠ q := fun hh => hp ⟨hh, hc⟩
        simp only [hpq, hc, ne_eq, not_false_eq_true, true_and, and_comm]
      · rw [rowElem_of_le (he.row.1.symm ▸ not_lt.1 hc), gfMul_zero, gfMul_zero, gfAdd_zero, ite_self,
          ite_self]
  · have hstored : unpack (mOf s) (slotSymbol (insertEquation q (scaleEquation (mOf s) v e) s) p) =
        slotLanes (insertEquation q (scaleEquation (mOf s) v e) s) p := by
      rw [insertEquation_frame]
      rfl
    rw [hstored, slotLanes_insertEquation hd helim hfits, ← hlane l hl]
    by_cases hp : p = q
    · rw [if_pos hp, if_pos hp]
    · rw [if_neg hp, if_neg hp]
      by_cases hmem : p < kOf s ∧ p ∈ s.piv
      · rw [if_pos hmem, if_pos hmem.symm, getD_vecAddMul]
        · rfl
        · exact (isRow_slotLanes hd.le p).1.symm ▸ hl
        · exact hfits.data.1.symm ▸ hl
      · rw [if_neg hmem, if_neg fun hh => hmem hh.symm]
        rfl

/-! #### The command -/

/-- Step 5 of ACCEPT writes STATE and STATUS, and always answers (R242). -/
theorem acceptOutcome_eq (u : State) : ∃ st o, acceptOutcome u = .next ((u.setState st).setStatus o) ∧
    if u.rank = u.k then st = .decDone ∧ o = .complete else st = u.state ∧ o = .incomplete := by
  unfold acceptOutcome
  split
  · exact ⟨_, _, rfl, rfl, rfl⟩
  · exact ⟨u.state, _, rfl, rfl, rfl⟩

theorem acceptNew_eq {esi : Nat} {row : List Elem} (hrow : genRow (mOf s) (kOf s) esi = some row)
    (hu : decInsert (row, unpack (mOf s) (iobufSymbol s)) (s.setSeen (indexInsert s.seen esi)) = some u) :
    acceptNew esi s = acceptOutcome u := by
  have hrow' : genRow (mOf (s.setSeen (indexInsert s.seen esi)))
      (kOf (s.setSeen (indexInsert s.seen esi))) esi = some row := hrow
  have hu' : decInsert (row, unpack (mOf (s.setSeen (indexInsert s.seen esi)))
      (iobufSymbol (s.setSeen (indexInsert s.seen esi)))) (s.setSeen (indexInsert s.seen esi)) = some u := hu
  simp only [acceptNew, hrow', hu']

/-- ACCEPT of a new ESI counts it, runs the elimination step, which never faults, and ends (R242). -/
theorem exec_accept_new {esi : Nat} {row : List Elem} (hs : s.state = .decAcc) (hesi : esi < nOf s)
    (hnew : esi ∉ s.seen) (hrow : genRow (mOf s) (kOf s) esi = some row) :
    ∃ u, decInsert (row, unpack (mOf s) (iobufSymbol s)) (s.setSeen (indexInsert s.seen esi)) = some u ∧
      exec (.accept esi) s = acceptOutcome u := by
  obtain ⟨u, hu⟩ := Option.ne_none_iff_exists'.1 (decInsert_ne_none
    (row, unpack (mOf s) (iobufSymbol s)) (s.setSeen (indexInsert s.seen esi)))
  refine ⟨u, hu, (guarded_ite_of_passed (sessionCheck_decode (.inl hs)) hesi).trans ?_⟩
  rw [if_neg (by simp [hs]), if_neg hnew, acceptNew_eq hrow hu]

/-- What ACCEPT of a new ESI leaves, where step a leaves leading column q of the row (R243). -/
theorem accept_inserted {esi : Nat} {row : List Elem} (hs : s.state = .decAcc) (hesi : esi < nOf s)
    (hrow : genRow (mOf s) (kOf s) esi = some row)
    (hu : decInsert (row, unpack (mOf s) (iobufSymbol s)) (s.setSeen (indexInsert s.seen esi)) = some u)
    (hq : leadingColumn (reducedSymbol s row).1 = some q) :
    u.rank = s.rank + 1 ∧ u.piv = indexInsert s.piv q ∧
      ∃ v, gfInv (mOf s) (rowElem (reducedSymbol s row).1 q) = some v ∧
        (symWf s.sym = true → ∀ i o, i ≠ q → i ∉ s.piv →
          (slotOf u.sym i).read o = (slotOf s.sym i).read o) ∧
        (RunInv s → RowInserted s u q v (reducedSymbol s row)) ∧
        (RunInv s → DecodeInv s → q ∉ s.piv) := by
  obtain ⟨v, hv, hins⟩ := decInsert_of_leadingColumn_some (s := s.setSeen (indexInsert s.seen esi)) hq
  obtain rfl := Option.some.inj (hins.symm.trans hu)
  have hqk : q < kOf s := leadingColumn_reduceEquation_lt (e := (row, _)) hq (length_genRow_le hrow)
  refine ⟨by rw [insertEquation_frame]; rfl, by rw [insertEquation_frame]; rfl, v, hv,
    fun hsym i o hi hp => read_insertEquation (s := s.setSeen _) hsym q _ (.inl ⟨hi, .inr hp⟩),
    fun h => ?_, fun h hdec hmem => ?_⟩
  · have hseen := runInv_setSeen h hs hesi
    exact rowInserted_insertEquation hseen hs (equationFits_reduce (runInv_field h (by simp [hs])).2
      (elimInside_of_runInv hseen hs).rows (equationFits_accept hseen (by simp [hs]) hrow)) hqk v
  · obtain ⟨h1, hm⟩ := runInv_field h (by simp [hs])
    obtain ⟨-, hclear⟩ := reduceEquation_spec h1 hm
      (e := (row, unpack (mOf s) (iobufSymbol s))) (rowFits_genRow hm hrow)
    exact (leadingColumn_some hq).2.1 (hclear (hdec (.inl hs)).1 q hmem hqk)

/-- Settles O29: SEEN and RXCOUNT are step 3 of ACCEPT, D, PIV, SYM and RANK its elimination step, STATE and
STATUS step 5. -/
theorem acceptNewSymbol : Obligations.AcceptNewSymbol := by
  intro s esi row hs hesi hnew hseen hsym hrow
  obtain ⟨u, hu, hexec⟩ := exec_accept_new hs hesi hnew hrow
  obtain ⟨st, o, hout, hend⟩ := acceptOutcome_eq u
  have hzero : leadingColumn (reducedSymbol s row).1 = none →
      u.d = s.d ∧ u.piv = s.piv ∧ u.sym = s.sym ∧ u.rank = s.rank := fun hnone => by
    have hkeep := decInsert_of_leadingColumn_none (s := s.setSeen (indexInsert s.seen esi)) hnone
    obtain rfl := Option.some.inj (hkeep.symm.trans hu)
    exact ⟨rfl, rfl, rfl, rfl⟩
  have hinserted := fun q => accept_inserted (q := q) hs hesi hrow hu
  have houtside := fun i o => read_decInsert (s := s.setSeen (indexInsert s.seen esi)) (i := i) (o := o)
    hsym (length_genRow_le hrow) hu
  obtain ⟨d, piv, rank, sym, rfl⟩ : ∃ d piv rank sym,
      u = ((s.setSeen (indexInsert s.seen esi)).setElim d piv rank).setSym sym :=
    ⟨_, _, _, _, decInsert_frame hu⟩
  refine ⟨_, hexec.trans hout, fun e => mem_indexInsert, length_indexInsert hnew, rfl, hzero,
    fun q hq => ?_, houtside, ?_, rfl⟩
  · obtain ⟨hrank, hpiv, v, hv, hslots, hrows, hq'⟩ := hinserted q hq
    refine ⟨leadingColumn_reduceEquation_lt (e := (row, _)) hq (length_genRow_le hrow), hrank, fun p => ?_,
      hslots hsym, v, hv, hrows, hq'⟩
    exact hpiv ▸ mem_indexInsert
  · split at hend
    · rw [if_pos (by assumption)]
      exact hend
    · rw [if_neg (by assumption)]
      exact ⟨hend.1.trans hs, hend.2⟩

end Sys2Proof.Machine
end

section
/-! ### The row space of the stored rows (44_session_decode.md R244, R247)

The stored rows are a reduced row echelon form of the space that they span, modulo P_m, and a space has only
one. So D and PIV depend on the row space alone; and each symbol adds its generator row to that space, in
whatever order. -/

namespace Sys2Proof.Machine

open Submodule

variable {m k : Nat} {d d' : Sparse (Sparse Elem)} {piv piv' : List Nat}
  {w : Fin k → AdjoinRoot (modulus m)}

/-! #### A row space has one reduced row echelon form -/

/-- The classes modulo P_m of the first k elements of row p of D. -/
noncomputable def storedVector (m k : Nat) (d : Sparse (Sparse Elem)) (p : Nat) :
    Fin k → AdjoinRoot (modulus m) :=
  residueRow m k (matrixRow d p k)

/-- The space that the stored rows span, modulo P_m. -/
noncomputable def rowSpace (m k : Nat) (d : Sparse (Sparse Elem)) (piv : List Nat) :
    Submodule (AdjoinRoot (modulus m)) (Fin k → AdjoinRoot (modulus m)) :=
  span _ (storedVector m k d '' {p | p ∈ piv})

/-- Row p of `piv` leads with a 1 at column p and is 0 at the other columns of `piv` (R244, items 1 and 2). -/
def EchelonRows (d : Sparse (Sparse Elem)) (piv : List Nat) : Prop :=
  ∀ p ∈ piv, matrixGet d p p = 1 ∧ (∀ q ∈ piv, q ≠ p → matrixGet d p q = 0) ∧
    ∀ c < p, matrixGet d p c = 0

theorem storedVector_apply (d : Sparse (Sparse Elem)) (p : Nat) (j : Fin k) :
    storedVector m k d p j = residue m (matrixGet d p j) := by
  rw [storedVector, residueRow, rowElem_matrixRow d p j.isLt]

theorem storedVector_eq_zero {p : Nat} {j : Fin k} (h : matrixGet d p j = 0) :
    storedVector m k d p j = 0 := by
  rw [storedVector_apply, h]
  exact residue_zero

theorem storedVector_eq_one {p : Nat} {j : Fin k} (h : matrixGet d p j = 1) :
    storedVector m k d p j = 1 := by
  rw [storedVector_apply, h]
  exact residue_one

theorem storedVector_mem {p : Nat} (hp : p ∈ piv) : storedVector m k d p ∈ rowSpace m k d piv :=
  subset_span (Set.mem_image_of_mem _ hp)

/-- A vector of the row space is the combination of the stored rows with its elements at their columns as
coefficients. -/
theorem eq_sum_of_mem_rowSpace (hech : EchelonRows d piv) (hlt : ∀ p ∈ piv, p < k)
    (hw : w ∈ rowSpace m k d piv) (j : Fin k) :
    w j = ∑ i ∈ Finset.univ.filter fun i : Fin k => (i : Nat) ∈ piv, w i * storedVector m k d i j := by
  induction hw using span_induction with
  | mem w hw =>
    obtain ⟨p, hp, rfl⟩ := hw
    obtain ⟨hone, hother, -⟩ := hech p hp
    rw [Finset.sum_eq_single_of_mem ⟨p, hlt p hp⟩ (Finset.mem_filter.2 ⟨Finset.mem_univ _, hp⟩),
      storedVector_eq_one (j := ⟨p, hlt p hp⟩) hone, one_mul]
    intro i hi hne
    rw [storedVector_eq_zero (hother i (Finset.mem_filter.1 hi).2 fun h => hne (Fin.ext h)), zero_mul]
  | zero => simp
  | add v w _ _ hv hw => simp only [Pi.add_apply, add_mul, Finset.sum_add_distrib, ← hv, ← hw]
  | smul f w _ hw => simp only [Pi.smul_apply, smul_eq_mul, mul_assoc, ← Finset.mul_sum, ← hw]

/-- A vector of the row space that is 0 at the columns of the stored rows is 0. -/
theorem eq_zero_of_mem_rowSpace (hech : EchelonRows d piv) (hlt : ∀ p ∈ piv, p < k)
    (hw : w ∈ rowSpace m k d piv) (hzero : ∀ i : Fin k, (i : Nat) ∈ piv → w i = 0) : w = 0 := by
  funext j
  rw [eq_sum_of_mem_rowSpace hech hlt hw]
  exact Finset.sum_eq_zero fun i hi => by rw [hzero i (Finset.mem_filter.1 hi).2, zero_mul]

/-- A vector of the row space leads at the column of a stored row. -/
theorem mem_piv_of_leads (hech : EchelonRows d piv) (hlt : ∀ p ∈ piv, p < k)
    (hw : w ∈ rowSpace m k d piv) {q : Fin k} (hq : w q ≠ 0) (hbelow : ∀ i < q, w i = 0) :
    (q : Nat) ∈ piv := by
  by_contra hnot
  refine hq ((eq_sum_of_mem_rowSpace hech hlt hw q).trans (Finset.sum_eq_zero fun i hi => ?_))
  have hi := (Finset.mem_filter.1 hi).2
  rcases lt_trichotomy i q with hlt' | rfl | hgt
  · rw [hbelow i hlt', zero_mul]
  · exact absurd hi hnot
  · rw [storedVector_eq_zero ((hech i hi).2.2 q hgt), mul_zero]

/-- The columns of the stored rows are those at which vectors of the row space lead. -/
theorem piv_subset_of_rowSpace_le (h1 : 1 ≤ m) (hm : m ≤ 16) (hech : EchelonRows d piv)
    (hech' : EchelonRows d' piv') (hlt : ∀ p ∈ piv, p < k) (hlt' : ∀ p ∈ piv', p < k)
    (hle : rowSpace m k d' piv' ≤ rowSpace m k d piv) : ∀ p ∈ piv', p ∈ piv := by
  intro p hp
  obtain ⟨hone, -, hbelow⟩ := hech' p hp
  refine mem_piv_of_leads (q := ⟨p, hlt' p hp⟩) hech hlt (hle (storedVector_mem hp)) ?_ fun i hi =>
    storedVector_eq_zero (hbelow i hi)
  rw [storedVector_eq_one hone]
  exact one_ne_zero_modulo h1 hm

/-- Stored rows with the same row space have the same columns. -/
theorem mem_piv_iff_of_rowSpace_eq (h1 : 1 ≤ m) (hm : m ≤ 16) (hech : EchelonRows d piv)
    (hech' : EchelonRows d' piv') (hlt : ∀ p ∈ piv, p < k) (hlt' : ∀ p ∈ piv', p < k)
    (heq : rowSpace m k d piv = rowSpace m k d' piv') (p : Nat) : p ∈ piv ↔ p ∈ piv' :=
  ⟨piv_subset_of_rowSpace_le h1 hm hech' hech hlt' hlt heq.le p,
    piv_subset_of_rowSpace_le h1 hm hech hech' hlt hlt' heq.ge p⟩

/-- Stored rows with the same columns and the same row space are the same. -/
theorem matrixGet_eq_of_rowSpace_eq (h1 : 1 ≤ m) (hm : m ≤ 16) (hech : EchelonRows d piv)
    (hech' : EchelonRows d' piv) (hlt : ∀ p ∈ piv, p < k) (hd : RowsInside k m d) (hd' : RowsInside k m d')
    (heq : rowSpace m k d piv = rowSpace m k d' piv) {p c : Nat} (hp : p ∈ piv) (hc : c < k) :
    matrixGet d p c = matrixGet d' p c := by
  obtain ⟨hone, hother, -⟩ := hech p hp
  obtain ⟨hone', hother', -⟩ := hech' p hp
  have hsub : storedVector m k d p - storedVector m k d' p = 0 :=
    eq_zero_of_mem_rowSpace hech hlt (sub_mem (storedVector_mem hp) (heq.ge (storedVector_mem hp)))
      fun i hi => by
        rw [Pi.sub_apply, sub_eq_zero]
        by_cases hip : (i : Nat) = p
        · subst hip
          rw [storedVector_eq_one hone, storedVector_eq_one hone']
        · rw [storedVector_eq_zero (hother i hi hip), storedVector_eq_zero (hother' i hi hip)]
  have hres := congrFun (sub_eq_zero.1 hsub) ⟨c, hc⟩
  rw [storedVector_apply, storedVector_apply] at hres
  exact residue_injective h1 hm (isElem_matrixGet hd p c) (isElem_matrixGet hd' p c) hres

/-! #### What the elimination step adds -/

variable {s t u : State} {e g : Equation}

/-- The space of the stored rows of a state. -/
noncomputable def stateSpace (m k : Nat) (s : State) :
    Submodule (AdjoinRoot (modulus m)) (Fin k → AdjoinRoot (modulus m)) :=
  rowSpace m k s.d s.piv

theorem residueRow_eqnAddMul (hd : DataFits s) (he : EquationFits s e) (hg : EquationFits s g) {f : Elem}
    (hf : IsElem (mOf s) f) : residueRow (mOf s) (kOf s) (eqnAddMul (mOf s) e f g).1 =
      residueRow (mOf s) (kOf s) e.1 + residue (mOf s) f • residueRow (mOf s) (kOf s) g.1 :=
  residueRow_vecAddMul hd.pos hd.le hf he.row hg.row

/-- Step a changes a row by a vector of the row space. -/
theorem reduceEquation_sub_mem (hd : DataFits s) (h : RowsInside (kOf s) (mOf s) s.d)
    (he : EquationFits s e) : residueRow (mOf s) (kOf s) (reduceEquation s e).1 -
      residueRow (mOf s) (kOf s) e.1 ∈ stateSpace (mOf s) (kOf s) s := by
  refine (reduceEquation_induction (P := fun r => EquationFits s r ∧
    residueRow (mOf s) (kOf s) r.1 - residueRow (mOf s) (kOf s) e.1 ∈ stateSpace (mOf s) (kOf s) s)
    ⟨he, by rw [sub_self]; exact zero_mem _⟩ fun r p hp ⟨hr, hmem⟩ => ?_).2
  have hfits := equationFits_stored hd.le h p
  refine ⟨equationFits_eqnAddMul hd.le hr hfits _, ?_⟩
  rw [residueRow_eqnAddMul hd hr hfits (isElem_of_isRow hr.row p), add_sub_right_comm]
  exact add_mem hmem (smul_mem _ _ (storedVector_mem hp))

/-- Let r be v plus a vector of the span of the `y p`, and `z q` and r be multiples of each other. Then `z q` and
the `z p`, each `y p` plus a multiple of `z q`, span what the `y p` and v span. -/
theorem span_eliminated {R V : Type} [CommRing R] [AddCommGroup V] [Module R V] {P : Set Nat}
    {y z : Nat → V} {q : Nat} {f : Nat → R} {a b : R} {r v : V} (hz : z q = a • r) (hr : r = b • z q)
    (hchanged : ∀ p ∈ P, z p = y p + f p • z q) (hrv : r - v ∈ span R (y '' P)) :
    span R (z '' insert q P) = span R (y '' P) ⊔ span R {v} := by
  have hq : z q ∈ span R (z '' insert q P) :=
    subset_span (Set.mem_image_of_mem z (Set.mem_insert q P))
  have hold : span R (y '' P) ≤ span R (z '' insert q P) := by
    refine span_le.2 ?_
    rintro _ ⟨p, hp, rfl⟩
    rw [eq_sub_of_add_eq (hchanged p hp).symm]
    exact sub_mem (subset_span (Set.mem_image_of_mem z (Set.mem_insert_of_mem q hp))) (smul_mem _ _ hq)
  have hnew : z q ∈ span R (y '' P) ⊔ span R {v} := by
    rw [hz, ← sub_add_cancel r v]
    exact smul_mem _ _ (add_mem (mem_sup_left hrv) (mem_sup_right (mem_span_singleton_self v)))
  refine le_antisymm (span_le.2 ?_) (sup_le hold ((span_singleton_le_iff_mem _ _).2 ?_))
  · rintro _ ⟨p, rfl | hp, rfl⟩
    · exact hnew
    · rw [hchanged p hp]
      exact add_mem (mem_sup_left (subset_span (Set.mem_image_of_mem y hp))) (smul_mem _ _ hnew)
  · rw [← sub_sub_cancel r v]
    exact sub_mem (hr ▸ smul_mem _ _ hq) (hold hrv)

/-- The elimination step adds the row of the equation to the row space. -/
theorem stateSpace_decInsert (h : RunInv s) (hs : s.state = .decAcc) (hech : Echelon s)
    (he : EquationFits s e) (hu : decInsert e s = some u) :
    stateSpace (mOf s) (kOf s) u =
      stateSpace (mOf s) (kOf s) s ⊔ span _ {residueRow (mOf s) (kOf s) e.1} := by
  have hd := dataFits_of_runInv h (by simp [hs])
  have helim := elimInside_of_runInv h hs
  have hfits := equationFits_reduce hd.le helim.rows he
  have hchange := reduceEquation_sub_mem hd helim.rows he
  rcases decInsert_equations h hs hech he hu with ⟨rfl, hzero⟩ | ⟨q, v, hins, -, -, hv, hrow, hrows⟩
  · have hred : residueRow (mOf u) (kOf u) (reduceEquation u e).1 = 0 := funext fun j => by
      rw [residueRow, hzero]
      exact residue_zero
    rw [hred, zero_sub, neg_mem_iff] at hchange
    exact (sup_eq_left.2 ((span_singleton_le_iff_mem _ _).2 hchange)).symm
  · have hvm := gfInv_lt hd.pos hd.le hv
    have hlead := isElem_of_isRow hfits.row q
    have hpiv : {p | p ∈ u.piv} = insert q {p | p ∈ s.piv} := by
      rw [hins, insertEquation_frame]
      exact Set.ext fun p => mem_indexInsert
    have hk : kOf u = kOf s := by
      rw [hins, insertEquation_frame]
      rfl
    have hstored : ∀ p, storedVector (mOf s) (kOf s) u.d p =
        residueRow (mOf s) (kOf s) (storedEquation u p).1 := fun p => by
      rw [storedEquation, hk, storedVector]
    have hnew : storedVector (mOf s) (kOf s) u.d q =
        residue (mOf s) v • residueRow (mOf s) (kOf s) (reduceEquation s e).1 := by
      rw [hstored, hrow, scaleEquation, residueRow_vecMul hd.pos hd.le hvm hfits.row]
    have hunit : residue (mOf s) (rowElem (reduceEquation s e).1 q) * residue (mOf s) v = 1 := by
      rw [← residue_gfMul hd.pos hd.le hlead hvm, gfMul_comm hd.pos hd.le hlead hvm,
        gfMul_gfInv hd.pos hd.le hlead hv]
      exact residue_one
    rw [stateSpace, rowSpace, hpiv]
    refine span_eliminated (f := fun p => residue (mOf s) (matrixGet s.d p q)) hnew
      (b := residue (mOf s) (rowElem (reduceEquation s e).1 q)) ?_ (fun p hp => ?_) hchange
    · rw [hnew, smul_smul, hunit, one_smul]
    · rw [hstored, hstored, hrows p hp, hrow]
      exact residueRow_eqnAddMul hd (equationFits_stored hd.le helim.rows p)
        (equationFits_scale hd.le hfits v) (isElem_matrixGet helim.rows p q)

end Sys2Proof.Machine
end

section
/-! ### The order of two symbols (44_session_decode.md R247)

ACCEPT reads IOBUF only for the symbol's data, and its effect on a decode session is that of one elimination
step or nothing. So two ACCEPTs add the same two generator rows to the row space in either order, and the row
space fixes D and PIV; with correct symbols, it fixes SYM too. -/

namespace Sys2Proof.Machine

open Submodule

variable {s t t' u : State} {esi : Nat} {data : List Elem} {m k : Nat}

/-! #### ACCEPT as an elimination step -/

theorem clearStored_setIobuf (q : Nat) (e : Equation) (s : State) (io : Memory) (p : Nat) :
    clearStored q e (s.setIobuf io) p = (clearStored q e s p).setIobuf io := by
  unfold clearStored
  refine Eq.trans ?_ (apply_ite (fun u : State => u.setIobuf io) _ _ _).symm
  rfl

theorem insertEquation_setIobuf (q : Nat) (e : Equation) (s : State) (io : Memory) :
    insertEquation q e (s.setIobuf io) = (insertEquation q e s).setIobuf io := by
  have hfold : ∀ l : List Nat, l.foldl (clearStored q e) (s.setIobuf io) =
      (l.foldl (clearStored q e) s).setIobuf io := fun l => by
    induction l generalizing s with
    | nil => rfl
    | cons p l ih => rw [List.foldl_cons, List.foldl_cons, clearStored_setIobuf, ih]
  simp only [insertEquation, hfold]
  rfl

/-- The elimination step does not look at IOBUF. -/
theorem decInsert_setIobuf (e : Equation) (s : State) (io : Memory) :
    decInsert e (s.setIobuf io) = (decInsert e s).map fun u => u.setIobuf io := by
  cases hq : leadingColumn (reduceEquation s e).1 with
  | none =>
    rw [decInsert_of_leadingColumn_none hq, decInsert_of_leadingColumn_none (s := s.setIobuf io) hq]
    rfl
  | some q =>
    obtain ⟨v, hv, hins⟩ := decInsert_of_leadingColumn_some hq
    obtain ⟨v', hv', hins'⟩ := decInsert_of_leadingColumn_some (s := s.setIobuf io) hq
    obtain rfl : v = v' := Option.some.inj (hv.symm.trans hv')
    rw [hins, hins', insertEquation_setIobuf]
    rfl

/-- Nor does step 5 of ACCEPT. -/
theorem acceptOutcome_setIobuf {io : Memory} (h : acceptOutcome (u.setIobuf io) = .next t) :
    acceptOutcome u = .next (t.setIobuf u.iobuf) := by
  rcases acceptOutcome_next h with ⟨heq, rfl⟩ | ⟨hne, rfl⟩
  · exact if_pos heq
  · exact if_neg hne

/-- What ACCEPT of an ESI in range with the given data makes of a decode session, IOBUF aside. -/
inductive AcceptStep (s : State) (esi : Nat) (data : List Elem) : State → Prop
  /-- Only STATUS changes: the session is complete or has seen the ESI. -/
  | kept (o : Status) : s.state = .decDone ∨ esi ∈ s.seen → AcceptStep s esi data (s.setStatus o)
  /-- A new ESI is counted and its equation eliminated. -/
  | inserted (row : List Elem) (u t : State) : s.state = .decAcc → esi ∉ s.seen →
      genRow (mOf s) (kOf s) esi = some row →
      decInsert (row, data) (s.setSeen (indexInsert s.seen esi)) = some u →
      acceptOutcome u = .next t → AcceptStep s esi data t

/-- A state of a decode session that satisfies the invariants. -/
structure InDecode (s : State) : Prop where
  inv : RunInv s
  dec : DecodeInv s
  state : s.state = .decAcc ∨ s.state = .decDone

theorem ne_idle_of_inDecode (h : InDecode s) : s.state ≠ .idle := by
  rcases h.state with hs | hs <;> simp [hs]

/-- ACCEPT with a symbol in IOBUF is an elimination step with the symbol's elements as data. -/
theorem acceptStep_of_exec {io : Memory} (h : InDecode s) (hesi : esi < nOf s)
    (ht : exec (.accept esi) (s.setIobuf io) = .next t) :
    AcceptStep s esi (unpack (mOf s) (io.readBytes 0 (symszOf s))) (t.setIobuf s.iobuf) := by
  rcases execAccept_next ht with
    ⟨o, hc, -⟩ | ⟨-, hn, -⟩ | ⟨hs, -, rfl⟩ | ⟨-, -, hmem, rfl⟩ | ⟨hs, -, hnew, hacc⟩
  · cases (sessionCheck_decode (s := s.setIobuf io) h.state).symm.trans hc
  · exact absurd hesi hn
  · exact .kept _ (.inl hs)
  · exact .kept _ (.inr hmem)
  · rcases acceptNew_next hacc with ⟨hnone, -⟩ | ⟨row, u', hrow, hu', hout⟩
    · exact absurd hnone (runInv_genRow h.inv (ne_idle_of_inDecode h) esi)
    · have hsame := decInsert_setIobuf (row, unpack (mOf s) (io.readBytes 0 (symszOf s)))
        (s.setSeen (indexInsert s.seen esi)) io
      obtain ⟨u, hu, rfl⟩ := Option.map_eq_some_iff.1 (hsame.symm.trans hu')
      have hio : u.iobuf = s.iobuf := by
        rw [decInsert_frame hu]
        rfl
      exact .inserted row u _ hs hnew hrow hu (hio ▸ acceptOutcome_setIobuf hout)

/-! #### What an elimination step keeps and adds -/

theorem inDecode_acceptStep (h : InDecode s) (hesi : esi < nOf s) (ht : AcceptStep s esi data t) :
    InDecode t := by
  cases ht with
  | kept o _ => exact ⟨h.inv, h.dec, h.state⟩
  | inserted row u t hs hnew hrow hu hout =>
    exact ⟨runInv_accept h.inv hs hesi hrow hu hout,
      decodeInv_accept h.inv h.dec hs hesi hnew hrow hu hout,
      (accept_frame hu hout).1.symm.imp_left fun heq => heq.trans hs⟩

/-- Two states have the same session parameters (R31). -/
structure SameSession (s t : State) : Prop where
  m : t.m = s.m
  k : t.k = s.k
  n : t.n = s.n
  symsz : t.symsz = s.symsz

theorem SameSession.mOf (h : SameSession s t) : mOf t = mOf s := congrArg BitVec.toNat h.m

theorem SameSession.kOf (h : SameSession s t) : kOf t = kOf s := congrArg BitVec.toNat h.k

theorem SameSession.nOf (h : SameSession s t) : nOf t = nOf s := congrArg BitVec.toNat h.n

theorem SameSession.symszOf (h : SameSession s t) : symszOf t = symszOf s :=
  congrArg BitVec.toNat h.symsz

theorem SameSession.lanesOf (h : SameSession s t) : lanesOf t = lanesOf s := by
  rw [Machine.lanesOf, h.mOf, h.symszOf, Machine.lanesOf]

theorem sameSession_acceptStep (ht : AcceptStep s esi data t) : SameSession s t := by
  cases ht with
  | kept o _ => exact ⟨rfl, rfl, rfl, rfl⟩
  | inserted row u t _ _ _ hu hout =>
    obtain ⟨-, -, hk, hn, hz, hm, -⟩ := accept_frame hu hout
    exact ⟨hm, hk, hn, hz⟩

/-- In DEC_ACC the ESI is in SEEN afterwards (R242, step 3). -/
theorem seen_acceptStep (h : InDecode s) (hs : s.state = .decAcc) (ht : AcceptStep s esi data t) :
    t.seen = indexInsert s.seen esi := by
  have ⟨_, ⟨_, _, _, _, _, _, hwf⟩, _⟩ := h.inv
  cases ht with
  | kept o hkept => exact (indexInsert_of_mem hwf (hkept.resolve_left (by simp [hs]))).symm
  | inserted row u t _ _ _ hu hout =>
    rw [decInsert_frame hu] at hout
    rcases acceptOutcome_next hout with ⟨-, rfl⟩ | ⟨-, rfl⟩ <;> rfl

/-- What an ESI adds to the row space: its generator row, unless it was seen before. -/
noncomputable def newSpace (m k : Nat) (seen : List Nat) (esi : Nat) :
    Submodule (AdjoinRoot (modulus m)) (Fin k → AdjoinRoot (modulus m)) :=
  if esi ∈ seen then ⊥ else span _ {residueRow m k ((genRow m k esi).getD [])}

/-- In DEC_DONE the stored rows span everything (R245). -/
theorem stateSpace_of_decDone (h : InDecode s) (hs : s.state = .decDone) :
    stateSpace (mOf s) (kOf s) s = ⊤ := by
  rw [eq_top_iff, ← (Pi.basisFun (AdjoinRoot (modulus (mOf s))) (Fin (kOf s))).span_eq]
  refine span_le.2 ?_
  rintro _ ⟨i, rfl⟩
  have hunit : Pi.basisFun (AdjoinRoot (modulus (mOf s))) (Fin (kOf s)) i =
      storedVector (mOf s) (kOf s) s.d i := funext fun j => by
    have helem := matrixGet_of_decDone h.inv h.dec hs i.isLt j.isLt
    rw [Pi.basisFun_apply]
    by_cases hji : j = i
    · subst hji
      rw [Pi.single_eq_same, storedVector_eq_one (helem.trans (if_pos rfl))]
    · rw [Pi.single_eq_of_ne hji, storedVector_eq_zero (helem.trans (if_neg fun hh => hji (Fin.ext hh)))]
  rw [hunit]
  exact storedVector_mem (mem_piv_of_decDone h.inv h.dec hs i.isLt)

/-- ACCEPT adds to the row space what its ESI adds. -/
theorem stateSpace_acceptStep (h : InDecode s) (hesi : esi < nOf s)
    (hdata : IsRow (mOf s) (lanesOf s) data) (ht : AcceptStep s esi data t) :
    stateSpace (mOf s) (kOf s) t =
      stateSpace (mOf s) (kOf s) s ⊔ newSpace (mOf s) (kOf s) s.seen esi := by
  cases ht with
  | kept o hkept =>
    change stateSpace (mOf s) (kOf s) s = _
    rcases hkept with hs | hmem
    · rw [stateSpace_of_decDone h hs, top_sup_eq]
    · rw [newSpace, if_pos hmem, sup_bot_eq]
  | inserted row u t hs hnew hrow hu hout =>
    have hseen := runInv_setSeen h.inv hs hesi
    have hfits : EquationFits (s.setSeen (indexInsert s.seen esi)) (row, data) :=
      ⟨(equationFits_accept hseen (by simp [hs]) hrow).row, hdata⟩
    rw [newSpace, if_neg hnew, hrow, Option.getD_some]
    have hspace := stateSpace_decInsert hseen hs (h.dec (.inl hs)).1 hfits hu
    rcases acceptOutcome_next hout with ⟨-, rfl⟩ | ⟨-, rfl⟩ <;> exact hspace

/-- ACCEPT of a correct symbol keeps the stored equations valid (R244, item 4). -/
theorem equationsHold_acceptStep {x : Nat → Nat → Elem} (h : InDecode s) (hesi : esi < nOf s)
    (hdata : IsRow (mOf s) (lanesOf s) data) (ht : AcceptStep s esi data t)
    (hx : ∀ j l, IsElem (mOf s) (x j l)) (hstored : EquationsHold s x)
    (hmatch : ∀ row, genRow (mOf s) (kOf s) esi = some row → EquationHolds s x (row, data)) :
    EquationsHold t x := by
  cases ht with
  | kept o _ => exact hstored
  | inserted row u t hs hnew hrow hu hout =>
    have hseen := runInv_setSeen h.inv hs hesi
    have hfits : EquationFits (s.setSeen (indexInsert s.seen esi)) (row, data) :=
      ⟨(equationFits_accept hseen (by simp [hs]) hrow).row, hdata⟩
    have hkept := equationsHold_decInsert hseen hs (h.dec (.inl hs)).1 hx hfits hstored
      (hmatch row hrow) hu
    rcases acceptOutcome_next hout with ⟨-, rfl⟩ | ⟨-, rfl⟩ <;> exact hkept

/-! #### Stores that are fixed by what they hold -/

/-- Sets of indices with the same members are the same list. -/
theorem indexSet_ext {l l' : List Nat} (h : indexSetWf l = true) (h' : indexSetWf l' = true)
    (hmem : ∀ i, i ∈ l ↔ i ∈ l') : l = l' := by
  have hperm : l.Perm l' :=
    (List.perm_ext_iff_of_nodup (nodup_of_indexSetWf h) (nodup_of_indexSetWf h')).2 hmem
  refine hperm.eq_of_pairwise (le := (· < ·)) (fun a b _ _ hab hba => absurd hab hba.asymm)
    (of_decide_eq_true h) (of_decide_eq_true h')

/-- Matrices in canonical form with the same elements are equal. -/
theorem matrix_ext {d d' : Sparse (Sparse Elem)} (h : matrixWf d = true) (h' : matrixWf d' = true)
    (hget : ∀ r c, matrixGet d r c = matrixGet d' r c) : d = d' :=
  sparse_ext (matrixWf_iff.1 h).1 (matrixWf_iff.1 h').1 fun r =>
    sparse_ext (sparseGet_all (p := sparseWf (0 : Elem)) rfl (matrixWf_iff.1 h).2 r)
      (sparseGet_all (p := sparseWf (0 : Elem)) rfl (matrixWf_iff.1 h').2 r) (hget r)

/-- Symbol stores in canonical form with the same bytes are equal. -/
theorem sym_ext {sym sym' : Sparse Memory} (h : symWf sym = true) (h' : symWf sym' = true)
    (hread : ∀ i o, (slotOf sym i).read o = (slotOf sym' i).read o) : sym = sym' :=
  sparse_ext (symWf_iff.1 h).1 (symWf_iff.1 h').1 fun i =>
    Memory.ext_read (slotOf_wf h i) (slotOf_wf h' i) (hread i)

/-- D is zero from column k up. -/
theorem matrixGet_of_le {d : Sparse (Sparse Elem)} (h : RowsInside k m d) (r : Nat) {c : Nat}
    (hc : k ≤ c) : matrixGet d r c = 0 := by
  rcases sparseGet_mem 0 (sparseGet [] d r) c with hzero | hmem
  · exact hzero
  · rcases sparseGet_mem [] d r with hnil | hrow
    · simp [hnil] at hmem
    · exact absurd ((h _ hrow).2 _ hmem).1 (not_lt.2 hc)

/-- A slot is zero from byte `size` up. -/
theorem read_slotOf_of_le {sym : Sparse Memory} {slots size : Nat} (h : SlotsInside slots size sym)
    (i : Nat) {o : Nat} (ho : size ≤ o) : (slotOf sym i).read o = 0 := by
  rcases sparseGet_mem 0 (slotOf sym i) o with hzero | hmem
  · exact hzero
  · rcases sparseGet_mem [] sym i with hnil | hslot
    · simp [slotOf, hnil] at hmem
    · exact absurd ((h _ hslot).2 _ hmem) (not_lt.2 ho)

theorem slotOf_of_not_listed {sym : Sparse Memory} {i : Nat} (h : ∀ x ∈ sym, x.1 ≠ i) :
    slotOf sym i = [] :=
  (sparseGet_mem [] sym i).resolve_right fun hmem => h _ hmem rfl

/-! #### The row space fixes the session -/

theorem elimInside_of_inDecode (h : InDecode s) : ElimInside s := by
  obtain ⟨-, ⟨-, -, hsym, -, hd, -⟩, ⟨-, -, hsymin, -, hdin, -⟩, -, -, -, -, -, -, -, hdec⟩ := h.inv
  exact ⟨hsym, hd, fun x hx => ⟨(hdec h.state).2 x hx, (hsymin x hx).2⟩, hdin⟩

/-- RANK and STATE depend on PIV alone (R35, R242). -/
theorem state_eq_of_piv_eq (h : InDecode s) (h' : InDecode t) (hsame : SameSession s t)
    (hpiv : t.piv = s.piv) : t.rank = s.rank ∧ t.state = s.state := by
  obtain ⟨-, hrank, -, hacc, hdone⟩ := h.dec h.state
  obtain ⟨-, hrank', -, hacc', hdone'⟩ := h'.dec h'.state
  rw [hpiv, hsame.kOf] at hacc' hdone'
  refine ⟨by rw [hrank, hrank', hpiv], ?_⟩
  rcases h.state with hs | hs <;> rcases h'.state with ht | ht <;> rw [hs, ht]
  · exact absurd (hdone' ht) (hacc hs).ne
  · exact absurd (hdone hs) (hacc' ht).ne

/-- Decode sessions with the same parameters and the same row space have the same D and PIV. -/
theorem elim_eq_of_stateSpace_eq (h : InDecode s) (h' : InDecode t) (hsame : SameSession s t)
    (heq : stateSpace (mOf s) (kOf s) s = stateSpace (mOf s) (kOf s) t) :
    t.d = s.d ∧ t.piv = s.piv := by
  obtain ⟨h1, hm⟩ := runInv_field h.inv (ne_idle_of_inDecode h)
  have helim := elimInside_of_inDecode h
  have helim' := elimInside_of_inDecode h'
  obtain ⟨⟨hlist, -, hech⟩, -⟩ := h.dec h.state
  obtain ⟨⟨hlist', -, hech'⟩, -⟩ := h'.dec h'.state
  have ⟨_, ⟨_, _, _, _, _, hwf, _⟩, _⟩ := h.inv
  have ⟨_, ⟨_, _, _, _, _, hwf', _⟩, _⟩ := h'.inv
  have hlt := runInv_piv_lt h.inv
  have hlt' := runInv_piv_lt h'.inv
  have hrows := helim'.rows
  rw [hsame.kOf] at hlt' hrows
  rw [hsame.mOf] at hrows
  have hpiv : t.piv = s.piv := indexSet_ext hwf' hwf
    (mem_piv_iff_of_rowSpace_eq h1 hm hech' hech hlt' hlt heq.symm)
  refine ⟨matrix_ext helim'.canonicalD helim.canonicalD fun r c => ?_, hpiv⟩
  rw [stateSpace, stateSpace, hpiv] at heq
  rw [hpiv] at hlist' hech'
  by_cases hr : r ∈ s.piv
  · by_cases hc : c < kOf s
    · exact matrixGet_eq_of_rowSpace_eq h1 hm hech' hech hlt hrows helim.rows heq.symm hr hc
    · rw [matrixGet_of_le hrows r (not_lt.1 hc), matrixGet_of_le helim.rows r (not_lt.1 hc)]
  · rw [matrixGet_of_not_listed fun x hx (hxr : x.1 = r) => hr (hxr ▸ hlist' x hx),
      matrixGet_of_not_listed fun x hx (hxr : x.1 = r) => hr (hxr ▸ hlist x hx)]

/-- A slot's symbol is its elements, packed (R152). -/
theorem pack_slotLanes (hd : DataFits s) (p : Nat) :
    pack (mOf s) (slotLanes s p) (symszOf s) = slotSymbol s p := by
  have hback := pack_unpack (s := slotSymbol s p) hd.pos hd.le (by rw [length_slotSymbol, hd.dvd])
  rwa [length_slotSymbol] at hback

/-- Equal rows whose equations hold of the same source symbols have the same data. -/
theorem slotLanes_eq_of_equationsHold {x : Nat → Nat → Elem} {p : Nat} (hm : mOf s ≤ 16)
    (hsame : SameSession s t) (hd : t.d = s.d) (hp : p ∈ s.piv) (hp' : p ∈ t.piv) (hx : EquationsHold s x)
    (hx' : EquationsHold t x) : slotLanes t p = slotLanes s p := by
  have hlen : (slotLanes s p).length = lanesOf s := (isRow_slotLanes hm p).1
  have hlen' : (slotLanes t p).length = lanesOf s :=
    hsame.lanesOf ▸ (isRow_slotLanes (hsame.mOf.trans_le hm) p).1
  refine List.ext_getElem (hlen'.trans hlen.symm) fun l hl hl' => ?_
  have hlt : l < lanesOf s := hlen ▸ hl'
  have hlane' := hx' p hp' l (hsame.lanesOf.symm ▸ hlt :)
  rw [hd, hsame.kOf, hsame.mOf] at hlane'
  rw [← List.getD_eq_getElem _ 0 hl, ← List.getD_eq_getElem _ 0 hl', slotLanes, slotLanes, hsame.mOf]
  exact hlane'.trans (hx p hp l hlt).symm

/-- Where the stored equations hold of the same source symbols, the rows fix the data. -/
theorem sym_eq_of_elim_eq {x : Nat → Nat → Elem} (h : InDecode s) (h' : InDecode t)
    (hsame : SameSession s t) (hd : t.d = s.d) (hpiv : t.piv = s.piv) (hx : EquationsHold s x)
    (hx' : EquationsHold t x) : t.sym = s.sym := by
  have hfit := dataFits_of_runInv h.inv (ne_idle_of_inDecode h)
  have hfit' := dataFits_of_runInv h'.inv (ne_idle_of_inDecode h')
  have helim := elimInside_of_inDecode h
  have helim' := elimInside_of_inDecode h'
  obtain ⟨⟨-, hlist, -⟩, -⟩ := h.dec h.state
  obtain ⟨⟨-, hlist', -⟩, -⟩ := h'.dec h'.state
  have hslots := helim'.slots
  rw [hsame.kOf, hsame.symszOf] at hslots
  rw [hpiv] at hlist'
  have hsymbol : ∀ p ∈ s.piv, slotSymbol t p = slotSymbol s p := fun p hp => by
    rw [← pack_slotLanes hfit', hsame.mOf, hsame.symszOf,
      slotLanes_eq_of_equationsHold hfit.le hsame hd hp (hpiv ▸ hp) hx hx', pack_slotLanes hfit]
  refine sym_ext helim'.canonicalSym helim.canonicalSym fun i o => ?_
  by_cases hi : i ∈ s.piv
  · by_cases ho : o < symszOf s
    · have hbyte := congrArg (·.getD o 0) (hsymbol i hi)
      simpa only [getD_slotSymbol, hsame.symszOf, if_pos ho] using hbyte
    · rw [read_slotOf_of_le hslots i (not_lt.1 ho), read_slotOf_of_le helim.slots i (not_lt.1 ho)]
  · rw [slotOf_of_not_listed fun x hx (hxi : x.1 = i) => hi (hxi ▸ hlist' x hx),
      slotOf_of_not_listed fun x hx (hxi : x.1 = i) => hi (hxi ▸ hlist x hx)]

/-! #### Two ACCEPTs -/

variable {s₁ s₂ : State} {esi' : Nat} {data' : List Elem} {x : Nat → Nat → Elem}

/-- What two symbols in turn make of a session in DEC_ACC. -/
structure AcceptedBoth (s s₁ : State) (esi esi' : Nat) (t : State) : Prop where
  session : InDecode t
  same : SameSession s t
  space : stateSpace (mOf s) (kOf s) t = stateSpace (mOf s) (kOf s) s ⊔
    newSpace (mOf s) (kOf s) s.seen esi ⊔ newSpace (mOf s) (kOf s) s.seen esi'
  seen : s₁.state ≠ .decDone → t.seen = indexInsert (indexInsert s.seen esi) esi'

/-- Once an ESI is counted, what another adds is what it would have added before. -/
theorem newSpace_indexInsert (m k : Nat) (seen : List Nat) (esi esi' : Nat) :
    newSpace m k seen esi ⊔ newSpace m k (indexInsert seen esi) esi' =
      newSpace m k seen esi ⊔ newSpace m k seen esi' := by
  by_cases heq : esi' = esi
  · subst heq
    rw [sup_idem, newSpace, newSpace, if_pos (mem_indexInsert.2 (.inl rfl)), sup_bot_eq]
  · simp only [newSpace, mem_indexInsert, heq, false_or]

theorem acceptedBoth (h : InDecode s) (hs : s.state = .decAcc) (hesi : esi < nOf s) (hesi' : esi' < nOf s)
    (hdata : IsRow (mOf s) (lanesOf s) data) (hdata' : IsRow (mOf s) (lanesOf s) data')
    (h₁ : AcceptStep s esi data s₁) (h₂ : AcceptStep s₁ esi' data' t) : AcceptedBoth s s₁ esi esi' t := by
  have hd₁ := inDecode_acceptStep h hesi h₁
  have hsame₁ := sameSession_acceptStep h₁
  have hsame₂ := sameSession_acceptStep h₂
  have hesi₁ : esi' < nOf s₁ := hsame₁.nOf ▸ hesi'
  have hseen₁ := seen_acceptStep h hs h₁
  have hspace₂ := stateSpace_acceptStep hd₁ hesi₁ (by rwa [hsame₁.mOf, hsame₁.lanesOf]) h₂
  rw [hsame₁.mOf, hsame₁.kOf, hseen₁, stateSpace_acceptStep h hesi hdata h₁, sup_assoc,
    newSpace_indexInsert, ← sup_assoc] at hspace₂
  refine ⟨inDecode_acceptStep hd₁ hesi₁ h₂, ⟨hsame₂.m.trans hsame₁.m, hsame₂.k.trans hsame₁.k,
    hsame₂.n.trans hsame₁.n, hsame₂.symsz.trans hsame₁.symsz⟩, hspace₂, fun hne => ?_⟩
  rw [seen_acceptStep hd₁ (hd₁.state.resolve_right hne) h₂, hseen₁]

/-- Two correct symbols keep the stored equations valid. -/
theorem equationsHold_acceptedBoth (h : InDecode s) (hesi : esi < nOf s) (hesi' : esi' < nOf s)
    (hdata : IsRow (mOf s) (lanesOf s) data) (hdata' : IsRow (mOf s) (lanesOf s) data')
    (h₁ : AcceptStep s esi data s₁) (h₂ : AcceptStep s₁ esi' data' t)
    (hx : ∀ j l, IsElem (mOf s) (x j l)) (hstored : EquationsHold s x)
    (hmatch : ∀ row, genRow (mOf s) (kOf s) esi = some row → EquationHolds s x (row, data))
    (hmatch' : ∀ row, genRow (mOf s) (kOf s) esi' = some row → EquationHolds s x (row, data')) :
    EquationsHold t x := by
  have hsame := sameSession_acceptStep h₁
  refine equationsHold_acceptStep (inDecode_acceptStep h hesi h₁) (hsame.nOf ▸ hesi')
    (by rwa [hsame.mOf, hsame.lanesOf]) h₂ (by rwa [hsame.mOf])
    (equationsHold_acceptStep h hesi hdata h₁ hx hstored hmatch) fun row hrow => ?_
  rw [hsame.mOf, hsame.kOf] at hrow
  rw [EquationHolds, hsame.mOf, hsame.kOf, hsame.lanesOf]
  exact hmatch' row hrow

/-- Two ACCEPTs in a row, each with its own bytes in IOBUF, as elimination steps. -/
theorem acceptSteps_of_exec {a ab : State} {io io' : Memory} (h : InDecode s) (hesi : esi < nOf s)
    (hesi' : esi' < nOf s) (ha : exec (.accept esi) (s.setIobuf io) = .next a)
    (hab : exec (.accept esi') (a.setIobuf io') = .next ab) :
    AcceptStep s esi (unpack (mOf s) (io.readBytes 0 (symszOf s))) (a.setIobuf s.iobuf) ∧
      AcceptStep (a.setIobuf s.iobuf) esi' (unpack (mOf s) (io'.readBytes 0 (symszOf s)))
        (ab.setIobuf s.iobuf) := by
  have h₁ := acceptStep_of_exec h hesi ha
  have hsame := sameSession_acceptStep h₁
  have h₂ := acceptStep_of_exec (s := a.setIobuf s.iobuf) (io := io') (inDecode_acceptStep h hesi h₁)
    (hsame.nOf ▸ hesi') hab
  rw [hsame.mOf, hsame.symszOf] at h₂
  exact ⟨h₁, h₂⟩

theorem sameSession_of_acceptedBoth (h₁ : AcceptedBoth s s₁ esi esi' t)
    (h₂ : AcceptedBoth s s₂ esi' esi t') : SameSession t' t :=
  ⟨h₁.same.m.trans h₂.same.m.symm, h₁.same.k.trans h₂.same.k.symm, h₁.same.n.trans h₂.same.n.symm,
    h₁.same.symsz.trans h₂.same.symsz.symm⟩

/-- Sessions that the same two symbols lead to in either order have the same elimination (R247). -/
theorem elim_eq_of_acceptedBoth (h₁ : AcceptedBoth s s₁ esi esi' t) (h₂ : AcceptedBoth s s₂ esi' esi t') :
    t.d = t'.d ∧ t.piv = t'.piv := by
  refine elim_eq_of_stateSpace_eq h₂.session h₁.session (sameSession_of_acceptedBoth h₁ h₂) ?_
  rw [h₂.same.mOf, h₂.same.kOf, h₁.space, h₂.space, sup_right_comm]

/-- Two ESIs are counted in either order. -/
theorem indexInsert_comm {l : List Nat} (h : indexSetWf l = true) (i j : Nat) :
    indexInsert (indexInsert l i) j = indexInsert (indexInsert l j) i :=
  indexSet_ext (indexInsert_wf j (indexInsert_wf i h)) (indexInsert_wf i (indexInsert_wf j h)) fun a => by
    simp only [mem_indexInsert, or_left_comm]

theorem rxcount_eq_of_seen_eq (h : RunInv s) (h' : RunInv t) (heq : t.seen = s.seen) :
    t.rxcount = s.rxcount := by
  obtain ⟨-, -, -, -, hrx, -⟩ := h
  obtain ⟨-, -, -, -, hrx', -⟩ := h'
  rw [hrx, hrx', heq]

/-- Settles O60: the two orders lead to the same row space, and that fixes the session. -/
theorem acceptOrderDoesNotMatter : Obligations.AcceptOrderDoesNotMatter := by
  intro s a b ab ba e e' io io' h hdec hs he he' ha hab hb hba
  have hin : InDecode s := ⟨h, hdec, .inl hs⟩
  have hm := (runInv_field h (by simp [hs])).2
  have ⟨_, ⟨_, _, _, _, _, _, hwf⟩, _⟩ := h
  have hdata : ∀ io : Memory,
      IsRow (mOf s) (lanesOf s) (unpack (mOf s) (io.readBytes 0 (symszOf s))) :=
    fun io => isRow_iobufLanes (s := s.setIobuf io) hm
  obtain ⟨ha₁, ha₂⟩ := acceptSteps_of_exec hin he he' ha hab
  obtain ⟨hb₁, hb₂⟩ := acceptSteps_of_exec hin he' he hb hba
  have hboth := acceptedBoth hin hs he he' (hdata io) (hdata io') ha₁ ha₂
  have hboth' := acceptedBoth hin hs he' he (hdata io') (hdata io) hb₁ hb₂
  obtain ⟨hd, hpiv⟩ := elim_eq_of_acceptedBoth hboth hboth'
  have hsame := sameSession_of_acceptedBoth hboth hboth'
  obtain ⟨hrank, hstate⟩ := state_eq_of_piv_eq hboth'.session hboth.session hsame hpiv
  refine ⟨⟨hd, hpiv, hrank, hstate⟩, fun hane hbne => ?_, fun x hx hstored hmatch hmatch' => ?_⟩
  · have hseen : ab.seen = ba.seen :=
      (hboth.seen hane).trans ((indexInsert_comm hwf e e').trans (hboth'.seen hbne).symm)
    exact ⟨hseen, rxcount_eq_of_seen_eq (s := ba.setIobuf s.iobuf) (t := ab.setIobuf s.iobuf)
      hboth'.session.inv hboth.session.inv hseen⟩
  · exact sym_eq_of_elim_eq (s := ba.setIobuf s.iobuf) (t := ab.setIobuf s.iobuf) hboth'.session
      hboth.session hsame hd hpiv
      (equationsHold_acceptedBoth hin he' he (hdata io') (hdata io) hb₁ hb₂ hx hstored hmatch' hmatch)
      (equationsHold_acceptedBoth hin he he' (hdata io) (hdata io') ha₁ ha₂ hx hstored hmatch hmatch')

end Sys2Proof.Machine
end

section
/-! ### Outcomes that the state or the operands decide (60_exceptions.md R281 to R285, R295)

Every meaning but RESET is `guarded` by one check of STATE. Off ENCODE that check is the row of the legality
table, and what it turns away is turned away before the operands are looked at. -/

namespace Sys2Proof.Machine

variable {s t : State} {i : Instr} {o : Status} {esi : Nat}

/-! #### The legality table -/

/-- The check of STATE that guards each command's meaning; RESET has none (R282). -/
def stateCheck (s : State) : Instr → Option Status
  | .reset => none
  | .nop | .gfadd _ _ _ | .gfmul _ _ _ | .gfinv _ _ => faultCheck s
  | .initEnc _ _ _ _ | .initDec _ _ _ _ => idleCheck s
  | .put _ => sessionCheck [.encLoad] s
  | .encode => sessionCheck [.encLoad, .encReady] s
  | .get _ => sessionCheck [.encReady] s
  | .accept _ | .dget _ _ | .dpiv _ | .seenq _ => sessionCheck [.decAcc, .decDone] s
  | .getsrc _ => sessionCheck [.decDone] s
  | .gget _ _ | .vclr | .vaddmul _ | .vscale _ | .vout => sessionCheck anySession s

theorem guarded_of_failed {check : Option Status} {body : Host.Outcome State Fault Refusal}
    (h : check = some o) : guarded check s body = .next (s.setStatus o) := by
  rw [h, guarded_some]

/-- A command that its check of STATE turns away changes only STATUS. -/
theorem exec_of_stateCheck (h : stateCheck s i = some o) : exec i s = .next (s.setStatus o) := by
  cases i with
  | reset => nomatch h
  | _ => exact guarded_of_failed h

/-- The row of the legality table for a command other than ENCODE is its check of STATE. -/
theorem legality_eq_stateCheck (full : Bool) (hi : i ≠ .encode) :
    legality full i s.state = stateCheck s i := by
  cases i with
  | encode => exact absurd rfl hi
  | _ =>
    cases hs : s.state <;>
      simp [legality, stateCheck, faultCheck, idleCheck, sessionCheck, anySession, hs]

/-- Before ENCODE every source slot has to be loaded (R215, R282). -/
theorem exec_encode_of_not_loaded (hs : s.state = .encLoad) (hl : s.loaded ≠ s.k) :
    exec .encode s = .next (s.setStatus .badState) := by
  refine (guarded_of_passed (sessionCheck_of_state hs (by decide))).trans ?_
  rw [if_neg (by simp [hs]), if_neg hl]
  rfl

/-- A second ENCODE is a successful no-op (R282, R284). -/
theorem exec_encode_encReady (hs : s.state = .encReady) :
    exec .encode s = .next (s.setStatus .ok) :=
  (guarded_of_passed (sessionCheck_of_state hs (by decide))).trans (if_pos hs)

/-- What ENCODE's row of the legality table adds to its check of STATE: ENC_READY, and LOADED in ENC_LOAD. -/
theorem legality_encode_eq_some {full : Bool} (h : legality full .encode s.state = some o) :
    stateCheck s .encode = some o ∨ (s.state = .encLoad ∧ full = false ∧ o = .badState) ∨
      (s.state = .encReady ∧ o = .ok) := by
  cases hs : s.state <;> simp_all [legality, stateCheck, sessionCheck]

/-- Settles O16: the row is the command's check of STATE, and ENCODE's two further entries are its own. -/
theorem legalityTableDecidesOutcome : Obligations.LegalityTableDecidesOutcome := by
  intro i s o h
  by_cases hi : i = .encode
  · subst hi
    rcases legality_encode_eq_some h with hcheck | ⟨hs, hfull, rfl⟩ | ⟨hs, rfl⟩
    · exact exec_of_stateCheck hcheck
    · exact exec_encode_of_not_loaded hs (of_decide_eq_false hfull)
    · exact exec_encode_encReady hs
  · exact exec_of_stateCheck ((legality_eq_stateCheck _ hi).symm.trans h)

/-! #### The operand checks -/

/-- A command whose check of STATE passes ends with the outcome of a cause that fails its operand check, and
changes only STATUS. -/
theorem guarded_ite_of_cause {check : Option Status} {c cause : Prop} [Decidable c] [Decidable cause]
    {o' : Status} {body : Host.Outcome State Fault Refusal} (hcheck : check = none) (hc : cause → ¬c)
    (h : (if cause then some o' else none) = some o) :
    guarded check s (if c then body else raise o' s) = .next (s.setStatus o) := by
  obtain ⟨hcause, rfl⟩ : cause ∧ o' = o := by simpa using h
  rw [hcheck, guarded_none, if_neg (hc hcause)]
  rfl

theorem not_gfOperandsOk {p : Params} {m x y : Nat} (h : m ∉ p.mSet ∨ x ≥ 2 ^ m ∨ y ≥ 2 ^ m) :
    ¬gfOperandsOk p m x y = true := by
  rwa [gfOperandsOk_iff, not_and_or, not_and_or, not_lt, not_lt]

theorem not_gfInvOperandOk {p : Params} {m x : Nat} (h : m ∉ p.mSet ∨ x ≥ 2 ^ m ∨ x = 0) :
    ¬gfInvOperandOk p m x = true := by
  rwa [gfInvOperandOk_iff, not_and_or, not_and_or, not_lt, not_not]

/-- GGET checks its row before its column (R283). -/
theorem exec_gget_of_operandFailure {col : Nat} (hcheck : stateCheck s (.gget esi col) = none)
    (h : operandFailure s (.gget esi col) = some o) :
    exec (.gget esi col) s = .next (s.setStatus o) := by
  by_cases hesi : esi < nOf s
  · exact (guarded_ite_of_passed hcheck hesi).trans
      (guarded_ite_of_cause (check := none) rfl not_lt.2 ((if_neg (not_le.2 hesi)).symm.trans h))
  · exact guarded_ite_of_cause (cause := esi ≥ nOf s) hcheck not_lt.2
      ((if_pos (not_lt.1 hesi)).trans ((if_pos (not_lt.1 hesi)).symm.trans h))

/-- Settles O17, command by command: a cause of R281 fails the meaning's own operand check. -/
theorem operandCheckDecidesOutcome : Obligations.OperandCheckDecidesOutcome := by
  intro i s o hlegal hfail
  have hcheck (hi : i ≠ .encode) : stateCheck s i = none := (legality_eq_stateCheck _ hi).symm.trans hlegal
  cases i with
  | initEnc m k n z =>
    exact guarded_ite_of_cause (hcheck nofun) (mt validParams_iff.1) ((ite_not ..).trans hfail)
  | initDec m k n z =>
    exact guarded_ite_of_cause (hcheck nofun) (mt validParams_iff.1) ((ite_not ..).trans hfail)
  | put slot => exact guarded_ite_of_cause (hcheck nofun) not_lt.2 hfail
  | get esi => exact guarded_ite_of_cause (hcheck nofun) not_lt.2 hfail
  | accept esi => exact guarded_ite_of_cause (hcheck nofun) not_lt.2 hfail
  | getsrc j => exact guarded_ite_of_cause (hcheck nofun) not_lt.2 hfail
  | dget row col =>
    exact guarded_ite_of_cause (hcheck nofun) (fun h => not_and_or.2 (h.imp not_lt.2 not_lt.2)) hfail
  | dpiv row => exact guarded_ite_of_cause (hcheck nofun) not_lt.2 hfail
  | seenq esi => exact guarded_ite_of_cause (hcheck nofun) not_lt.2 hfail
  | gfadd m x y => exact guarded_ite_of_cause (hcheck nofun) not_gfOperandsOk hfail
  | gfmul m x y => exact guarded_ite_of_cause (hcheck nofun) not_gfOperandsOk hfail
  | gfinv m x => exact guarded_ite_of_cause (hcheck nofun) not_gfInvOperandOk hfail
  | vaddmul coef =>
    exact guarded_ite_of_cause (hcheck nofun) (fun h => mt of_decide_eq_true (not_lt.2 h)) hfail
  | vscale coef =>
    exact guarded_ite_of_cause (hcheck nofun) (fun h => mt of_decide_eq_true (not_lt.2 h)) hfail
  | gget esi col => exact exec_gget_of_operandFailure (hcheck nofun) hfail
  | nop => nomatch hfail
  | reset => nomatch hfail
  | encode => nomatch hfail
  | vclr => nomatch hfail
  | vout => nomatch hfail

/-! #### Failing commands -/

/-- ACCEPT of an ESI already counted is a successful no-op (R242, R284). -/
theorem exec_accept_seen (hs : s.state = .decAcc) (hesi : esi < nOf s) (hseen : esi ∈ s.seen) :
    exec (.accept esi) s = .next (s.setStatus .incomplete) := by
  refine (guarded_ite_of_passed (sessionCheck_decode (.inl hs)) hesi).trans ?_
  rw [if_neg (by simp [hs]), if_pos hseen]
  rfl

/-- The outcomes that promise an unchanged state: a caller error, or ERROR in FAULTED (R284). -/
def Fails (st : SessionState) (o : Status) : Prop :=
  statusCallerError o = true ∨ (st = .faulted ∧ o = .error)

theorem not_fails_ok (st : SessionState) : ¬Fails st .ok := by
  simp [Fails, statusCallerError]

/-- ERROR with which a command enters FAULTED is no failure of R284. -/
theorem not_fails_error {st : SessionState} (hst : st ≠ .faulted) : ¬Fails st .error := by
  simp [Fails, statusCallerError, hst]

/-- ACCEPT of a new ESI ends with COMPLETE or INCOMPLETE (R242). -/
theorem not_fails_acceptOutcome {u : State} (h : acceptOutcome u = .next t) (st : SessionState) :
    ¬Fails st t.status := by
  rcases acceptOutcome_next h with ⟨-, rfl⟩ | ⟨-, rfl⟩ <;> simp [Fails, statusCallerError]

/-- Of the effects of a command only the first, which changes STATUS alone, can be a failure. -/
theorem eq_setStatus_of_fails (h : exec i s = .next t) (hfail : Fails s.state t.status) :
    t = s.setStatus t.status := by
  cases exec_effect h with
  | status i o hi => rfl
  | fault i hi =>
    refine absurd hfail (not_fails_error ?_)
    rcases hi with ⟨-, hs⟩ | ⟨-, hs⟩
    · simp [hs]
    · intro hf
      simp [hf] at hs
  | acceptFault esi hs hn => exact absurd hfail (not_fails_error (by simp [hs]))
  | accept esi row u t hs hn hnew hrow hu ht => exact absurd hfail (not_fails_acceptOutcome ht _)
  | _ => exact absurd hfail (not_fails_ok _)

/-- Settles O18: an illegal word changes STATUS alone, a command by its effects, and the no-ops by their
meanings. -/
theorem failingCommandChangesOnlyStatus : Obligations.FailingCommandChangesOnlyStatus := by
  refine ⟨fun w s t h hfail => ?_, fun _ _ hs hesi hseen => exec_accept_seen hs hesi hseen,
    fun _ _ hs hesi => exec_accept_decDone hs hesi, fun _ hs => exec_encode_encReady hs⟩
  rcases runCommand_next h with ⟨i, -, hi⟩ | ⟨-, rfl⟩
  · exact eq_setStatus_of_fails hi hfail
  · rfl

/-! #### The internal fault -/

/-- The internal fault of ENCODE is that of the generator (R215, R285). -/
theorem gen_eq_none_of_execEncode (h : execEncode s = .next t) (ht : t.state = .faulted)
    (hs : s.state ≠ .faulted) : gen (mOf s) (kOf s) (nOf s) = none := by
  rcases execEncode_next h with
    ⟨o, -, rfl⟩ | ⟨-, rfl⟩ | ⟨-, -, rfl⟩ | ⟨-, -, hnone, -⟩ | ⟨-, -, g, -, rfl⟩
  · exact absurd ht hs
  · exact absurd ht hs
  · exact absurd ht hs
  · exact hnone
  · nomatch ht

/-- The internal fault of ACCEPT is that of the whole generator: the elimination step never faults (R242,
R285). -/
theorem gen_eq_none_of_execAccept (h : execAccept esi s = .next t) (ht : t.state = .faulted)
    (hs : s.state ≠ .faulted) : gen (mOf s) (kOf s) (nOf s) = none := by
  rcases execAccept_next h with
    ⟨o, -, rfl⟩ | ⟨-, -, rfl⟩ | ⟨-, -, rfl⟩ | ⟨-, -, -, rfl⟩ | ⟨-, -, -, hnew⟩
  · exact absurd ht hs
  · exact absurd ht hs
  · exact absurd ht hs
  · exact absurd ht hs
  · rcases acceptNew_next hnew with ⟨hnone, -⟩ | ⟨row, u, -, hu, hout⟩
    · exact (gen_eq_none_iff _ _ _ esi).2 hnone
    · rcases (accept_frame hu hout).1 with hdone | hsame
      · simp [hdone] at ht
      · exact absurd (hsame.symm.trans ht) hs

/-- Settles O20, effect by effect: but for the two faults the STATE afterwards is another one or the same. -/
theorem internalFaultKeepsTheRest : Obligations.InternalFaultKeepsTheRest := by
  intro i s t h ht hs
  cases exec_effect h with
  | status i o hi => exact absurd ht hs
  | result i v hi => exact absurd ht hs
  | output i bs hi hidle hlen => exact absurd ht hs
  | accumulate i bs hi hidle hlen => exact absurd ht hs
  | fault i hi =>
    rcases hi with ⟨rfl, henc⟩ | ⟨⟨esi, col, rfl⟩, -⟩
    · exact ⟨gen_eq_none_of_execEncode h ht hs, .inl ⟨.inl ⟨rfl, henc⟩, rfl⟩⟩
    · exact ⟨gen_eq_none_of_execGget h fun heq => hs (heq.symm.trans ht),
        .inl ⟨.inr ⟨esi, col, rfl⟩, rfl⟩⟩
  | acceptFault esi hacc hesi =>
    exact ⟨gen_eq_none_of_execAccept h ht hs,
      .inr ⟨esi, rfl, hacc, fun _ => mem_indexInsert, rfl, rfl⟩⟩
  | accept esi row u t hacc hesi hnew hrow hu hout =>
    rcases (accept_frame hu hout).1 with hdone | hsame
    · simp [hdone] at ht
    · exact absurd (hsame.symm.trans ht) hs
  | load slot henc => exact absurd ht hs
  | _ => nomatch ht

/-! #### Between transactions -/

/-- Settles O8, by the first case of performNext. -/
theorem quiescentStepChangesNothing : Obligations.QuiescentStepChangesNothing := by
  intro s hs
  rw [step, performNext, hs]

end Sys2Proof.Machine
end

section
/-! ### What every command and every step keeps (70_reset_and_hazards.md R322, R333)

The port that a transaction comes in by decides how it ends; what a command may write is read off its effect. -/

namespace Sys2Proof.Machine

variable {s t u : State}

/-! #### Every step answers a next state -/

/-- An illegal word is refused by an outcome in STATUS, not by stopping the machine (R96). -/
theorem runCommand_answers (w : CmdWord) (s : State) : Answers (runCommand w s) := by
  unfold runCommand
  split
  · exact exec_answers _ s
  · exact answers_raise _ _

theorem answers_answerCommand {r : Host.Outcome State Fault Refusal} (h : Answers r) :
    Answers (answerCommand r) := by
  obtain ⟨t, rfl⟩ := h
  exact answers_next _

/-- Only the command port runs what could fail; the other transactions are functions of the state. -/
theorem transact_answers (x : Transaction) (s : State) : Answers (transact x s) := by
  cases x with
  | cmd w => exact answers_answerCommand (runCommand_answers w s)
  | regrd r => exact answers_next _
  | bufwr o v => exact answers_next _
  | bufrd o => exact answers_next _
  | hwReset => exact answers_next _

theorem step_answers (s : State) : Answers (step s) := by
  cases hs : s.pending with
  | nil => exact ⟨s, quiescentStepChangesNothing s hs⟩
  | cons x ts =>
    rw [step_of_pending hs]
    exact transact_answers x _

/-- Settles O9, by the cases of the instruction and of the transaction. -/
theorem stepAlwaysAnswersNext : Obligations.StepAlwaysAnswersNext := ⟨exec_answers, step_answers⟩

/-! #### The host's side -/

/-- ACCEPT of a new ESI writes only the session's own state (R242). -/
theorem accept_host {esi : Nat} {e : Equation}
    (hu : decInsert e (s.setSeen (indexInsert s.seen esi)) = some u) (ht : acceptOutcome u = .next t) :
    t.pending = s.pending ∧ t.responses = s.responses := by
  rw [decInsert_frame hu] at ht
  rcases acceptOutcome_next ht with ⟨-, rfl⟩ | ⟨-, rfl⟩ <;> exact ⟨rfl, rfl⟩

/-- No command touches the lists of transactions and responses; RESET keeps them too. -/
theorem exec_host {i : Instr} (h : exec i s = .next t) :
    t.pending = s.pending ∧ t.responses = s.responses := by
  cases exec_effect h with
  | accept esi row u t hs hn hnew hrow hu ht => exact accept_host hu ht
  | _ => exact ⟨rfl, rfl⟩

/-- Settles O10, effect by effect. -/
theorem commandsKeepInstanceAndHostSide : Obligations.CommandsKeepInstanceAndHostSide :=
  fun _ _ _ h => ⟨exec_inst h, exec_host h⟩

end Sys2Proof.Machine
end
